-- ==== Sys2Proof/Word.lean ====
section
/-! DEFINITION. The word types of the block: the 32-bit word of every register, operand and bus address (rules R6, R9,
R33, R54), the byte of a memory cell, and the 164-bit request of rule R53. -/

namespace Sys2Proof

/-- A 32-bit word, bit 0 the least significant (R9): register contents, operands, bus addresses. -/
abbrev Word := BitVec 32

/-- One byte of a memory cell. -/
abbrev Byte := BitVec 8

/-- A packed `CMD` request, `REQ` (R53). -/
abbrev Req := BitVec 164

end Sys2Proof
end

