-- ==== Sys2Proof/Config.lean ====
section
/-! DEFINITION. The implementation parameters of rule R6 (00_scope.md), and the free values: what the spec leaves without
a value, as constants with no body. -/

namespace Sys2Proof

/-- `PULL_STEP1_VALUE`: what step 1 of `SET_PULL` writes (R6, R82; conflict C3). -/
inductive PullStep1 where
  | requestedMode
  | literalNone
  deriving DecidableEq, Repr

/-- `PULL_CLEAR_STYLE`: how steps 5 and 6 of `SET_PULL` clear (R6, R83). -/
inductive PullClear where
  | wordWrite
  | fieldRmw
  deriving DecidableEq, Repr

/-- The pull modes of R29, in the order the source lists them. -/
inductive PullMode where
  | none
  | pullDown
  | pullUp
  deriving DecidableEq, Repr, Inhabited

/-- The parameters an implementation fixes (R6). The five addresses are OPEN; the others have the spec's defaults.
`PERIPH_RESET` is the free values below. -/
structure Config where
  /-- `FSEL_BASE`, address of function-select register 0. -/
  fselBase : Word
  /-- `SET_BASE`, address of set register 0. -/
  setBase : Word
  /-- `CLR_BASE`, address of clear register 0. -/
  clrBase : Word
  /-- `PUD_ADDR`, address of the global pull-control register. -/
  pudAddr : Word
  /-- `PUDCLK_BASE`, address of clock-enable register 0. -/
  pudclkBase : Word
  /-- `WORD`, width of a register and of a bus data word (log entry 24). -/
  word : Nat := 32
  /-- `ADDR_WIDTH`, width of a bus address (log entry 24). -/
  addrWidth : Nat := 32
  /-- `MAX_PIN`, largest valid pin index. -/
  maxPin : Word := 53
  /-- `FSEL_WIDTH`, function-select field width. -/
  fselWidth : Nat := 3
  /-- `FSEL_PER_REG`, function-select fields per register. -/
  fselPerReg : Nat := 10
  /-- `BIT_WIDTH`, width of a set, clear or clock-enable field. -/
  bitWidth : Word := 1
  /-- `PUD_WIDTH`, width of the pull-mode field. -/
  pudWidth : Word := 2
  /-- `PULL_SETTLE`, the settle wait in time units of the delay collaborator. -/
  pullSettle : Nat := 150
  /-- `PULL_STEP1_VALUE`. -/
  pullStep1 : PullStep1 := .requestedMode
  /-- `PULL_CLEAR_STYLE`. -/
  pullClear : PullClear := .wordWrite
  deriving DecidableEq, Repr

/-- `NUM_PINS = MAX_PIN + 1` (R6). -/
def Config.numPins (c : Config) : Nat := c.maxPin.toNat + 1

/-- The widths and the parameters of the field geometry have the defaults of R6: a premise of the statements that say a rule
with the spec's numbers. -/
abbrev Config.AtDefaults (c : Config) : Prop :=
  c.maxPin = 53 ∧ c.fselWidth = 3 ∧ c.fselPerReg = 10 ∧ c.bitWidth = 1 ∧ c.pudWidth = 2 ∧ c.word = 32 ∧
    c.addrWidth = 32

/-- `EXCFG`, the example configuration of 95_test_vectors.md section 0.
DESIGN CHOICE, unsafe: the spec leaves the five addresses OPEN (log entry 3). -/
def Config.exCfg : Config where
  fselBase := 0x20200000
  setBase := 0x2020001C
  clrBase := 0x20200028
  pudAddr := 0x20200094
  pudclkBase := 0x20200098

/-- FREE VALUE (`PERIPH_RESET`, R32): the byte at an address nothing has written since power-up number `epoch`.
Safe: log entry 6. -/
opaque Config.periphReset (epoch address : Nat) : Byte

/-- FREE VALUE (`PERIPH_RESET`, R32): the level latch of a pin that nothing has driven since power-up number `epoch`. Safe:
log entry 10. -/
opaque Config.levelReset (epoch pin : Nat) : Bool

/-- FREE VALUE (`PERIPH_RESET`, R32): the pull latch of a pin that has latched nothing since power-up number `epoch`; the
latch holds its low `PUD_WIDTH` bits. Safe: log entry 10. -/
opaque Config.pullReset (epoch pin : Nat) : Word

/-- FREE VALUE (R24, R25, D15): the n-th draw a read of a write-only register returns. Safe: log entry 8. -/
opaque Config.readDraw (n : Nat) : Word

/-- FREE VALUE (R29, U4): the pull mode a pin takes from a pull code above 2. Safe: log entry 11. -/
opaque Config.pullOther (code : Word) : PullMode

end Sys2Proof
end

