-- ==== Sys2Proof/Machine/Operands.lean ====
section
/-! DEFINITION. The operand forms: field geometry (R62, R63), the function-select packing (R70), the word arithmetic of a
read-modify-write (R65), a field's value (R69), and the registers of the pin controller (R22, R42). Pure functions of words
and parameters. -/

namespace Sys2Proof.Machine

open Sys2Proof

/-- `ValidWidth(w)` (R62). -/
abbrev ValidWidth (w : Nat) : Prop := 1 ≤ w ∧ w ≤ 32 ∧ 32 % w = 0

/-- `Mask(w) = 2^w - 1`, exact (R63). -/
def fieldMask (w : Nat) : Nat := 2 ^ w - 1

/-- `Mask(w)` as the word a read-modify-write shifts (R63, R65). -/
def maskWord (w : Nat) : Word := BitVec.ofNat 32 (fieldMask w)

/-- `FieldsPerReg(w) = 32 / w` (R63). -/
def fieldsPerReg (w : Nat) : Nat := 32 / w

/-- `RegAddr(b, i, w) = trunc_32(b + (i / FieldsPerReg(w)) * 4)` (R63, R37). -/
def regAddr (b : Word) (i w : Nat) : Word := BitVec.ofNat 32 (b.toNat + i / fieldsPerReg w * 4)

/-- `Shift(i, w) = (i mod FieldsPerReg(w)) * w` (R63). -/
def fieldShift (i w : Nat) : Nat := i % fieldsPerReg w * w

/-- `FselAddr(p) = trunc_32(FSEL_BASE + (p / FSEL_PER_REG) * 4)` (R70). -/
def fselAddr (c : Config) (p : Nat) : Word := BitVec.ofNat 32 (c.fselBase.toNat + p / c.fselPerReg * 4)

/-- `FselShift(p) = (p * 3) mod 30`, 3 being `FSEL_WIDTH` and 30 the bits of `FSEL_PER_REG` fields (R6, R70). -/
def fselShift (c : Config) (p : Nat) : Nat := p * c.fselWidth % (c.fselPerReg * c.fselWidth)

/-- `FselMask`, the mask of `FSEL_WIDTH` bits (R6, R70). -/
def fselMask (c : Config) : Word := maskWord c.fselWidth

/-- The new word of a read-modify-write: `(d & ~(m << s)) | (v << s)` (R65). -/
def insertField (d : Word) (s : Nat) (m v : Word) : Word := (d &&& ~~~(m <<< s)) ||| (v <<< s)

/-- `FieldValue(word, s, w) = (word >> s) & Mask(w)` (R69). -/
def fieldValue (word : Word) (s w : Nat) : Word := (word >>> s) &&& maskWord w

/-- An address the bus port can admit: a multiple of 4 (R36). -/
abbrev Aligned (a : Word) : Prop := a.toNat % 4 = 0

/-- Member `n` of a register group at `base`: `base + 4n` (R22), wrapped (R37). -/
def member (base : Word) (n : Nat) : Word := BitVec.ofNat 32 (base.toNat + n * 4)

/-- Pins per set, clear or clock-enable register (R8, R22). -/
def pinsPerBank (c : Config) : Nat := fieldsPerReg c.bitWidth.toNat

/-- How many registers each of the set, clear and clock-enable groups has (R8). -/
def bankCount (c : Config) : Nat := c.maxPin.toNat / pinsPerBank c + 1

/-- How many function-select registers there are (R8). -/
def fselCount (c : Config) : Nat := c.maxPin.toNat / c.fselPerReg + 1

/-- Which member of the set, clear or clock-enable group at `base` an address is, if any (R22, R42). -/
def bankOf (c : Config) (base a : Word) : Option Nat :=
  if (a - base).toNat % 4 = 0 ∧ (a - base).toNat / 4 < bankCount c then some ((a - base).toNat / 4) else none

/-- The register addresses of the pin controller, thirteen at the defaults of R6 (R8, R42): the function-select, set and
clear groups, PUD, the clock-enable group. -/
def registers (c : Config) : List Word :=
  (List.range (fselCount c)).map (member c.fselBase) ++ (List.range (bankCount c)).map (member c.setBase) ++
    (List.range (bankCount c)).map (member c.clrBase) ++ [c.pudAddr] ++
    (List.range (bankCount c)).map (member c.pudclkBase)

end Sys2Proof.Machine
end

