-- ==== Sys2Proof/Syntax.lean ====
section
/-! DEFINITION. The syntax: the four commands (R2, R55), the request of six fields (R52, R53) and the assembler's lines
(R59, R60). -/

namespace Sys2Proof

/-- The four commands of the opcode table, each with the operands its rule reads (R54). The fields a command ignores are
no operands of it; they stand in the request and are loaded into the command registers. -/
inductive Instr where
  /-- `WRITE_FIELD` (R67). -/
  | writeField (index value base width maxIdx : Word)
  /-- `SET_FUNCTION` (R76). -/
  | setFunction (pin function : Word)
  /-- `DRIVE` (R77). -/
  | drive (pin level : Word)
  /-- `SET_PULL` (R81). -/
  | setPull (pin mode : Word)
  deriving DecidableEq, Repr

/-- The six fields of a `CMD` request (R52), and the six command registers that are loaded with them (R17). -/
structure Request where
  /-- `OP`, the opcode. -/
  op : BitVec 4
  /-- `INDEX`, field index or pin. -/
  index : Word
  /-- `VALUE`, field value, function, level or pull mode. -/
  value : Word
  /-- `BASE`, base address of the field descriptor. -/
  base : Word
  /-- `WIDTH`, field width of the field descriptor. -/
  width : Word
  /-- `MAXIDX`, maximum index of the field descriptor. -/
  maxIdx : Word
  deriving DecidableEq, Repr

/-- A line of assembly (R59) or a pseudo-command (R60), with its literals as the numbers written. -/
inductive AsmLine where
  | writeField (index value base width maxIdx : Nat)
  | setFunction (pin function : Nat)
  | drive (pin level : Nat)
  | setPull (pin mode : Nat)
  | driveHigh (pin : Nat)
  | driveLow (pin : Nat)
  | pullNone (pin : Nat)
  | pullDown (pin : Nat)
  | pullUp (pin : Nat)
  | setInput (pin : Nat)
  | setOutput (pin : Nat)
  | writeBit (index value base maxIdx : Nat)
  deriving DecidableEq, Repr

/-- The literals of a line. -/
def AsmLine.literals : AsmLine → List Nat
  | .writeField i v b w m => [i, v, b, w, m]
  | .setFunction p f => [p, f]
  | .drive p l => [p, l]
  | .setPull p m => [p, m]
  | .driveHigh p => [p]
  | .driveLow p => [p]
  | .pullNone p => [p]
  | .pullDown p => [p]
  | .pullUp p => [p]
  | .setInput p => [p]
  | .setOutput p => [p]
  | .writeBit i v b m => [i, v, b, m]

end Sys2Proof
end

