-- ==== Sys2Proof/WellFormed.lean ====
section
/-! DEFINITION. What is well formed: a configuration (R7), a line of assembly (R61), a command (R58). -/

namespace Sys2Proof

/-- The fields the parameters describe lie in 32-bit registers: function-select fields exist and fit (R15, R22), and the
accessor accepts the two other widths (R62). DEDUCED, safe: log entry 25. -/
abbrev Config.FieldsFit (c : Config) : Prop :=
  1 ≤ c.fselWidth ∧ 1 ≤ c.fselPerReg ∧ c.fselPerReg * c.fselWidth ≤ 32 ∧ Machine.ValidWidth c.bitWidth.toNat ∧
    Machine.ValidWidth c.pudWidth.toNat

/-- `WORD` and `ADDR_WIDTH` are the 32 bits the rules on accesses, wrapping and fields are stated for (R33, R34, R37, R62,
R63), the width of the type `Word`. DEDUCED, safe: log entry 24. -/
abbrev Config.WordsFit (c : Config) : Prop := c.word = 32 ∧ c.addrWidth = 32

/-- A configuration is well formed when its fields and words fit, each base is a multiple of 4 and the register addresses are
pairwise distinct (R7). -/
abbrev Config.WellFormed (c : Config) : Prop :=
  c.FieldsFit ∧ Machine.Aligned c.fselBase ∧ Machine.Aligned c.setBase ∧ Machine.Aligned c.clrBase ∧
    Machine.Aligned c.pudAddr ∧ Machine.Aligned c.pudclkBase ∧ (Machine.registers c).Nodup ∧
    c.WordsFit

/-- Every literal of a line is in `0 .. 2^32 - 1` (R61). -/
abbrev AsmLine.WellFormed (l : AsmLine) : Prop := ∀ n ∈ l.literals, n < 2 ^ 32

/-- Every command is well formed: its operands are 32-bit words, and which of them are valid is decided when it runs, not
by the decoder (R58, R61). -/
abbrev Instr.WellFormed : Instr → Prop
  | .writeField _ _ _ _ _ => True
  | .setFunction _ _ => True
  | .drive _ _ => True
  | .setPull _ _ => True

end Sys2Proof
end

