-- ==== Sys2Proof/Decode.lean ====
section
/-! DEFINITION. The decoder of a request, total on its 164 bits (R53, R55 to R58), the encoder beside it, and the form of
both that the opcode table is checked with. -/

namespace Sys2Proof

/-- Why a request is none of the four commands: its opcode is reserved (R56). -/
inductive DecodeError where
  | reservedOpcode (op : BitVec 4)
  deriving DecidableEq, Repr

/-- The fields of a request by their bit positions (R53). -/
def decodeRequest (r : Req) : Request where
  op := r.extractLsb' 0 4
  index := r.extractLsb' 4 32
  value := r.extractLsb' 36 32
  base := r.extractLsb' 68 32
  width := r.extractLsb' 100 32
  maxIdx := r.extractLsb' 132 32

/-- The packed request of six fields, MAXIDX highest and OP lowest (R53). -/
def encodeRequest (q : Request) : Req :=
  q.maxIdx ++ q.width ++ q.base ++ q.value ++ q.index ++ q.op

/-- The command of six fields: OP alone selects it (R55, R57). -/
def Request.command (q : Request) : Except DecodeError Instr :=
  match q.op.toNat with
  | 0 => .ok (.writeField q.index q.value q.base q.width q.maxIdx)
  | 1 => .ok (.setFunction q.index q.value)
  | 2 => .ok (.drive q.index q.value)
  | 3 => .ok (.setPull q.index q.value)
  | _ => .error (.reservedOpcode q.op)

/-- The decoder (R57, R58). -/
def decode (r : Req) : Except DecodeError Instr := (decodeRequest r).command

/-- The opcode of a command (R55). -/
def Instr.opcode : Instr → BitVec 4
  | .writeField _ _ _ _ _ => 0b0000
  | .setFunction _ _ => 0b0001
  | .drive _ _ => 0b0010
  | .setPull _ _ => 0b0011

/-- The request of a command: its operands in their fields (R54), the fields it ignores 0 (R59). -/
def Instr.request : Instr → Request
  | .writeField i v b w m => ⟨0b0000, i, v, b, w, m⟩
  | .setFunction p f => ⟨0b0001, p, f, 0, 0, 0⟩
  | .drive p l => ⟨0b0010, p, l, 0, 0, 0⟩
  | .setPull p m => ⟨0b0011, p, m, 0, 0, 0⟩

/-- The encoder (R53, R55, R58). -/
def encode (i : Instr) : Req := encodeRequest i.request

/-- The request whose bits are `w`, numbered from bit 0 of `REQ` (R53), `nbits` of them given and the others 0. -/
def tableReq (nbits w : Nat) : Req := BitVec.ofNat 164 (w % 2 ^ nbits)

/-- The command the decoder reads from a request given by the opcode table's bit numbers. -/
def decodeTableWord (nbits w : Nat) : Option Instr :=
  match decode (tableReq nbits w) with
  | .ok i => some i
  | .error _ => none

end Sys2Proof
end

