-- ==== Sys2Proof/Machine/State.lean ====
section
/-! DEFINITION. The state of the machine as plain data: the block's registers (10_state.md), the bus target it drives,
and the environment's moves; the reasons a step can stop; the state right after reset (R31, R32, R99). -/

namespace Sys2Proof.Machine

open Sys2Proof

/-- What `RESULT` holds once it holds a value (R18). -/
inductive Result where
  | success
  | rejected
  deriving DecidableEq, Repr

/-- `PHASE` (R19). -/
inductive Phase where
  | idle
  | busy
  deriving DecidableEq, Repr

/-- The model-internal cause codes of a rejection (R87); not observable. -/
inductive RejectCause where
  /-- `REJ_OPCODE` (1), a reserved opcode. -/
  | opcode
  /-- `REJ_WIDTH` (2), a descriptor width that does not divide 32. -/
  | width
  /-- `REJ_INDEX` (3), an index above the maximum. -/
  | index
  /-- `REJ_VALUE` (4), a value that does not fit the field. -/
  | value
  deriving DecidableEq, Repr

/-- What a subroutine returns (40_field_accessor.md) and `respond` is given. -/
inductive Verdict where
  | success
  | rejected (cause : RejectCause)
  deriving DecidableEq, Repr

/-- One event of a trace (R13). -/
inductive Event where
  /-- `Rd(addr, data)`, data being what the bus target answered. -/
  | rd (addr data : Word)
  /-- `Wr(addr, data)`. -/
  | wr (addr data : Word)
  /-- `Wt(n)`. -/
  | wt (n : Nat)
  deriving DecidableEq, Repr

/-- The internal latches of the read-modify-write in progress (R20). -/
structure Latches where
  /-- `ADDR`. -/
  addr : Word
  /-- `SHIFT`, 0..31. -/
  shift : BitVec 5
  /-- `MASK`. -/
  mask : Word
  /-- `RDATA`, once the read has answered. -/
  rdata : Option Word
  deriving DecidableEq, Repr

/-- Cells by number, in one canonical form: numbers strictly rising (`Cells.Rising`). A number that is not listed has not
been written since power-up. -/
abbrev Cells (α : Type) := List (Nat × α)

/-- Memory: byte cells by address (`Memory.wf`; log entries 6 and 7). -/
abbrev Memory := List Host.Cell

/-- The bus target: the pin controller and every other address (R22 to R30, R51). -/
structure Target where
  /-- The plain cells: `FSELn`, `PUD`, `PUDCLKn` and every other address (R51 (a), (c), (d)). -/
  mem : Memory
  /-- The level latches of the pins driven since power-up, by pin, true for high (R30, R51 (b)). -/
  levels : Cells Bool
  /-- The pull latches of the pins that have latched a mode since power-up, by pin (R30, R51 (c)). -/
  pulls : Cells Word
  /-- MODEL'S OWN: which power-up the unspecified contents belong to (log entry 12). -/
  epoch : Nat
  /-- MODEL'S OWN: how many draws the reads of write-only registers have taken (log entry 8). -/
  draws : Nat
  deriving DecidableEq, Repr

/-- A write of one whole word by another bus master (R39). -/
structure BusWrite where
  addr : Word
  data : Word
  deriving DecidableEq, Repr

/-- What a reset reaches: the block alone, or the pin controller's registers with it (R100, R101; log entry 12). -/
inductive ResetKind where
  | blockOnly
  | withPinController
  deriving DecidableEq, Repr

/-- The environment's moves before one primitive of the block (R14, R98): the other masters' writes in their order (R39),
then a reset if one arrives (R100); and, for the access that follows, the word the target answers with (`none`: what the
target holds; R51) and whether the bus port admits it (R88). -/
structure Turn where
  writes : List BusWrite
  reset : Option ResetKind
  answer : Option Word
  admitted : Bool
  deriving DecidableEq, Repr

/-- The turn in which the environment does nothing and meets its duties of R98. -/
def Turn.quiet : Turn := ⟨[], none, none, true⟩

/-- What reaches an IDLE block. -/
inductive Input where
  /-- A request on the request port (R19, R52). -/
  | request (r : Req)
  /-- A read of `RESULT` on the response port (R18). -/
  | readResult
  /-- A turn of the environment between commands (R39, R99). -/
  | environment (t : Turn)
  deriving DecidableEq, Repr

/-- The state: the block's registers (R16 to R20), its observation (R13), the bus target, and the environment's moves. -/
structure State where
  /-- The implementation parameters (R6), fixed while the machine runs. -/
  cfg : Config
  /-- `OP`, `INDEX`, `VALUE`, `BASE`, `WIDTH`, `MAXIDX` (R17). -/
  cmd : Request
  /-- `RESULT` (R18). -/
  resultReg : Result
  /-- Whether a command has responded since reset: the window of R18, in which RESULT "holds no value", is over. -/
  responded : Bool
  /-- `PHASE` (R19). -/
  phase : Phase
  /-- `STEP`, the events the current command has completed (R19). -/
  stepNo : Nat
  /-- `ADDR`, `SHIFT`, `MASK`, `RDATA`; `none` is the spec's "hold no value outside a read-modify-write" (R20). -/
  rmw : Option Latches
  /-- The trace of the command in progress or last run (R13). -/
  trace : List Event
  /-- The cause code of the last response, for bookkeeping (R87). -/
  cause : Option RejectCause
  /-- The bus target. -/
  target : Target
  /-- MODEL'S OWN: what reaches the block when it is IDLE, oldest first; a request waits here, not lost (R46). -/
  inputs : List Input
  /-- MODEL'S OWN: the environment's turns before the coming primitives, one each; past the end every turn is quiet. -/
  turns : List Turn
  /-- MODEL'S OWN: the last `RESULT` the requester read on the response port. -/
  received : Option Result
  deriving DecidableEq, Repr

/-- The reasons the machine stops. -/
inductive Fault where
  /-- Raised by `memRead` and `memWrite`: the bus port does not admit the access at `addr` (misaligned, no target, an error
  response), so the command has no step and stays BUSY in state `stuckAt` with `RESULT` not written (R36, R88). Safe. -/
  | busAccessStuck (addr : Word) (stuckAt : State)
  /-- Raised by `step` in a BUSY state that no reset ends: a stuck command stays stuck (R36, R85, R88). Safe. -/
  | blockStuck
  /-- Raised by `readResult`, a read of `RESULT` from reset until the first command completes: the spec states that a model
  faults this read (R18, D25, U3). Safe. -/
  | resultReadBeforeFirstResponse
  deriving DecidableEq, Repr

/-- The reasons an instruction is given no meaning. -/
inductive Refusal where
  /-- Raised by an arm of `exec` whose instruction has no meaning; no arm does. Safe. -/
  | notModelled (mnemonic : String)
  /-- Raised by every command under a configuration that is not well formed (R7, U9). Safe. -/
  | illFormedConfiguration
  deriving DecidableEq, Repr

/-- The bus target with the unspecified contents of power-up `epoch` (R32): nothing is listed, so that every byte and every
latch is a free value (log entries 6, 10). So is every bus address outside the pin controller's registers, of which R101
says nothing: over a reset that is the model's DESIGN CHOICE, unsafe (log entry 12). -/
def Target.powerUp (epoch draws : Nat) : Target where
  mem := []
  levels := []
  pulls := []
  epoch := epoch
  draws := draws

/-- The command registers at reset. The spec: they "hold no value" and no rule reads one before it is loaded (R31).
DESIGN CHOICE 0, unsafe: log entry 4. -/
def Request.atReset : Request := ⟨0, 0, 0, 0, 0, 0⟩

/-- `RESULT` at reset. The spec: it "holds no value" until the first command completes, and a read of it in that window
faults (R18, R31). DESIGN CHOICE SUCCESS, its encoding 0, unsafe: log entry 4. -/
def Result.atReset : Result := .success

/-- The state right after reset (R31, R32, R99, R101): IDLE, STEP 0, no command responded, no value in a latch; nothing
offered yet.
The configuration is the spec's example: DESIGN CHOICE, unsafe (log entry 3). -/
def State.reset : State where
  cfg := Config.exCfg
  cmd := Request.atReset
  resultReg := Result.atReset
  responded := false
  phase := .idle
  stepNo := 0
  rmw := none
  trace := []
  cause := none
  target := Target.powerUp 0 0
  inputs := []
  turns := []
  received := none

end Sys2Proof.Machine
end

