-- ==== Sys2Proof/Machine/Ops.lean ====
section
/-! DEFINITION. The named operations: over memory (byte cells in canonical form), over the bus target (R24 to R27, R40,
R51), the environment's turn before a primitive (R39, R98, R100), the primitives `MemRead`, `MemWrite` and `Wait` (R11),
the request and response ports (R18, R19), and reset (R99, R100). The block takes no exception and returns from none (R87,
R91): reset is the one event that takes the machine out of a command. -/

namespace Sys2Proof.Machine

open Sys2Proof

/-! ### Cells and memory -/

/-- What is listed at a number, if anything. -/
def Cells.get? {α : Type} : Cells α → Nat → Option α
  | [], _ => none
  | (k, x) :: rest, a => if k = a then some x else Cells.get? rest a

/-- List `x` at a number, in its place. -/
def Cells.put {α : Type} : Cells α → Nat → α → Cells α
  | [], a, x => [(a, x)]
  | (k, y) :: rest, a, x =>
    if a < k then (a, x) :: (k, y) :: rest
    else if a = k then (a, x) :: rest
    else (k, y) :: Cells.put rest a x

/-- The canonical form: numbers strictly rising. An unlisted number holds no stated value (R32), so nothing listed can
equal it (log entries 6 and 10). -/
abbrev Cells.Rising {α : Type} (l : Cells α) : Prop := l.Pairwise (fun x y => x.1 < y.1)

/-- Memory is in canonical form, each address in the 32-bit address space (R33). -/
abbrev Memory.wf (m : Memory) : Prop := Cells.Rising m ∧ ∀ c ∈ m, c.1 < 2 ^ 32

/-- Store a whole word, least significant byte lowest. DESIGN CHOICE, safe: byte order is not observable (R35; log
entry 7). -/
def Memory.setWord (m : Memory) (a : Nat) (v : Word) : Memory :=
  Cells.put (Cells.put (Cells.put (Cells.put m a (v.extractLsb' 0 8)) (a + 1) (v.extractLsb' 8 8))
    (a + 2) (v.extractLsb' 16 8)) (a + 3) (v.extractLsb' 24 8)

/-! ### The bus target -/

/-- The byte a plain cell holds: what was last written, and before any write the unspecified contents of the power-up
(R32, R51 (a)). What an unlisted address reads as is said here and nowhere else. -/
def Target.byteAt (t : Target) (a : Nat) : Byte := (Cells.get? t.mem a).getD (Config.periphReset t.epoch a)

/-- The word a plain cell holds (R34, R38). -/
def Target.wordAt (t : Target) (a : Word) : Word :=
  t.byteAt (a.toNat + 3) ++ t.byteAt (a.toNat + 2) ++ t.byteAt (a.toNat + 1) ++ t.byteAt a.toNat

/-- Store a word in a plain cell. -/
def Target.putWord (a v : Word) (t : Target) : Target := { t with mem := Memory.setWord t.mem a.toNat v }

/-- The latches after the word `v` at a register of bank `n`: every valid pin of the bank whose field has its lowest bit 1
takes `x` (R24, R25, R27, R51). Bits of no valid pin drive nothing. At `BIT_WIDTH` 1 that bit is the pin's bit; at another
width which bit drives is the model's: DESIGN CHOICE, unsafe (log entry 26). -/
def latchPins {α : Type} (c : Config) (n : Nat) (v : Word) (x : α) (l : Cells α) : Cells α :=
  (List.range (pinsPerBank c)).foldl (fun l k =>
    if n * pinsPerBank c + k < c.numPins ∧ v.getLsbD (k * c.bitWidth.toNat) = true then
      Cells.put l (n * pinsPerBank c + k) x
    else l) l

/-- The word `v` at set register `n` drives the pins whose bits are 1 high (R24, R51 (b)). -/
def Target.setLevels (c : Config) (n : Nat) (v : Word) (t : Target) : Target :=
  { t with levels := latchPins c n v true t.levels }

/-- The word `v` at clear register `n` drives the pins whose bits are 1 low (R25, R51 (b)). -/
def Target.clearLevels (c : Config) (n : Nat) (v : Word) (t : Target) : Target :=
  { t with levels := latchPins c n v false t.levels }

/-- The pull mode `PUD` holds, `PUD[1:0]` (R26): its field 0. -/
def Target.pudMode (c : Config) (t : Target) : Word := fieldValue (t.wordAt c.pudAddr) 0 c.pudWidth.toNat

/-- The word `v` at clock-enable register `n`: the pins whose bits are 1 latch the mode `PUD` holds at that moment (R27,
R40, R51 (c)). DESIGN CHOICE of the spec's D32, unsafe: log entry 9. -/
def Target.latchPulls (c : Config) (n : Nat) (v : Word) (t : Target) : Target :=
  { t with pulls := latchPins c n v (t.pudMode c) t.pulls }

/-- Whether an address is a set or a clear register, which are write-only (R24, R25). -/
def writeOnly (c : Config) (a : Word) : Bool := (bankOf c c.setBase a).isSome || (bankOf c c.clrBase a).isSome

/-- The word the target answers a read with, from its own contents: a draw for a write-only register (R24, R25, R40), the
cell for every other address (R51). -/
def Target.read (c : Config) (a : Word) (t : Target) : Word × Target :=
  if writeOnly c a then (Config.readDraw t.draws, { t with draws := t.draws + 1 }) else (t.wordAt a, t)

/-- A write of a whole word at the target, with its side effects (R24, R25, R27, R40, R51). The order of the cases matters
only where register addresses coincide, under an ill-formed configuration: there set wins over clear, clear over
clock-enable. DESIGN CHOICE, unsafe: log entry 27. -/
def Target.write (c : Config) (a v : Word) (t : Target) : Target :=
  match bankOf c c.setBase a, bankOf c c.clrBase a, bankOf c c.pudclkBase a with
  | some n, _, _ => t.setLevels c n v
  | none, some n, _ => t.clearLevels c n v
  | none, none, some n => (t.putWord a v).latchPulls c n v
  | none, none, none => t.putWord a v

/-! ### Reset -/

/-- The bus target over a reset: the pin controller keeps its registers or takes the unspecified ones (R101). DESIGN CHOICE,
unsafe (log entry 12): they are kept or lost as a whole, and every other bus address, of which R101 says nothing, is kept
or lost with them. -/
def Target.reset (k : ResetKind) (t : Target) : Target :=
  match k with
  | .blockOnly => t
  | .withPinController => Target.powerUp (t.epoch + 1) t.draws

/-- A reset (R31, R99, R100): the block is IDLE with STEP 0, RESULT is not to be read and no latch holds a value; the events
already completed stay done on the pin controller; no trace event; requests at the port stay offered (log entries 12, 13). -/
def resetBlock (k : ResetKind) (s : State) : State :=
  { s with
    cmd := Request.atReset
    resultReg := Result.atReset
    responded := false
    phase := .idle
    stepNo := 0
    rmw := none
    cause := none
    target := s.target.reset k }

/-! ### How a command runs -/

/-- How far a command's pseudocode has run. -/
inductive Flow (α : Type) where
  /-- It goes on with `x` in state `s`. -/
  | go (x : α) (s : State)
  /-- A reset has abandoned the command (R100). -/
  | abandoned (s : State)
  /-- It is stuck at an access that is not admitted (R36, R88). -/
  | stuck (f : Fault)

/-- One line of pseudocode, then the lines after it (R12). -/
def Flow.andThen {α β : Type} (m : Flow α) (k : α → State → Flow β) : Flow β :=
  match m with
  | .go x s => k x s
  | .abandoned s => .abandoned s
  | .stuck f => .stuck f

/-- The outcome of a command whose pseudocode has run. -/
def Flow.outcome {α : Type} (m : Flow α) : Host.Outcome State Fault Refusal :=
  match m with
  | .go _ s => .next s
  | .abandoned s => .next s
  | .stuck f => .fault f

/-- A command's pseudocode run whole, under a well-formed configuration; under any other it has no meaning (R7, U9). -/
def command (body : State → Flow Unit) (s : State) : Host.Outcome State Fault Refusal :=
  if s.cfg.WellFormed then (body s).outcome else .refused .illFormedConfiguration

/-! ### The environment's turn and the primitives -/

/-- The turn the environment takes before the primitive `k` primitives from now; past the end of the list every turn is
quiet (log entry 2). -/
def turnAt (ts : List Turn) (k : Nat) : Turn := ts.getD k Turn.quiet

/-- A write by another master at the target (R39). The bus port admits aligned word accesses only (R36), so a misaligned
one reaches nothing (log entry 21). -/
def Target.foreignWrite (c : Config) (t : Target) (w : BusWrite) : Target :=
  if Aligned w.addr then t.write c w.addr w.data else t

/-- The writes of other masters, in their order (R39). -/
def Target.foreignWrites (c : Config) (ws : List BusWrite) (t : Target) : Target := ws.foldl (Target.foreignWrite c) t

/-- The environment's turn before a primitive (R39, R98): its writes, then a reset, which abandons the command (R100), or
the primitive, which is given the turn. -/
def interlude (s : State) : Flow Turn :=
  let t := turnAt s.turns 0
  let s' := { s with turns := s.turns.tail, target := s.target.foreignWrites s.cfg t.writes }
  match t.reset with
  | some k => .abandoned (resetBlock k s')
  | none => .go t s'

/-- The state with the bus target as it now is. -/
def State.withTarget (t : Target) (s : State) : State := { s with target := t }

/-- The state with the latches `ADDR`, `SHIFT`, `MASK`, `RDATA` loaded, or holding no value (R20). -/
def State.withLatches (l : Option Latches) (s : State) : State := { s with rmw := l }

/-- A completed event: it is the next of the trace (R13) and STEP counts it (R19). -/
def State.completed (e : Event) (s : State) : State := { s with stepNo := s.stepNo + 1, trace := s.trace ++ [e] }

/-- Whether the bus port admits the access at `a` in turn `t` (R36, R88). -/
abbrev Admits (t : Turn) (a : Word) : Prop := Aligned a ∧ t.admitted = true

/-- The answer to a read, and the target after it: the word the environment gives, any word (R51), or what the target
holds. -/
def answerRead (c : Config) (t : Turn) (a : Word) (tg : Target) : Word × Target :=
  match t.answer with
  | some w => (w, tg)
  | none => tg.read c a

/-- `MemRead(addr, 4)` (R11, R36, R51, R88). -/
def memRead (a : Word) (s : State) : Flow Word :=
  (interlude s).andThen fun t s =>
  if Admits t a then
    let r := answerRead s.cfg t a s.target
    .go r.1 ((s.withTarget r.2).completed (.rd a r.1))
  else .stuck (.busAccessStuck a s)

/-- `MemWrite(addr, 4, v)` (R11, R36, R40, R88). -/
def memWrite (a v : Word) (s : State) : Flow Unit :=
  (interlude s).andThen fun t s =>
  if Admits t a then .go () ((s.withTarget (s.target.write s.cfg a v)).completed (.wr a v))
  else .stuck (.busAccessStuck a s)

/-- `Wait(n)` (R11, R79): it returns (R110; log entry 15). -/
def wait (n : Nat) (s : State) : Flow Unit :=
  (interlude s).andThen fun _ s => .go () (s.completed (.wt n))

/-! ### The ports -/

/-- The request port accepts a request (R19): all six command registers are loaded, STEP is 0, PHASE is BUSY, and the new
command's trace is empty (R13). -/
def accept (r : Request) (s : State) : State := { s with cmd := r, stepNo := 0, phase := .busy, trace := [] }

/-- What `RESULT` holds for a reader: from reset until the first command completes, no value (R18, R31). -/
def State.result (s : State) : Option Result := if s.responded then some s.resultReg else none

/-- The requester reads `RESULT` on the response port. It is no command. From reset until the first command completes "a
model faults a read of it": the spec's own words (R18; D25, U3). -/
def readResult (s : State) : Host.Outcome State Fault Refusal :=
  match s.result with
  | some r => .next { s with received := some r }
  | none => .fault .resultReadBeforeFirstResponse

/-- A turn of the environment while the block is IDLE (R39, R99). It is no command, so under an ill-formed configuration too
its writes reach the target, as `Target.write` says. DESIGN CHOICE, unsafe: log entry 27. -/
def idleTurn (t : Turn) (s : State) : State :=
  let s' := { s with target := s.target.foreignWrites s.cfg t.writes }
  match t.reset with
  | some k => resetBlock k s'
  | none => s'

/-- What becomes of a BUSY state between steps. A step runs a command whole, so such a state is a stuck command: it has no
step of its own (R36, R88), and only a reset ends it (R85, R100): log entry 14; under an ill-formed configuration too: log
entry 27. -/
def stuckTurn (s : State) : Host.Outcome State Fault Refusal :=
  match interlude s with
  | .abandoned s' => .next s'
  | .go _ _ => .fault .blockStuck
  | .stuck f => .fault f

end Sys2Proof.Machine
end

