-- ==== Sys2Proof/Machine/Flags.lean ====
section
/-! DEFINITION. The block has no flags, condition codes or predicates but `RESULT` (R21). Here is the one operation that
writes it, `respond` (R11, R18), with the cause a model may keep beside it (R87, R89). -/

namespace Sys2Proof.Machine

open Sys2Proof

/-- What `respond` writes to `RESULT` (R18). -/
def Verdict.result : Verdict → Result
  | .success => .success
  | .rejected _ => .rejected

/-- The cause a verdict carries (R87). -/
def Verdict.cause : Verdict → Option RejectCause
  | .success => none
  | .rejected c => some c

/-- The encoding of `RESULT` (R18, D11). -/
def Result.code : Result → Nat
  | .success => 0
  | .rejected => 1

/-- The cause codes of R87. -/
def RejectCause.code : RejectCause → Nat
  | .opcode => 1
  | .width => 2
  | .index => 3
  | .value => 4

/-- The state after a response (R18, R19, R91): RESULT takes the verdict and the block is IDLE. -/
def State.answered (v : Verdict) (s : State) : State :=
  { s with resultReg := v.result, responded := true, cause := v.cause, phase := .idle }

/-- `respond(r)` (R11). It is no event (conflict C7). The environment has its turn before it too, so that a
reset can still abandon the command (R100; log entry 1). -/
def respond (v : Verdict) (s : State) : Flow Unit :=
  (interlude s).andThen fun _ s => .go () (s.answered v)

end Sys2Proof.Machine
end

