-- ==== Sys2Proof/Machine/FieldAccessor.lean ====
section
/-! DEFINITION. The Register Field Accessor (40_field_accessor.md): the read-modify-write, `FieldWrite`, `FselWrite` and
the bit-field specialisations; the command `WRITE_FIELD`; and the answer to a reserved opcode (R56). -/

namespace Sys2Proof.Machine

open Sys2Proof

/-- `RMW(a, s, m, v)` (R65): latches loaded, one read, one write of the whole word; the latches hold no value after it
(R20). -/
def readModifyWrite (a : Word) (sh : Nat) (m v : Word) (s : State) : Flow Unit :=
  (memRead a (s.withLatches (some ⟨a, BitVec.ofNat 5 sh, m, none⟩))).andThen fun d s =>
  (memWrite a (insertField d sh m v) (s.withLatches (some ⟨a, BitVec.ofNat 5 sh, m, some d⟩))).andThen fun _ s =>
  .go () (s.withLatches none)

/-- `FieldWrite(i, v, b, w, max)` (R66), its checks in the order of R89. -/
def fieldWrite (i v b w max : Word) (s : State) : Flow Verdict :=
  if ¬ ValidWidth w.toNat then .go (.rejected .width) s
  else if i.toNat > max.toNat then .go (.rejected .index) s
  else if v.toNat > fieldMask w.toNat then .go (.rejected .value) s
  else
    (readModifyWrite (regAddr b i.toNat w.toNat) (fieldShift i.toNat w.toNat) (maskWord w.toNat) v s).andThen fun _ s =>
    .go .success s

/-- `FselWrite(p, f)` (R71). -/
def fselWrite (p f : Word) (s : State) : Flow Verdict :=
  if p.toNat > s.cfg.maxPin.toNat then .go (.rejected .index) s
  else if f.toNat > fieldMask s.cfg.fselWidth then .go (.rejected .value) s
  else
    (readModifyWrite (fselAddr s.cfg p.toNat) (fselShift s.cfg p.toNat) (fselMask s.cfg) f s).andThen fun _ s =>
    .go .success s

/-- `SetWrite(p)` (R73). -/
def setWrite (p : Word) (s : State) : Flow Verdict := fieldWrite p 1 s.cfg.setBase s.cfg.bitWidth s.cfg.maxPin s

/-- `ClrWrite(p)` (R73). -/
def clrWrite (p : Word) (s : State) : Flow Verdict := fieldWrite p 1 s.cfg.clrBase s.cfg.bitWidth s.cfg.maxPin s

/-- `PudWrite(m)` (R73). -/
def pudWrite (m : Word) (s : State) : Flow Verdict := fieldWrite 0 m s.cfg.pudAddr s.cfg.pudWidth 0 s

/-- `PudClkWrite(p, v)` (R73). -/
def pudClkWrite (p v : Word) (s : State) : Flow Verdict :=
  fieldWrite p v s.cfg.pudclkBase s.cfg.bitWidth s.cfg.maxPin s

/-- `WRITE_FIELD` (R67). -/
def execWriteField (i v b w max : Word) (s : State) : Host.Outcome State Fault Refusal :=
  command (fun s => (fieldWrite i v b w max s).andThen respond) s

/-- A request with a reserved opcode: `respond(REJECTED)` with no event, no other field read (R56). -/
def rejectReserved (s : State) : Host.Outcome State Fault Refusal := command (respond (.rejected .opcode)) s

end Sys2Proof.Machine
end

