-- ==== Sys2Proof/Machine/PinMux.lean ====
section
/-! DEFINITION. The Pin Configuration Multiplexer (41_pin_mux.md): `SET_FUNCTION`, `DRIVE` and `SET_PULL`. -/

namespace Sys2Proof.Machine

open Sys2Proof

/-- `SET_FUNCTION` (R76). -/
def execSetFunction (p f : Word) (s : State) : Host.Outcome State Fault Refusal :=
  command (fun s => (fselWrite p f s).andThen respond) s

/-- `DRIVE` (R77, R78): any level but 0 sets, 0 clears; the pin's function is not checked (R86). -/
def execDrive (p l : Word) (s : State) : Host.Outcome State Fault Refusal :=
  command (fun s => ((if l ≠ 0 then setWrite p s else clrWrite p s)).andThen respond) s

/-- The value step 1 of `SET_PULL` writes (R82). -/
def pullStep1Value (c : Config) (m : Word) : Word :=
  match c.pullStep1 with
  | .requestedMode => m
  | .literalNone => 0

/-- The clock-enable register of a pin, `ca` of R81. -/
def pudclkAddr (c : Config) (p : Nat) : Word := regAddr c.pudclkBase p c.bitWidth.toNat

/-- Steps 5 and 6 of `SET_PULL` (R83). -/
def clearPull (p : Word) (s : State) : Flow Unit :=
  match s.cfg.pullClear with
  | .wordWrite =>
    (memWrite s.cfg.pudAddr 0 s).andThen fun _ s =>
    memWrite (pudclkAddr s.cfg p.toNat) 0 s
  | .fieldRmw =>
    (pudWrite 0 s).andThen fun _ s =>
    (pudClkWrite p 0 s).andThen fun _ s => .go () s

/-- The six steps of `SET_PULL` (R81), after its check. -/
def pullSequence (p m : Word) (s : State) : Flow Unit :=
  (pudWrite (pullStep1Value s.cfg m) s).andThen fun _ s =>
  (wait s.cfg.pullSettle s).andThen fun _ s =>
  (pudClkWrite p 1 s).andThen fun _ s =>
  (wait s.cfg.pullSettle s).andThen fun _ s =>
  clearPull p s

/-- `SET_PULL` (R80, R81): both operands are checked before any event. -/
def execSetPull (p m : Word) (s : State) : Host.Outcome State Fault Refusal :=
  command (fun s =>
    if p.toNat > s.cfg.maxPin.toNat then respond (.rejected .index) s
    else if m.toNat > fieldMask s.cfg.pudWidth.toNat then respond (.rejected .value) s
    else (pullSequence p m s).andThen fun _ s => respond .success s) s

end Sys2Proof.Machine
end

