-- ==== Sys2Proof/Machine/Dispatch.lean ====
section
/-! DEFINITION. The one dispatch: each command of the opcode table to its meaning. -/

namespace Sys2Proof.Machine

open Sys2Proof

def exec (i : Instr) (s : State) : Host.Outcome State Fault Refusal :=
  match i with
  | .writeField index value base width maxIdx => Sys2Proof.Machine.execWriteField index value base width maxIdx s
  | .setFunction pin function => Sys2Proof.Machine.execSetFunction pin function s
  | .drive pin level => Sys2Proof.Machine.execDrive pin level s
  | .setPull pin mode => Sys2Proof.Machine.execSetPull pin mode s

end Sys2Proof.Machine
end

