-- ==== Sys2Proof/Machine/Step.lean ====
section
/-! DEFINITION. One step of the machine: an IDLE block takes the oldest thing at its ports, and a request runs whole, from
its acceptance to its response (R12, R19, R46); with nothing there it waits (R97, R101). -/

namespace Sys2Proof.Machine

open Sys2Proof

/-- An accepted request runs: one of the four commands, or a reserved opcode, which is answered REJECTED (R56, R57). -/
def runRequest (r : Req) (s : State) : Host.Outcome State Fault Refusal :=
  match decode r with
  | .ok i => exec i (accept (decodeRequest r) s)
  | .error (.reservedOpcode _) => rejectReserved (accept (decodeRequest r) s)

/-- One step. -/
def step (s : State) : Host.Outcome State Fault Refusal :=
  match s.phase, s.inputs with
  | .busy, _ => stuckTurn s
  | .idle, [] => .next s
  | .idle, .request r :: rest => runRequest r { s with inputs := rest }
  | .idle, .readResult :: rest => readResult { s with inputs := rest }
  | .idle, .environment t :: rest => .next (idleTurn t { s with inputs := rest })

/-- `s` with the request whose bits are `w` (as the opcode table numbers them) next at the port of an IDLE block, so that
the next step accepts and runs it (log entry 20). -/
def State.withFetchWord (s : State) (nbits w : Nat) : State :=
  { s with phase := .idle, inputs := .request (tableReq nbits w) :: s.inputs }

end Sys2Proof.Machine
end

