-- ==== Sys2Proof/Machine/Assembler.lean ====
section
/-! DEFINITION. The assembler of rules R59 to R61: pseudo-commands and their expansions, literals, the textual syntax, and
the requests a program offers. What rule R59 leaves open of the text (blanks, hexadecimal letters) is log entry 23. -/

namespace Sys2Proof.Machine

open Sys2Proof

/-- A pseudo-command's expansion (R60); a command is its own. -/
def expandLine : AsmLine → AsmLine
  | .writeField i v b w m => .writeField i v b w m
  | .setFunction p f => .setFunction p f
  | .drive p l => .drive p l
  | .setPull p m => .setPull p m
  | .driveHigh p => .drive p 1
  | .driveLow p => .drive p 0
  | .pullNone p => .setPull p 0
  | .pullDown p => .setPull p 1
  | .pullUp p => .setPull p 2
  | .setInput p => .setFunction p 0
  | .setOutput p => .setFunction p 1
  | .writeBit i v b m => .writeField i v b 1 m

/-- The command of an expanded line whose literals are in range. -/
def commandOf (l : AsmLine) : Option Instr :=
  match expandLine l with
  | .writeField i v b w m =>
    some (.writeField (BitVec.ofNat 32 i) (BitVec.ofNat 32 v) (BitVec.ofNat 32 b) (BitVec.ofNat 32 w) (BitVec.ofNat 32 m))
  | .setFunction p f => some (.setFunction (BitVec.ofNat 32 p) (BitVec.ofNat 32 f))
  | .drive p l => some (.drive (BitVec.ofNat 32 p) (BitVec.ofNat 32 l))
  | .setPull p m => some (.setPull (BitVec.ofNat 32 p) (BitVec.ofNat 32 m))
  | _ => none

/-- Assemble a line: a literal out of range is refused, never truncated (R61). -/
def assemble (l : AsmLine) : Option Instr := if l.WellFormed then commandOf l else none

/-- Why a text does not assemble. -/
inductive AsmError where
  | badLiteral
  | unknownLine
  | literalOutOfRange
  deriving DecidableEq, Repr

/-- A decimal digit's value. -/
def decimalDigit (c : Char) : Option Nat :=
  if '0'.toNat ≤ c.toNat ∧ c.toNat ≤ '9'.toNat then some (c.toNat - '0'.toNat) else none

/-- A hexadecimal digit's value. -/
def hexDigit (c : Char) : Option Nat :=
  if 'a'.toNat ≤ c.toNat ∧ c.toNat ≤ 'f'.toNat then some (c.toNat - 'a'.toNat + 10)
  else if 'A'.toNat ≤ c.toNat ∧ c.toNat ≤ 'F'.toNat then some (c.toNat - 'A'.toNat + 10)
  else decimalDigit c

/-- The number a row of digits writes in a base, after what stands before them. -/
def digits (base : Nat) (digit : Char → Option Nat) : Nat → List Char → Option Nat
  | n, [] => some n
  | n, c :: cs =>
    match digit c with
    | some d => digits base digit (n * base + d) cs
    | none => none

/-- A literal: decimal, or hexadecimal with `0x` (R61). -/
def literal : List Char → Option Nat
  | [] => none
  | '0' :: 'x' :: [] => none
  | '0' :: 'x' :: cs => digits 16 hexDigit 0 cs
  | cs => digits 10 decimalDigit 0 cs

/-- Whether a character is a blank. -/
def isBlank (c : Char) : Bool := c = ' ' || c = '\t'

/-- A text without the blanks at its two ends. -/
def trimBlanks (cs : List Char) : List Char := ((cs.dropWhile isBlank).reverse.dropWhile isBlank).reverse

/-- The pieces of a text between the separators. -/
def splitAt (sep : Char) : List Char → List (List Char)
  | [] => [[]]
  | c :: cs =>
    match splitAt sep cs with
    | [] => [[c]]
    | w :: ws => if c = sep then [] :: w :: ws else (c :: w) :: ws

/-- A list of literals, if each piece is one. -/
def literalsOf : List (List Char) → Option (List Nat)
  | [] => some []
  | p :: ps =>
    match literal (trimBlanks p), literalsOf ps with
    | some n, some ns => some (n :: ns)
    | _, _ => none

/-- The line of a mnemonic and its operands (R59, R60). -/
def lineOf (mnemonic : String) (ops : List Nat) : Option AsmLine :=
  match mnemonic, ops with
  | "write_field", [i, v, b, w, m] => some (.writeField i v b w m)
  | "set_function", [p, f] => some (.setFunction p f)
  | "drive", [p, l] => some (.drive p l)
  | "set_pull", [p, m] => some (.setPull p m)
  | "drive_high", [p] => some (.driveHigh p)
  | "drive_low", [p] => some (.driveLow p)
  | "pull_none", [p] => some (.pullNone p)
  | "pull_down", [p] => some (.pullDown p)
  | "pull_up", [p] => some (.pullUp p)
  | "set_input", [p] => some (.setInput p)
  | "set_output", [p] => some (.setOutput p)
  | "write_bit", [i, v, b, m] => some (.writeBit i v b m)
  | _, _ => none

/-- One line of text: nothing (blank, or a comment alone), or a line of assembly (R59). -/
def parseLine (text : List Char) : Except AsmError (Option AsmLine) :=
  let body := trimBlanks (text.takeWhile (· ≠ ';'))
  if body.isEmpty then .ok none
  else
    match literalsOf (splitAt ',' (body.dropWhile fun c => !isBlank c)) with
    | none => .error .badLiteral
    | some ops =>
      match lineOf (String.ofList (body.takeWhile fun c => !isBlank c)) ops with
      | none => .error .unknownLine
      | some l => .ok (some l)

/-- The commands of lines of text, top to bottom (R59). -/
def assembleLines : List (List Char) → Except AsmError (List Instr)
  | [] => .ok []
  | l :: ls =>
    match parseLine l, assembleLines ls with
    | .ok none, r => r
    | .ok (some a), .ok is =>
      match assemble a with
      | some i => .ok (i :: is)
      | none => .error .literalOutOfRange
    | .ok (some _), .error e => .error e
    | .error e, _ => .error e

/-- The commands of a program's text (R59). -/
def assembleText (text : String) : Except AsmError (List Instr) := assembleLines (splitAt '\n' text.toList)

/-- What a program offers at the request port, one command after another (R46, R59). -/
def offered (is : List Instr) : List Input := is.map fun i => .request (encode i)

end Sys2Proof.Machine
end

