-- ==== Sys2Proof/Machine/Pins.lean ====
section
/-! DEFINITION. The state of a pin as the spec derives it from the registers (R30), and the meanings of the pull codes
(R29). Observations only: the block reads none of them. -/

namespace Sys2Proof.Machine

open Sys2Proof

/-- A pin's function code, `FSEL[p / 10][3(p mod 10)+2 : 3(p mod 10)]` (R30). -/
def pinFunction (c : Config) (t : Target) (p : Nat) : Word :=
  fieldValue (t.wordAt (fselAddr c p)) (fselShift c p) c.fselWidth

/-- A pin's output level, true for high (R24, R25, R30). -/
def pinLevel (t : Target) (p : Nat) : Bool := (Cells.get? t.levels p).getD (Config.levelReset t.epoch p)

/-- A pin's pull code, as its latch holds it (R30). -/
def pinPull (c : Config) (t : Target) (p : Nat) : Word :=
  (Cells.get? t.pulls p).getD (Config.pullReset t.epoch p &&& maskWord c.pudWidth.toNat)

/-- The pull mode of a code (R29); what another code does to the pin is a free value (R29, U4; log entry 11). -/
def pullModeOf (code : Word) : PullMode :=
  match code.toNat with
  | 0 => .none
  | 1 => .pullDown
  | 2 => .pullUp
  | _ => Config.pullOther code

end Sys2Proof.Machine
end

