-- ==== Sys2Proof/Safety.lean ====
section
/-! DEFINITION. The terms statements use: the premises on the environment that R98 and R102 leave to a claim, what a
command never writes, the invariant every step keeps, and outcomes compared without the command registers. -/

namespace Sys2Proof.Machine

open Sys2Proof

/-- No reset comes in any of the next `n` turns. -/
abbrev State.NoReset (s : State) (n : Nat) : Prop := ∀ k, k < n → (turnAt s.turns k).reset = none

/-- In the next `n` turns no reset comes and the bus admits aligned accesses (R98); other masters may write and reads may
be answered with any word. -/
abbrev State.Undisturbed (s : State) (n : Nat) : Prop :=
  ∀ k, k < n → (turnAt s.turns k).reset = none ∧ (turnAt s.turns k).admitted = true

/-- In the next `n` turns no reset comes and no other master writes (R98, R102). -/
abbrev State.Sole (s : State) (n : Nat) : Prop :=
  ∀ k, k < n → (turnAt s.turns k).reset = none ∧ (turnAt s.turns k).writes = []

/-- In the next `n` turns a read is answered with what the target holds (the usual premise of R51). -/
abbrev State.AnsweredByTarget (s : State) (n : Nat) : Prop := ∀ k, k < n → (turnAt s.turns k).answer = none

/-- The word a read of `a` gives that is the next event: the other masters' writes of the turn come first (R39), then the
answer of the turn or of the target (R51). -/
def State.nextAnswer (s : State) (a : Word) : Word :=
  (answerRead s.cfg (turnAt s.turns 0) a (s.target.foreignWrites s.cfg (turnAt s.turns 0).writes)).1

/-- What no command writes: the parameters, the command registers (R17), the ports, and the power-up in force. -/
abbrev SameSetting (s t : State) : Prop :=
  t.cfg = s.cfg ∧ t.cmd = s.cmd ∧ t.inputs = s.inputs ∧ t.received = s.received ∧ t.target.epoch = s.target.epoch

/-- A command has responded: what RESULT, its cause, PHASE and the latches then hold (R18, R19, R20, R87). -/
abbrev Responded (v : Verdict) (t : State) : Prop :=
  t.result = some v.result ∧ t.cause = v.cause ∧ t.phase = .idle

/-- A byte address outside the word at `a`. -/
abbrev OutsideWord (a : Word) (x : Nat) : Prop := x < a.toNat ∨ a.toNat + 4 ≤ x

/-- The address of an event that is a bus access. -/
def Event.addr? : Event → Option Word
  | .rd a _ => some a
  | .wr a _ => some a
  | .wt _ => none

/-- What an event is, its address and data aside (R84). -/
inductive EventKind where
  | rd
  | wr
  | wt
  deriving DecidableEq, Repr

/-- The kind of an event. -/
def Event.kind : Event → EventKind
  | .rd _ _ => .rd
  | .wr _ _ => .wr
  | .wt _ => .wt

/-- The events of a command that succeeds, by kind (R84). -/
def commandKinds (c : Config) : Instr → List EventKind
  | .writeField _ _ _ _ _ => [.rd, .wr]
  | .setFunction _ _ => [.rd, .wr]
  | .drive _ _ => [.rd, .wr]
  | .setPull _ _ =>
    match c.pullClear with
    | .wordWrite => [.rd, .wr, .wt, .rd, .wr, .wt, .wr, .wr]
    | .fieldRmw => [.rd, .wr, .wt, .rd, .wr, .wt, .rd, .wr, .rd, .wr]

/-- The value step 1 of `SET_PULL` writes, as R82 says it. -/
def step1Mode (c : Config) (m : Word) : Word := if c.pullStep1 = .requestedMode then m else 0

/-- The invariant of the machine between steps. -/
structure State.Inv (s : State) : Prop where
  /-- Memory is in canonical form. -/
  memory : Memory.wf s.target.mem
  /-- Memory is written in whole words (R34, R38): a byte is listed exactly when the lowest byte of its word is. -/
  wholeWords : ∀ a, (Cells.get? s.target.mem a).isSome = (Cells.get? s.target.mem (4 * (a / 4))).isSome
  /-- The level latches are in canonical form, and of valid pins alone (R24, R25). -/
  levels : Cells.Rising s.target.levels ∧ ∀ x ∈ s.target.levels, x.1 < s.cfg.numPins
  /-- The pull latches are in canonical form, of valid pins alone, and hold modes of `PUD_WIDTH` bits (R27, R30). -/
  pulls : Cells.Rising s.target.pulls ∧
    ∀ x ∈ s.target.pulls, x.1 < s.cfg.numPins ∧ x.2.toNat ≤ fieldMask s.cfg.pudWidth.toNat
  /-- A step runs a command whole, so the block is IDLE between steps (R12, R19). -/
  idle : s.phase = .idle
  /-- The latches hold no value outside a read-modify-write (R20). -/
  latches : s.rmw = none
  /-- STEP is 0 or counts the trace (R19). -/
  steps : s.stepNo = 0 ∨ s.stepNo = s.trace.length
  /-- No command has more than ten events (R84). -/
  events : s.trace.length ≤ 10
  /-- A rejected command has an empty trace (R89). -/
  rejected : s.result = some .rejected → s.trace = []
  /-- A command that succeeds has events (R84). -/
  success : s.result = some .success → s.trace ≠ []
  /-- A cause is kept exactly for a rejection (R87). -/
  caused : s.cause.isSome = true ↔ s.result = some .rejected

/-- A state with its command registers put out of sight. -/
def State.hideCmd (s : State) : State := { s with cmd := Request.atReset }

/-- A fault with the command registers of the stuck state put out of sight. -/
def Fault.hideCmd : Fault → Fault
  | .busAccessStuck a s => .busAccessStuck a s.hideCmd
  | .blockStuck => .blockStuck
  | .resultReadBeforeFirstResponse => .resultReadBeforeFirstResponse

/-- An outcome with the command registers put out of sight. -/
def hideCmd : Host.Outcome State Fault Refusal → Host.Outcome State Fault Refusal
  | .next s => .next s.hideCmd
  | .fault f => .fault f.hideCmd
  | .refused r => .refused r

end Sys2Proof.Machine
end

