-- ==== Sys2Proof/Certificates/Slice0/Obligations.lean ====
section
/-! DEFINITION. The statements for the provers: what the numbered rules of the spec say the block does. In every statement
`s` is any state, reachable or not, and the environment's turns in it are any: a premise on them is one R98, R102 or R51
leaves to a claim, by name (`Undisturbed`, `Sole`, `AnsweredByTarget`, `NoReset`). -/

open Sys2Proof Sys2Proof.Machine

/-! ### Encoding (30_encoding.md) -/

/-- The packed requests of 95_test_vectors.md (V-E1, V-E2, and lines of P1, P2, P3) decode to their commands. -/
def Obligations.WordsOfTheSpecDecode : Prop :=
  decode 0x00000035000000020000100000000002000000110 = .ok (.writeField 17 2 0x1000 2 53) ∧
  decode 0x000000000000000000000000000000010000000B1 = .ok (.setFunction 11 1) ∧
  decode 0x00000000000000000000000000000001000000102 = .ok (.drive 16 1) ∧
  decode 0x000000000000000000000000000000020000000F3 = .ok (.setPull 15 2) ∧
  decode 0x00000000000000000000000000000000000000007 = .error (.reservedOpcode 7)

/-- No bit of an encoding is dropped: every command, with every operand at every value, decodes from its encoding. -/
def Obligations.DecodeOfEncodeIsTheCommand : Prop := ∀ i : Instr, decode (encode i) = .ok i

/-- R58: the fields stand at the positions of R53, `encode` is the inverse of `decode` on six-tuples, and the decoder
accepts a command whatever its operands are. -/
def Obligations.RequestFieldsStandInTheirPlaces : Prop :=
  (∀ r : Req, (decodeRequest r).op.toNat = r.toNat % 2 ^ 4 ∧
    (decodeRequest r).index.toNat = r.toNat / 2 ^ 4 % 2 ^ 32 ∧
    (decodeRequest r).value.toNat = r.toNat / 2 ^ 36 % 2 ^ 32 ∧
    (decodeRequest r).base.toNat = r.toNat / 2 ^ 68 % 2 ^ 32 ∧
    (decodeRequest r).width.toNat = r.toNat / 2 ^ 100 % 2 ^ 32 ∧
    (decodeRequest r).maxIdx.toNat = r.toNat / 2 ^ 132 % 2 ^ 32) ∧
  (∀ q : Request, decodeRequest (encodeRequest q) = q) ∧
  (∀ r : Req, encodeRequest (decodeRequest r) = r) ∧
  (∀ q : Request, q.op.toNat < 4 → ∃ i, decode (encodeRequest q) = .ok i)

/-- R55: the opcode map. -/
def Obligations.OpcodeSelectsTheCommand : Prop :=
  ∀ r : Req, ∀ q, q = decodeRequest r →
    (q.op = 0b0000 → decode r = .ok (.writeField q.index q.value q.base q.width q.maxIdx)) ∧
    (q.op = 0b0001 → decode r = .ok (.setFunction q.index q.value)) ∧
    (q.op = 0b0010 → decode r = .ok (.drive q.index q.value)) ∧
    (q.op = 0b0011 → decode r = .ok (.setPull q.index q.value)) ∧
    (0b0100 ≤ q.op → decode r = .error (.reservedOpcode q.op))

/-- R54: a pin command's ignored fields may hold any value. Two requests that agree on OP, INDEX and VALUE run alike in
every state; the command registers, which hold the whole request, are put out of sight. -/
def Obligations.IgnoredFieldsDoNotMatter : Prop :=
  ∀ (s : State) (q q' : Request), (q.op = 1 ∨ q.op = 2 ∨ q.op = 3) → q'.op = q.op → q'.index = q.index →
    q'.value = q.value → hideCmd (runRequest (encodeRequest q) s) = hideCmd (runRequest (encodeRequest q') s)

/-! ### The step, the ports and reset (10_state.md, 20_memory.md, 70_reset_and_hazards.md) -/

/-- When the oldest request at an IDLE block's port decodes to a command, the step is that command run in the state in
which the port has accepted the request: all six command registers loaded, STEP 0, PHASE BUSY, an empty trace, the request
gone from the port, and nothing else changed (R19). One step for one command is the model's choice: log entry 1. -/
def Obligations.StepRunsTheDecodedCommand : Prop :=
  (∀ (s : State) (r : Req) (rest : List Input) (i : Instr), s.phase = .idle → s.inputs = .request r :: rest →
    decode r = .ok i → step s = exec i (accept (decodeRequest r) { s with inputs := rest })) ∧
  ∀ (q : Request) (s : State), accept q s = { s with cmd := q, stepNo := 0, phase := .busy, trace := [] }

/-- The request the host places is the next to run. That it goes ahead of what already waits and makes a BUSY block IDLE is
`withFetchWord`'s, no rule of the block's: the model's choice, log entry 20. -/
def Obligations.OfferedRequestRunsNext : Prop :=
  ∀ (s : State) (nbits w : Nat) (i : Instr), decodeTableWord nbits w = some i →
    step (s.withFetchWord nbits w) = exec i (accept (decodeRequest (tableReq nbits w)) { s with phase := .idle })

/-- R56: a reserved opcode is rejected, with no event and nothing touched but by the environment. -/
def Obligations.ReservedOpcodesAreRejected : Prop :=
  ∀ (s : State) (r : Req) (rest : List Input), s.phase = .idle → s.inputs = .request r :: rest →
    4 ≤ (decodeRequest r).op.toNat → s.cfg.WellFormed → s.NoReset 1 →
    ∃ t, step s = .next t ∧ Responded (.rejected .opcode) t ∧ t.trace = [] ∧ t.stepNo = 0 ∧ t.inputs = rest ∧
      t.cmd = decodeRequest r ∧ t.rmw = s.rmw ∧
      t.target = s.target.foreignWrites s.cfg (turnAt s.turns 0).writes

/-- With nothing at its ports an IDLE block waits (R97, R101). -/
def Obligations.IdleBlockWaits : Prop := ∀ s : State, s.phase = .idle → s.inputs = [] → step s = .next s

/-- A turn of the environment between commands: the other masters' writes, then a reset if it brings one (R39, R99). Such
turns as inputs are log entry 2; what a reset leaves where the spec is silent, log entries 4, 12, 13, 22. -/
def Obligations.IdleBlockTakesTheEnvironmentsTurn : Prop :=
  ∀ (s : State) (u : Turn) (rest : List Input), s.phase = .idle → s.inputs = .environment u :: rest →
    (u.reset = none → step s = .next { s with
      inputs := rest, target := s.target.foreignWrites s.cfg u.writes }) ∧
    ∀ k, u.reset = some k → step s = .next (resetBlock k { s with
      inputs := rest, target := s.target.foreignWrites s.cfg u.writes })

/-- R18: the response port gives what RESULT holds, SUCCESS being 0 and REJECTED 1, and a read before it holds a value
faults; a reset opens that window and a response closes it (log entries 5, 16). -/
def Obligations.ResultIsReadAtTheResponsePort : Prop :=
  Result.success.code = 0 ∧ Result.rejected.code = 1 ∧
  State.reset.result = none ∧ (∀ (k : ResetKind) (s : State), (resetBlock k s).result = none) ∧
  (∀ (v : Verdict) (s : State), (s.answered v).result = some v.result) ∧
  ∀ (s : State) (rest : List Input), s.phase = .idle → s.inputs = .readResult :: rest →
    (∀ r, s.result = some r → step s = .next { s with inputs := rest, received := some r }) ∧
    (s.result = none → step s = .fault .resultReadBeforeFirstResponse)

/-- What reset leaves in the block (R31, R99); the contents of the bus target are the free values of power-up 0 (R32; log
entries 6, 10, 12). The model's choices: nothing offered or scheduled (log entry 2), a pull latch of two bits by the
configuration at reset (3), RESULT's content (4), the empty trace (13), no cause (22). -/
def Obligations.ResetLeavesTheBlockIdle : Prop :=
  State.reset.phase = .idle ∧ State.reset.stepNo = 0 ∧ State.reset.result = none ∧ State.reset.rmw = none ∧
  State.reset.trace = [] ∧ State.reset.cause = none ∧ State.reset.inputs = [] ∧ State.reset.turns = [] ∧
  (∀ a, State.reset.target.byteAt a = Config.periphReset 0 a) ∧
  ∀ p, pinLevel State.reset.target p = Config.levelReset 0 p ∧
    pinPull State.reset.cfg State.reset.target p = Config.pullReset 0 p &&& 3

/-- A reset in the turn before a command's first event abandons it: the block is as at reset, the pin controller as the
other masters and the reset leave it, the trace and the port untouched; and so for a block that is stuck (R99, R100). The
model's choices in it: the command registers and RESULT 0, which the spec gives no value (log entry 4), the two kinds of
reset (12), the trace and the port kept (13), no cause kept (22), a turn before each primitive (1). -/
def Obligations.ResetAbandonsTheCommand : Prop :=
  (∀ (i : Instr) (s : State) (k : ResetKind), s.cfg.WellFormed → (turnAt s.turns 0).reset = some k →
    exec i s = .next { s with
      cmd := Request.atReset, resultReg := Result.atReset, responded := false, phase := .idle, stepNo := 0, rmw := none,
      cause := none, turns := s.turns.tail,
      target := (s.target.foreignWrites s.cfg (turnAt s.turns 0).writes).reset k }) ∧
  ∀ (s : State) (k : ResetKind), s.phase = .busy → (turnAt s.turns 0).reset = some k →
    step s = .next { s with
      cmd := Request.atReset, resultReg := Result.atReset, responded := false, phase := .idle, stepNo := 0, rmw := none,
      cause := none, turns := s.turns.tail,
      target := (s.target.foreignWrites s.cfg (turnAt s.turns 0).writes).reset k }

/-- A SET_PULL cut by a reset of the block after step 3 leaves the mode in PUD[1:0] and the pin's clock-enable bit
asserted, and RESULT not written (R100), the block IDLE with STEP 0 and no RESULT to be read (R99). The kind of reset is a
case of log entry 12; that the trace keeps its five events over it is log entry 13, and that the reset comes in the sixth
turn log entry 1; that the wait of step 2 returns is the premise of R98 and R110 (log entry 15). -/
def Obligations.ResetAfterStepThreeLeavesThePullHalfDone : Prop :=
  ∀ (s : State) (p m : Word), s.cfg.WellFormed → p.toNat ≤ s.cfg.maxPin.toNat →
    m.toNat ≤ fieldMask s.cfg.pudWidth.toNat → s.Undisturbed 5 → s.Sole 5 →
    (turnAt s.turns 5).reset = some .blockOnly → (turnAt s.turns 5).writes = [] →
    (∃ t, exec (.setPull p m) s = .next t ∧ t.result = none ∧ t.phase = .idle ∧ t.stepNo = 0 ∧
      t.trace.length = s.trace.length + 5 ∧ t.target.pudMode s.cfg = step1Mode s.cfg m ∧
      fieldValue (t.target.wordAt (regAddr s.cfg.pudclkBase p.toNat s.cfg.bitWidth.toNat))
        (fieldShift p.toNat s.cfg.bitWidth.toNat) s.cfg.bitWidth.toNat = 1) ∧
    (s.cfg.AtDefaults → (∀ t : Target, t.pudMode s.cfg = t.wordAt s.cfg.pudAddr &&& 3) ∧
      regAddr s.cfg.pudclkBase p.toNat s.cfg.bitWidth.toNat =
        BitVec.ofNat 32 (s.cfg.pudclkBase.toNat + p.toNat / 32 * 4) ∧
      fieldShift p.toNat s.cfg.bitWidth.toNat = p.toNat % 32)

/-- R7: what a well-formed configuration is, exactly at the defaults of R6, and that no command has a meaning under any
other. That a reserved opcode has none either, and that other parameters must make fields that fit, is the model's reading:
log entries 18 (U9, U10), 24 and 25. -/
def Obligations.IllFormedConfigurationIsRefused : Prop :=
  (∀ c : Config, c.AtDefaults → (c.WellFormed ↔
    (c.fselBase.toNat % 4 = 0 ∧ c.setBase.toNat % 4 = 0 ∧ c.clrBase.toNat % 4 = 0 ∧ c.pudAddr.toNat % 4 = 0 ∧
      c.pudclkBase.toNat % 4 = 0) ∧
    [c.fselBase, c.fselBase + 4, c.fselBase + 8, c.fselBase + 12, c.fselBase + 16, c.fselBase + 20, c.setBase,
      c.setBase + 4, c.clrBase, c.clrBase + 4, c.pudAddr, c.pudclkBase, c.pudclkBase + 4].Pairwise (· ≠ ·))) ∧
  (∀ c : Config, c.WellFormed →
    (c.fselBase.toNat % 4 = 0 ∧ c.setBase.toNat % 4 = 0 ∧ c.clrBase.toNat % 4 = 0 ∧ c.pudAddr.toNat % 4 = 0 ∧
      c.pudclkBase.toNat % 4 = 0) ∧ (registers c).Pairwise (· ≠ ·)) ∧
  (∀ (i : Instr) (s : State), ¬ s.cfg.WellFormed → exec i s = .refused .illFormedConfiguration) ∧
  ∀ s : State, ¬ s.cfg.WellFormed → rejectReserved s = .refused .illFormedConfiguration

/-! ### Invariants -/

/-- The state after reset meets the invariant, with STEP 0, no value in RESULT and an empty trace (R31; the trace is log
entry 13, the cause kept log entry 22). -/
def Obligations.ResetStateMeetsTheInvariant : Prop :=
  State.reset.Inv ∧ State.reset.stepNo = 0 ∧ State.reset.result = none ∧ State.reset.trace = []

/-- Every step keeps the invariant: memory stays canonical and is written in whole words (R34, R38), the pins' latches stay
canonical, of valid pins alone, with modes that fit (R24, R25, R27), the block is IDLE with no value in its latches between
steps (R12, R20), STEP counts the trace (R19), no command has more than ten events (R84),
and a rejected command has none (R89). The model's choices: a step runs a command whole (log entry 1), the trace is kept over
a reset (13), other masters write whole words (21), a cause is kept (22). -/
def Obligations.StepKeepsTheInvariant : Prop := ∀ s t : State, s.Inv → step s = .next t → t.Inv

/-- No step changes the implementation parameters (R6, R102), whatever the environment does. -/
def Obligations.StepKeepsTheConfiguration : Prop := ∀ s t : State, step s = .next t → t.cfg = s.cfg

/-- R46: what waits at the port of a BUSY block stays there, whatever becomes of the command. That it stays over a reset too
is the model's choice: log entry 13; a BUSY block between steps is log entry 14. -/
def Obligations.RequestsWaitWhileBusy : Prop :=
  (∀ (i : Instr) (s t : State), exec i s = .next t → t.inputs = s.inputs) ∧
  (∀ (i : Instr) (s m : State) (a : Word), exec i s = .fault (.busAccessStuck a m) → m.inputs = s.inputs) ∧
  ∀ s t : State, s.phase = .busy → step s = .next t → t.inputs = s.inputs

/-! ### The accessor's arithmetic and checks (40_field_accessor.md) -/

/-- R62: the valid widths, and that the accessor rejects every other with nothing touched; the cause kept is REJ_WIDTH
whatever the index and the value are, the first in the order of R89 (R87; log entry 22). -/
def Obligations.WidthsThatDivideThirtyTwo : Prop :=
  (∀ w : Nat, (ValidWidth w ↔ 1 ≤ w ∧ w ≤ 32 ∧ 32 % w = 0) ∧
    (ValidWidth w ↔ w = 1 ∨ w = 2 ∨ w = 4 ∨ w = 8 ∨ w = 16 ∨ w = 32)) ∧
  ∀ (i v b w max : Word) (s : State), ¬ ValidWidth w.toNat → fieldWrite i v b w max s = .go (.rejected .width) s

/-- R63: mask, fields per register, register address (wrapped) and shift. -/
def Obligations.FieldGeometry : Prop :=
  maskWord 32 = 0xFFFFFFFF ∧
  ∀ (b : Word) (i w : Nat), ValidWidth w →
    fieldMask w = 2 ^ w - 1 ∧ (maskWord w).toNat = 2 ^ w - 1 ∧ fieldsPerReg w = 32 / w ∧
    (regAddr b i w).toNat = (b.toNat + i / (32 / w) * 4) % 2 ^ 32 ∧
    fieldShift i w = i % (32 / w) * w ∧ fieldShift i w ≤ 32 - w

/-- R64, R68: a field write of valid width is rejected exactly when its index or value is out of range (unsigned, neither
bound clipped), and a rejection leaves the whole state as it was. -/
def Obligations.FieldWriteRejectsOutOfRange : Prop :=
  (∀ (i v b w max : Word) (s : State), ValidWidth w.toNat →
    ((i.toNat ≤ max.toNat ∧ v.toNat ≤ fieldMask w.toNat) ↔
      ∀ c t, fieldWrite i v b w max s ≠ .go (.rejected c) t)) ∧
  ∀ (i v b w max : Word) (s t : State) (c : RejectCause), fieldWrite i v b w max s = .go (.rejected c) t → t = s

/-- The law of R69: the field of the new word holds the value, and every bit outside it is the read word's. -/
def Obligations.FieldInsertLaw : Prop :=
  ∀ (i w : Nat) (v d : Word), ValidWidth w → v.toNat ≤ fieldMask w →
    fieldValue (insertField d (fieldShift i w) (maskWord w) v) (fieldShift i w) w = v ∧
    insertField d (fieldShift i w) (maskWord w) v &&& ~~~(maskWord w <<< fieldShift i w) =
      d &&& ~~~(maskWord w <<< fieldShift i w)

/-- A read-modify-write that nothing disturbs: one read, answered as the turn and the target say (R51), then one write of the
whole word, with every bit outside the field as read, which the target takes as any write there, after the other masters'
writes of the two turns (R39, R40); and one that is stuck at its read or write holds its operands, and the
word read, in its latches (R20, R65; log entries 5 and 14). -/
def Obligations.ReadModifyWriteIsOneReadOneWrite : Prop :=
  ∀ (a v : Word) (sh w : Nat) (s : State), 1 ≤ w → sh + w ≤ 32 → v.toNat ≤ fieldMask w →
    ∀ d, d = s.nextAnswer a →
    (∀ x, (turnAt s.turns 0).answer = some x → d = x) ∧
    (Aligned a → s.Undisturbed 2 → ∃ n t, readModifyWrite a sh (maskWord w) v s = .go () t ∧
      t.trace = s.trace ++ [.rd a d, .wr a n] ∧ t.stepNo = s.stepNo + 2 ∧ t.rmw = none ∧
      n = (d &&& ~~~(maskWord w <<< sh)) ||| (v <<< sh) ∧
      n &&& ~~~(maskWord w <<< sh) = d &&& ~~~(maskWord w <<< sh) ∧
      ∃ k, t.target = Target.write s.cfg a n (Target.foreignWrites s.cfg (turnAt s.turns 1).writes
        { s.target.foreignWrites s.cfg (turnAt s.turns 0).writes with draws := k })) ∧
    (∀ f, readModifyWrite a sh (maskWord w) v s = .stuck f → ∃ m, f = .busAccessStuck a m ∧
      (m.rmw = some ⟨a, BitVec.ofNat 5 sh, maskWord w, none⟩ ∧ m.trace = s.trace ∨
        m.rmw = some ⟨a, BitVec.ofNat 5 sh, maskWord w, some d⟩ ∧ m.trace = s.trace ++ [.rd a d]))

/-- R73: the bit-field specialisations are `FieldWrite` with a fixed descriptor, and the register and shift each reaches;
with the parameters of R6, and as R73 writes them at their defaults. -/
def Obligations.SpecialisationsAreFieldWrites : Prop :=
  ∀ (p v : Word) (s : State),
    (setWrite p s = fieldWrite p 1 s.cfg.setBase s.cfg.bitWidth s.cfg.maxPin s ∧
      clrWrite p s = fieldWrite p 1 s.cfg.clrBase s.cfg.bitWidth s.cfg.maxPin s ∧
      pudWrite v s = fieldWrite 0 v s.cfg.pudAddr s.cfg.pudWidth 0 s ∧
      pudClkWrite p v s = fieldWrite p v s.cfg.pudclkBase s.cfg.bitWidth s.cfg.maxPin s) ∧
    (s.cfg.AtDefaults →
      (setWrite p s = fieldWrite p 1 s.cfg.setBase 1 53 s ∧ clrWrite p s = fieldWrite p 1 s.cfg.clrBase 1 53 s ∧
        pudWrite v s = fieldWrite 0 v s.cfg.pudAddr 2 0 s ∧ pudClkWrite p v s = fieldWrite p v s.cfg.pudclkBase 1 53 s) ∧
      (∀ b : Word, regAddr b p.toNat 1 = BitVec.ofNat 32 (b.toNat + p.toNat / 32 * 4)) ∧
      fieldShift p.toNat 1 = p.toNat % 32 ∧ regAddr s.cfg.pudAddr 0 2 = s.cfg.pudAddr ∧ fieldShift 0 2 = 0)

/-- R70: the function-select packing, with the parameters of R6 and as R70 writes it at their defaults, with the source's
examples for pins 10 and 11. -/
def Obligations.FunctionSelectPacking : Prop :=
  ∀ c : Config,
    (c.AtDefaults → fselMask c = 7 ∧ fselShift c 11 = 3 ∧ fselShift c 10 = 0 ∧
      fselAddr c 11 = c.fselBase + 4 ∧ fselAddr c 10 = c.fselBase + 4 ∧
      ∀ p : Nat, (fselAddr c p).toNat = (c.fselBase.toNat + p / 10 * 4) % 2 ^ 32 ∧
        fselShift c p = p * 3 % 30 ∧ fselShift c p = 3 * (p % 10) ∧ fselShift c p ≤ 27) ∧
    (c.FieldsFit → (fselMask c).toNat = 2 ^ c.fselWidth - 1 ∧
      ∀ p : Nat, (fselAddr c p).toNat = (c.fselBase.toNat + p / c.fselPerReg * 4) % 2 ^ 32 ∧
        fselShift c p = c.fselWidth * (p % c.fselPerReg) ∧ fselShift c p + c.fselWidth ≤ 32)

/-- R74: WRITE_FIELD of width 3 is rejected with no event, though the regular formulas at width 3 would give exactly the
function-select address and shift. The cause kept is REJ_WIDTH also where the index or the value is out of range, the first
in the order of R89 (R87; log entry 22). -/
def Obligations.WidthThreeIsRejected : Prop :=
  (∀ (i v b max : Word) (s : State), s.cfg.WellFormed → s.NoReset 1 →
    ∃ t, exec (.writeField i v b 3 max) s = .next t ∧ Responded (.rejected .width) t ∧ t.trace = s.trace ∧
      t.target = s.target.foreignWrites s.cfg (turnAt s.turns 0).writes) ∧
  ∀ (c : Config) (p : Nat), c.AtDefaults →
    fieldsPerReg 3 = 10 ∧ regAddr c.fselBase p 3 = fselAddr c p ∧ fieldShift p 3 = fselShift c p

/-! ### WRITE_FIELD -/

/-- WRITE_FIELD out of range: REJECTED, no event, the target touched by other masters alone; the cause kept is the first in
the order of R89 (R66, R67, R87; log entry 22). -/
def Obligations.WriteFieldRejects : Prop :=
  ∀ (i v b w max : Word) (s : State), s.cfg.WellFormed → s.NoReset 1 →
    ¬ (ValidWidth w.toNat ∧ i.toNat ≤ max.toNat ∧ v.toNat ≤ fieldMask w.toNat) →
    ∃ c t, exec (.writeField i v b w max) s = .next t ∧ Responded (.rejected c) t ∧
      c = (if ¬ ValidWidth w.toNat then .width else if max.toNat < i.toNat then .index else .value) ∧
      t.trace = s.trace ∧ t.stepNo = s.stepNo ∧ t.rmw = s.rmw ∧ SameSetting s t ∧
      t.target = s.target.foreignWrites s.cfg (turnAt s.turns 0).writes

/-- WRITE_FIELD in range at an aligned base: one read and one write of the field's register, SUCCESS (R65, R66, R67); the
read gives what the turn or the target answers (R51). -/
def Obligations.WriteFieldWritesTheField : Prop :=
  ∀ (i v b w max : Word) (s : State), s.cfg.WellFormed → s.Undisturbed 3 → ValidWidth w.toNat →
    i.toNat ≤ max.toNat → v.toNat ≤ fieldMask w.toNat → b.toNat % 4 = 0 →
    ∃ a d t, a = regAddr b i.toNat w.toNat ∧ d = s.nextAnswer a ∧
      (∀ x, (turnAt s.turns 0).answer = some x → d = x) ∧
      exec (.writeField i v b w max) s = .next t ∧ Responded .success t ∧
      t.trace = s.trace ++ [.rd a d,
        .wr a ((d &&& ~~~(maskWord w.toNat <<< fieldShift i.toNat w.toNat)) ||| (v <<< fieldShift i.toNat w.toNat))] ∧
      t.stepNo = s.stepNo + 2 ∧ t.rmw = none ∧ SameSetting s t

/-- WRITE_FIELD with no other master: every byte outside the one word at the field's register address reads as before;
level latches change only at a set or clear register, pull latches only at a clock-enable register. A success leaves the
target as its one write does, whatever register that is (R33, R40, R43; what a write does there: `WritesDriveTheirPins`), so
that every register that can be read holds the word of the event, whoever answered the read (R69); where the target answered
it, that is the word there with the field inserted (R34, R51, R67). -/
def Obligations.WriteFieldLeavesTheRest : Prop :=
  ∀ (i v b w max : Word) (s t : State), exec (.writeField i v b w max) s = .next t → s.Sole 3 →
    ∀ a, a = regAddr b i.toNat w.toNat →
      SameSetting s t ∧ (∀ x, OutsideWord a x → t.target.byteAt x = s.target.byteAt x) ∧
      (bankOf s.cfg s.cfg.setBase a = none → bankOf s.cfg s.cfg.clrBase a = none →
        t.target.levels = s.target.levels) ∧
      (bankOf s.cfg s.cfg.pudclkBase a = none → t.target.pulls = s.target.pulls) ∧
      (t.result = some .rejected → t.target = s.target) ∧
      (t.result = some .success → ∃ d n, t.trace = s.trace ++ [.rd a d, .wr a n] ∧
        n = insertField d (fieldShift i.toNat w.toNat) (maskWord w.toNat) v ∧
        t.target = { s.target.write s.cfg a n with draws := t.target.draws } ∧
        (bankOf s.cfg s.cfg.setBase a = none → bankOf s.cfg s.cfg.clrBase a = none →
          t.target.wordAt a = n ∧ (s.AnsweredByTarget 3 → d = s.target.wordAt a)))

/-- WRITE_FIELD in range at a base that is no multiple of 4 is stuck before its read: RESULT is not written, PHASE and STEP
stay, no event (R36; the fault that carries the stuck state is log entry 14). -/
def Obligations.MisalignedWriteFieldIsStuck : Prop :=
  ∀ (i v b w max : Word) (s : State), s.cfg.WellFormed → s.NoReset 1 → ValidWidth w.toNat →
    i.toNat ≤ max.toNat → v.toNat ≤ fieldMask w.toNat → b.toNat % 4 ≠ 0 →
    ∃ m, exec (.writeField i v b w max) s = .fault (.busAccessStuck (regAddr b i.toNat w.toNat) m) ∧
      m.resultReg = s.resultReg ∧ m.responded = s.responded ∧ m.phase = s.phase ∧ m.stepNo = s.stepNo ∧
      m.trace = s.trace ∧ m.target = s.target.foreignWrites s.cfg (turnAt s.turns 0).writes

/-- R88: an access the bus port does not admit has no step; the command is stuck with RESULT not written and PHASE as it
was, that is BUSY for an accepted command; a command faults in no other way. That every block BUSY between steps is such a
stuck command, and takes no step of its own, is the model's choice: log entry 14. -/
def Obligations.NotAdmittedAccessIsStuck : Prop :=
  (∀ (a v : Word) (s : State), s.NoReset 1 → ¬ Admits (turnAt s.turns 0) a →
    ∃ m, memRead a s = .stuck (.busAccessStuck a m) ∧ memWrite a v s = .stuck (.busAccessStuck a m) ∧
      m.resultReg = s.resultReg ∧ m.responded = s.responded ∧ m.phase = s.phase ∧ m.trace = s.trace) ∧
  (∀ (i : Instr) (s : State) (f : Fault), exec i s = .fault f →
    ∃ a m, f = .busAccessStuck a m ∧ m.resultReg = s.resultReg ∧ m.responded = s.responded ∧ m.phase = s.phase) ∧
  ∀ s : State, s.phase = .busy → s.NoReset 1 → step s = .fault .blockStuck

/-! ### SET_FUNCTION -/

/-- SET_FUNCTION out of range (R71, R76); the cause kept is the first in the order of R89 (log entry 22). -/
def Obligations.SetFunctionRejects : Prop :=
  (∀ (p f : Word) (s : State), s.cfg.WellFormed → s.NoReset 1 →
    s.cfg.maxPin.toNat < p.toNat ∨ fieldMask s.cfg.fselWidth < f.toNat →
    ∃ t, exec (.setFunction p f) s = .next t ∧
      Responded (.rejected (if s.cfg.maxPin.toNat < p.toNat then .index else .value)) t ∧ t.trace = s.trace ∧
      t.stepNo = s.stepNo ∧ t.rmw = s.rmw ∧ SameSetting s t ∧
      t.target = s.target.foreignWrites s.cfg (turnAt s.turns 0).writes) ∧
  ∀ c : Config, c.AtDefaults → c.maxPin.toNat = 53 ∧ fieldMask c.fselWidth = 7

/-- SET_FUNCTION of a valid pin and code: one read and one write of the pin's function-select register (R70, R71, R76); the
read gives what the turn or the target answers (R51). -/
def Obligations.SetFunctionSelectsTheFunction : Prop :=
  ∀ (p f : Word) (s : State), s.cfg.WellFormed → s.Undisturbed 3 → p.toNat ≤ s.cfg.maxPin.toNat →
    f.toNat ≤ fieldMask s.cfg.fselWidth → ∀ sh m, sh = fselShift s.cfg p.toNat → m = fselMask s.cfg →
    (∃ a d t, a = fselAddr s.cfg p.toNat ∧ d = s.nextAnswer a ∧
      (∀ x, (turnAt s.turns 0).answer = some x → d = x) ∧
      exec (.setFunction p f) s = .next t ∧ Responded .success t ∧
      t.trace = s.trace ++ [.rd a d, .wr a ((d &&& ~~~(m <<< sh)) ||| (f <<< sh))] ∧
      t.stepNo = s.stepNo + 2 ∧ t.rmw = none ∧ SameSetting s t) ∧
    (s.cfg.AtDefaults → sh = p.toNat * 3 % 30 ∧ m = 7)

/-- SET_FUNCTION with no other master: every byte outside the pin's function-select register, every level and every pull
latch is as before; the register holds the word written, whoever answered the read; where the target answers its
read, the pin has the code and every other pin the function it had (R30, R69, R76). -/
def Obligations.SetFunctionChangesOnlyItsPin : Prop :=
  ∀ (p f : Word) (s t : State), exec (.setFunction p f) s = .next t → s.Sole 3 →
    SameSetting s t ∧ (∀ x, OutsideWord (fselAddr s.cfg p.toNat) x → t.target.byteAt x = s.target.byteAt x) ∧
    t.target.levels = s.target.levels ∧ t.target.pulls = s.target.pulls ∧
    (t.result = some .rejected → t.target = s.target) ∧
    (t.result = some .success → ∃ d n,
      t.trace = s.trace ++ [.rd (fselAddr s.cfg p.toNat) d, .wr (fselAddr s.cfg p.toNat) n] ∧
      t.target.wordAt (fselAddr s.cfg p.toNat) = n) ∧
    (t.result = some .success → s.AnsweredByTarget 3 → ∀ q, q ≤ s.cfg.maxPin.toNat →
      pinFunction s.cfg t.target q = if q = p.toNat then f else pinFunction s.cfg s.target q)

/-- R72: the bits above the last field of every function-select register, and in the last register those above the last
pin's, are in no reachable field and are written back exactly as read; at the defaults of R6 these are bits 31:30, and bits
29:12 of FSEL5. -/
def Obligations.UnusedFselBitsAreWrittenBack : Prop :=
  (∀ (c : Config) (p : Nat), c.WellFormed → p ≤ c.maxPin.toNat →
    fselShift c p + c.fselWidth ≤ c.fselPerReg * c.fselWidth ∧
    (p / c.fselPerReg = c.maxPin.toNat / c.fselPerReg →
      fselShift c p + c.fselWidth ≤ (c.maxPin.toNat % c.fselPerReg + 1) * c.fselWidth) ∧
    (c.AtDefaults → fselShift c p + 3 ≤ 30 ∧ (p / 10 = 5 → fselShift c p + 3 ≤ 12))) ∧
  ∀ (p f : Word) (s t : State), s.cfg.WellFormed → fselWrite p f s = .go .success t →
    ∃ d n, t.trace = s.trace ++ [.rd (fselAddr s.cfg p.toNat) d, .wr (fselAddr s.cfg p.toNat) n] ∧
      (∀ j, s.cfg.fselPerReg * s.cfg.fselWidth ≤ j → n.getLsbD j = d.getLsbD j) ∧
      (p.toNat / s.cfg.fselPerReg = s.cfg.maxPin.toNat / s.cfg.fselPerReg →
        ∀ j, (s.cfg.maxPin.toNat % s.cfg.fselPerReg + 1) * s.cfg.fselWidth ≤ j → n.getLsbD j = d.getLsbD j) ∧
      (s.cfg.AtDefaults → n.extractLsb' 30 2 = d.extractLsb' 30 2 ∧
        (p.toNat / 10 = 5 → n.extractLsb' 12 18 = d.extractLsb' 12 18))

/-- Another master's write of the same register between the read and the write of a SET_FUNCTION is lost: the register ends
as if it had not been made (R39, R103). -/
def Obligations.WriteBetweenReadAndWriteIsLost : Prop :=
  ∀ (p f w : Word) (s : State), s.cfg.WellFormed → s.Undisturbed 3 → s.AnsweredByTarget 1 →
    p.toNat ≤ s.cfg.maxPin.toNat → f.toNat ≤ fieldMask s.cfg.fselWidth → (turnAt s.turns 0).writes = [] →
    (turnAt s.turns 1).writes = [⟨fselAddr s.cfg p.toNat, w⟩] → (turnAt s.turns 2).writes = [] →
    ∃ t, exec (.setFunction p f) s = .next t ∧ t.target.wordAt (fselAddr s.cfg p.toNat) =
      insertField (s.target.wordAt (fselAddr s.cfg p.toNat)) (fselShift s.cfg p.toNat) (fselMask s.cfg) f

/-! ### DRIVE -/

/-- DRIVE of an invalid pin, at any level (R77). -/
def Obligations.DriveRejects : Prop :=
  (∀ (p l : Word) (s : State), s.cfg.WellFormed → s.NoReset 1 → s.cfg.maxPin.toNat < p.toNat →
    ∃ t, exec (.drive p l) s = .next t ∧ Responded (.rejected .index) t ∧ t.trace = s.trace ∧ t.stepNo = s.stepNo ∧
      t.rmw = s.rmw ∧ SameSetting s t ∧ t.target = s.target.foreignWrites s.cfg (turnAt s.turns 0).writes) ∧
  ∀ c : Config, c.AtDefaults → c.maxPin.toNat = 53

/-- DRIVE of a valid pin: one read and one write, of the set register for any level but 0 and of the clear register for
level 0, writing back the read word with 1 in the pin's field (R77). The read gives what the turn answers, and where the
target answers the coming draw (R24, R25, R51; log entry 8). -/
def Obligations.DriveWritesSetOrClear : Prop :=
  ∀ (p l : Word) (s : State), s.cfg.WellFormed → s.Undisturbed 3 → p.toNat ≤ s.cfg.maxPin.toNat →
    ∀ sh m, sh = fieldShift p.toNat s.cfg.bitWidth.toNat → m = maskWord s.cfg.bitWidth.toNat →
    ∃ a d n t, a = regAddr (if l ≠ 0 then s.cfg.setBase else s.cfg.clrBase) p.toNat s.cfg.bitWidth.toNat ∧
      (∀ x, (turnAt s.turns 0).answer = some x → d = x) ∧
      ((turnAt s.turns 0).answer = none → d = Config.readDraw s.target.draws) ∧
      n = (d &&& ~~~(m <<< sh)) ||| ((1 : Word) <<< sh) ∧
      exec (.drive p l) s = .next t ∧ Responded .success t ∧ t.trace = s.trace ++ [.rd a d, .wr a n] ∧
      t.stepNo = s.stepNo + 2 ∧ t.rmw = none ∧ SameSetting s t ∧
      (s.cfg.AtDefaults →
        a = BitVec.ofNat 32 ((if l ≠ 0 then s.cfg.setBase else s.cfg.clrBase).toNat + p.toNat / 32 * 4) ∧
        n = d ||| ((1 : Word) <<< (p.toNat % 32)))

/-- R78: every level but 0 is asserted and is level 1 over again; 0 selects the clear register; no level is rejected. -/
def Obligations.LevelIsAssertedUnlessZero : Prop :=
  (∀ (p l : Word) (s : State), l ≠ 0 → exec (.drive p l) s = command (fun s => (setWrite p s).andThen respond) s) ∧
  (∀ (p : Word) (s : State), exec (.drive p 0) s = command (fun s => (clrWrite p s).andThen respond) s) ∧
  ∀ (p : Word) (s t : State) (c : RejectCause), s.cfg.WellFormed → p.toNat ≤ s.cfg.maxPin.toNat →
    setWrite p s ≠ .go (.rejected c) t ∧ clrWrite p s ≠ .go (.rejected c) t

/-- DRIVE with no other master: every byte and every pull latch is as before, and the level latches are those the word
written back drives, high for a level but 0 and low for level 0 (R24, R25, R40, R77); at a `BIT_WIDTH` that is not 1 by the
lowest bit of each pin's field, the model's choice (log entry 26). -/
def Obligations.DriveLeavesTheRest : Prop :=
  ∀ (p l : Word) (s t : State), exec (.drive p l) s = .next t → s.Sole 3 → ∀ bw, bw = s.cfg.bitWidth.toNat →
    SameSetting s t ∧ (∀ x, t.target.byteAt x = s.target.byteAt x) ∧ t.target.pulls = s.target.pulls ∧
    (t.result = some .rejected → t.target = s.target) ∧
    (t.result = some .success → ∃ a d n, t.trace = s.trace ++ [.rd a d, .wr a n] ∧ ∀ q, q ≤ s.cfg.maxPin.toNat →
      pinLevel t.target q = if q / fieldsPerReg bw = p.toNat / fieldsPerReg bw ∧ n.getLsbD (fieldShift q bw) = true
        then decide (l ≠ 0) else pinLevel s.target q) ∧
    (s.cfg.AtDefaults → fieldsPerReg bw = 32 ∧ ∀ q, fieldShift q bw = q % 32)

/-- Where the write-only register's read answers 0 in every bit outside the pin's field, at the defaults of R6 in every bit
but the pin's (R105), DRIVE drives its pin and no other. At a `BIT_WIDTH` that is not 1 it is the lowest bit of a field that
drives its pin, the model's choice (log entry 26). -/
def Obligations.DriveAffectsOnlyItsPin : Prop :=
  ∀ (p l a d n : Word) (s t : State), exec (.drive p l) s = .next t → s.Sole 3 → p.toNat ≤ s.cfg.maxPin.toNat →
    t.trace = s.trace ++ [.rd a d, .wr a n] →
    (d &&& ~~~(maskWord s.cfg.bitWidth.toNat <<< fieldShift p.toNat s.cfg.bitWidth.toNat)) = 0 →
    (∀ q, q ≤ s.cfg.maxPin.toNat →
      pinLevel t.target q = if q = p.toNat then decide (l ≠ 0) else pinLevel s.target q) ∧
    (s.cfg.AtDefaults → maskWord s.cfg.bitWidth.toNat <<< fieldShift p.toNat s.cfg.bitWidth.toNat =
      (1 : Word) <<< (p.toNat % 32))

/-- What a DRIVE writes does not depend on the pin's function, nor on anything else memory holds; and neither DRIVE nor
SET_PULL accesses a function-select register (R86, R109). -/
def Obligations.DriveAndPullDoNotReadTheFunction : Prop :=
  (∀ (p l : Word) (s t : State) (m : Memory), exec (.drive p l) s = .next t →
    ∃ u, exec (.drive p l) { s with target := { s.target with mem := m } } = .next u ∧ u.result = t.result ∧
      u.trace = t.trace ∧ u.target.levels = t.target.levels) ∧
  ∀ (p v : Word) (i : Instr) (s t : State), (i = .drive p v ∨ i = .setPull p v) → exec i s = .next t →
    ∃ es, t.trace = s.trace ++ es ∧ ∀ e, e ∈ es → ∀ n, n < fselCount s.cfg →
      e.addr? ≠ some (member s.cfg.fselBase n)

/-! ### SET_PULL -/

/-- Both operands are validated before any event (R80): under a well-formed configuration a bad pin or a mode that does not
fit the pull field, above 3 at the defaults of R6, is REJECTED with no event, the cause kept being the first in the order of
R89 (log entry 22); and every other mode is accepted and completes (R81), provided every `Wait` returns: the premise of R98
and R110, which the model takes (log entry 15). -/
def Obligations.SetPullValidatesFirst : Prop :=
  (∀ (p m : Word) (s : State), s.cfg.WellFormed → s.NoReset 1 →
    s.cfg.maxPin.toNat < p.toNat ∨ fieldMask s.cfg.pudWidth.toNat < m.toNat →
    ∃ t, exec (.setPull p m) s = .next t ∧
      Responded (.rejected (if s.cfg.maxPin.toNat < p.toNat then .index else .value)) t ∧ t.trace = s.trace ∧
      t.stepNo = s.stepNo ∧ t.rmw = s.rmw ∧ SameSetting s t ∧
      t.target = s.target.foreignWrites s.cfg (turnAt s.turns 0).writes) ∧
  (∀ (p m : Word) (s : State), s.cfg.WellFormed → s.Undisturbed 11 → p.toNat ≤ s.cfg.maxPin.toNat →
    m.toNat ≤ fieldMask s.cfg.pudWidth.toNat → ∃ t, exec (.setPull p m) s = .next t ∧ Responded .success t) ∧
  ∀ c : Config, c.AtDefaults → c.maxPin.toNat = 53 ∧ fieldMask c.pudWidth.toNat = 3

/-- SET_PULL with WORD_WRITE: the six steps in order with two waits, eight events (R81, R82, R83); a read that its turn
answers gives that answer (R51). It completes provided every `Wait` returns: the premise of R98 and R110, which the model
takes (log entry 15). -/
def Obligations.SetPullRunsTheSixSteps : Prop :=
  ∀ (p m : Word) (s : State), s.cfg.WellFormed → s.cfg.pullClear = .wordWrite → s.Undisturbed 9 →
    p.toNat ≤ s.cfg.maxPin.toNat → m.toNat ≤ fieldMask s.cfg.pudWidth.toNat →
    ∀ ca sh pm bm, ca = regAddr s.cfg.pudclkBase p.toNat s.cfg.bitWidth.toNat →
    sh = fieldShift p.toNat s.cfg.bitWidth.toNat → pm = maskWord s.cfg.pudWidth.toNat →
    bm = maskWord s.cfg.bitWidth.toNat →
    (∃ d1 d2 t, exec (.setPull p m) s = .next t ∧ Responded .success t ∧
      t.trace = s.trace ++
        [.rd s.cfg.pudAddr d1, .wr s.cfg.pudAddr ((d1 &&& ~~~pm) ||| step1Mode s.cfg m),
         .wt s.cfg.pullSettle,
         .rd ca d2, .wr ca ((d2 &&& ~~~(bm <<< sh)) ||| ((1 : Word) <<< sh)),
         .wt s.cfg.pullSettle,
         .wr s.cfg.pudAddr 0,
         .wr ca 0] ∧
      t.stepNo = s.stepNo + 8 ∧ t.rmw = none ∧ SameSetting s t ∧ d1 = s.nextAnswer s.cfg.pudAddr ∧
      ∀ x, (turnAt s.turns 3).answer = some x → d2 = x) ∧
    (s.cfg.AtDefaults → ca = BitVec.ofNat 32 (s.cfg.pudclkBase.toNat + p.toNat / 32 * 4) ∧ sh = p.toNat % 32 ∧
      pm = 3 ∧ bm = 1)

/-- SET_PULL with FIELD_RMW: the same steps, the last two by their fields, ten events (R81, R82, R83); a read that its turn
answers gives that answer (R51). It completes provided every `Wait` returns: the premise of R98 and R110, which the model
takes (log entry 15). -/
def Obligations.SetPullClearsByFields : Prop :=
  ∀ (p m : Word) (s : State), s.cfg.WellFormed → s.cfg.pullClear = .fieldRmw → s.Undisturbed 11 →
    p.toNat ≤ s.cfg.maxPin.toNat → m.toNat ≤ fieldMask s.cfg.pudWidth.toNat →
    ∀ ca sh pm bm, ca = regAddr s.cfg.pudclkBase p.toNat s.cfg.bitWidth.toNat →
    sh = fieldShift p.toNat s.cfg.bitWidth.toNat → pm = maskWord s.cfg.pudWidth.toNat →
    bm = maskWord s.cfg.bitWidth.toNat →
    (∃ d1 d2 d3 d4 t, exec (.setPull p m) s = .next t ∧ Responded .success t ∧
      t.trace = s.trace ++
        [.rd s.cfg.pudAddr d1, .wr s.cfg.pudAddr ((d1 &&& ~~~pm) ||| step1Mode s.cfg m),
         .wt s.cfg.pullSettle,
         .rd ca d2, .wr ca ((d2 &&& ~~~(bm <<< sh)) ||| ((1 : Word) <<< sh)),
         .wt s.cfg.pullSettle,
         .rd s.cfg.pudAddr d3, .wr s.cfg.pudAddr (d3 &&& ~~~pm),
         .rd ca d4, .wr ca (d4 &&& ~~~(bm <<< sh))] ∧
      t.stepNo = s.stepNo + 10 ∧ t.rmw = none ∧ SameSetting s t ∧ d1 = s.nextAnswer s.cfg.pudAddr ∧
      (∀ x, (turnAt s.turns 3).answer = some x → d2 = x) ∧ (∀ x, (turnAt s.turns 6).answer = some x → d3 = x) ∧
      ∀ x, (turnAt s.turns 8).answer = some x → d4 = x) ∧
    (s.cfg.AtDefaults → ca = BitVec.ofNat 32 (s.cfg.pudclkBase.toNat + p.toNat / 32 * 4) ∧ sh = p.toNat % 32 ∧
      pm = 3 ∧ bm = 1)

/-- R83: steps 5 and 6 under each clear style, and what they leave: the pin's clock-enable field 0, and the mode in PUD 0
unless another master wrote it in between; at the defaults of R6 these are the pin's bit and PUD[1:0]. The premise excludes
writes at PUD's address alone: that a misaligned write of another master over PUD's bytes reaches nothing is the model's
choice, log entry 21. -/
def Obligations.PullRegistersAreCleared : Prop :=
  Config.exCfg.pullClear = .wordWrite ∧
  ∀ (p : Word) (s t : State), s.cfg.WellFormed → p.toNat ≤ s.cfg.maxPin.toNat → clearPull p s = .go () t →
    ∀ ca sh pm bm, ca = regAddr s.cfg.pudclkBase p.toNat s.cfg.bitWidth.toNat →
    sh = fieldShift p.toNat s.cfg.bitWidth.toNat → pm = maskWord s.cfg.pudWidth.toNat →
    bm = maskWord s.cfg.bitWidth.toNat →
      (s.cfg.pullClear = .wordWrite → t.trace = s.trace ++ [.wr s.cfg.pudAddr 0, .wr ca 0]) ∧
      (s.cfg.pullClear = .fieldRmw → ∃ d3 d4, t.trace = s.trace ++
        [.rd s.cfg.pudAddr d3, .wr s.cfg.pudAddr (d3 &&& ~~~pm), .rd ca d4, .wr ca (d4 &&& ~~~(bm <<< sh))]) ∧
      t.target.wordAt ca &&& (bm <<< sh) = 0 ∧
      (s.cfg.pullClear = .wordWrite → (∀ w ∈ (turnAt s.turns 1).writes, w.addr ≠ s.cfg.pudAddr) →
        t.target.wordAt s.cfg.pudAddr &&& pm = 0) ∧
      (s.cfg.pullClear = .fieldRmw → (∀ w ∈ (turnAt s.turns 2).writes, w.addr ≠ s.cfg.pudAddr) →
        (∀ w ∈ (turnAt s.turns 3).writes, w.addr ≠ s.cfg.pudAddr) → t.target.wordAt s.cfg.pudAddr &&& pm = 0) ∧
      (s.cfg.AtDefaults → ca = BitVec.ofNat 32 (s.cfg.pudclkBase.toNat + p.toNat / 32 * 4) ∧ sh = p.toNat % 32 ∧
        pm = 3 ∧ bm = 1)

/-- What a completed SET_PULL leaves in the pull latches, with no other master and the target answering: the pin has the
mode of step 1 (R82); a pin of the same bank whose clock-enable bit was left asserted takes it too, and under FIELD_RMW is
latched again with 0 at step 6; every other pin keeps its latch (R27, R51, R81); and what the codes mean, 0 none, 1
pull-down, 2 pull-up (R29), any other being open (log entry 11). The latch on a clock-enable write is D32's
reference simulator: log entry 9; a `BIT_WIDTH` that is not 1 is log entry 26. -/
def Obligations.SetPullLatchesTheMode : Prop :=
  (pullModeOf 0 = .none ∧ pullModeOf 1 = .pullDown ∧ pullModeOf 2 = .pullUp ∧
    ∀ k : Word, 2 < k.toNat → pullModeOf k = Config.pullOther k) ∧
  ∀ (p m : Word) (s t : State), exec (.setPull p m) s = .next t → s.Sole 11 → s.AnsweredByTarget 11 →
    p.toNat ≤ s.cfg.maxPin.toNat → m.toNat ≤ fieldMask s.cfg.pudWidth.toNat → ∀ bw, bw = s.cfg.bitWidth.toNat →
    (∀ q, q ≤ s.cfg.maxPin.toNat → pinPull s.cfg t.target q =
      if q = p.toNat then step1Mode s.cfg m
      else if q / fieldsPerReg bw = p.toNat / fieldsPerReg bw ∧
        (s.target.wordAt (regAddr s.cfg.pudclkBase p.toNat bw)).getLsbD (fieldShift q bw) = true then
        (if s.cfg.pullClear = .wordWrite then step1Mode s.cfg m else 0)
      else pinPull s.cfg s.target q) ∧
    (s.cfg.AtDefaults → fieldsPerReg bw = 32 ∧ ∀ q, fieldShift q bw = q % 32)

/-- SET_PULL with no other master: every byte outside PUD and the pin's clock-enable register, every level latch, and the
pull latches of the other banks are as before (R81). That those latches stay rests on the latch on a clock-enable write,
D32's reference simulator (R51; the model's choice, log entry 9): by R27 and R30 a bit left asserted there could take PUD's
new mode at step 1. -/
def Obligations.SetPullLeavesTheRest : Prop :=
  ∀ (p m : Word) (s t : State), exec (.setPull p m) s = .next t → s.Sole 11 → ∀ bw, bw = s.cfg.bitWidth.toNat →
    SameSetting s t ∧
    (∀ x, OutsideWord s.cfg.pudAddr x → OutsideWord (regAddr s.cfg.pudclkBase p.toNat bw) x →
      t.target.byteAt x = s.target.byteAt x) ∧
    t.target.levels = s.target.levels ∧
    (∀ q, q / fieldsPerReg bw ≠ p.toNat / fieldsPerReg bw → pinPull s.cfg t.target q = pinPull s.cfg s.target q) ∧
    (t.result = some .rejected → t.target = s.target) ∧
    (s.cfg.AtDefaults → fieldsPerReg bw = 32)

/-! ### All the commands -/

/-- R84: the events of every command, by kind: none for a rejection; read and write for the three short commands; eight or
ten for SET_PULL, with exactly two waits of PULL_SETTLE; never more than ten. -/
def Obligations.EventCounts : Prop :=
  (∀ (i : Instr) (s t : State), exec i s = .next t → s.NoReset 11 →
    ∃ es, t.trace = s.trace ++ es ∧ t.stepNo = s.stepNo + es.length ∧ es.length ≤ 10 ∧
      ((t.result = some .rejected ∧ es = []) ∨
       (t.result = some .success ∧ es.map Event.kind = commandKinds s.cfg i ∧ ∀ p m, i = .setPull p m →
          es.filter (fun e => e.kind = .wt) = [.wt s.cfg.pullSettle, .wt s.cfg.pullSettle]))) ∧
  ∀ s t : State, rejectReserved s = .next t → s.NoReset 1 →
    t.trace = s.trace ∧ t.stepNo = s.stepNo ∧ t.result = some .rejected

/-- R85: a command responds REJECTED with none of its events, or SUCCESS with all of them, or is abandoned by the first
reset to come, with STEP 0 and no RESULT (R99, R100); and where it stops instead, it is stuck at an access (R36). The model's
choices in it: as many events as there were turns before the reset (log entry 1), the trace kept over it (13). -/
def Obligations.CommandsAreAllOrNothing : Prop :=
  (∀ (i : Instr) (s t : State), exec i s = .next t →
    (t.result = some .rejected ∧ t.phase = .idle ∧ t.trace = s.trace ∧ t.stepNo = s.stepNo) ∨
    (t.result = some .success ∧ t.phase = .idle ∧ ∃ es, t.trace = s.trace ++ es ∧ t.stepNo = s.stepNo + es.length ∧
      es.map Event.kind = commandKinds s.cfg i) ∨
    (t.result = none ∧ t.phase = .idle ∧ t.stepNo = 0 ∧ ∃ n, n ≤ 10 ∧ (turnAt s.turns n).reset ≠ none ∧
      (∀ k, k < n → (turnAt s.turns k).reset = none) ∧ t.trace.length = s.trace.length + n)) ∧
  ∀ (i : Instr) (s : State) (f : Fault), exec i s = .fault f → ∃ a m, f = .busAccessStuck a m

/-- A pin command reaches no address but the pin controller's registers, thirteen at the defaults of R6 (R33, R42), whatever
the environment does. -/
def Obligations.PinCommandsReachOnlyTheirRegisters : Prop :=
  ∀ (i : Instr) (s t : State), (∀ a b c d e, i ≠ .writeField a b c d e) → exec i s = .next t →
    ∃ es, t.trace = s.trace ++ es ∧ ∀ e, e ∈ es → ∀ a, e.addr? = some a → a ∈ registers s.cfg

/-! ### The pin controller (10_state.md, 20_memory.md) -/

/-- What a write does at a set, a clear and a clock-enable register: the valid pins whose bits are 1 are driven high, driven
low, or latch the mode in PUD; every other latch and all memory is as before but the clock-enable register, which holds the
word (R24, R25, R27, R40). A write at any other address changes that word alone (R51). The latch at the moment of the write
is D32's (log entry 9); a `BIT_WIDTH` that is not 1 is log entry 26. -/
def Obligations.WritesDriveTheirPins : Prop :=
  (∀ (c : Config) (t : Target) (v : Word) (n q : Nat) (b : Bool), c.WellFormed → n < bankCount c →
    b = decide (q ≤ c.maxPin.toNat ∧ q / pinsPerBank c = n ∧
      v.getLsbD (fieldShift q c.bitWidth.toNat) = true) →
    (∀ u, u = t.write c (member c.setBase n) v → u.mem = t.mem ∧ u.pulls = t.pulls ∧ u.epoch = t.epoch ∧
      pinLevel u q = if b then true else pinLevel t q) ∧
    (∀ u, u = t.write c (member c.clrBase n) v → u.mem = t.mem ∧ u.pulls = t.pulls ∧ u.epoch = t.epoch ∧
      pinLevel u q = if b then false else pinLevel t q) ∧
    (∀ u, u = t.write c (member c.pudclkBase n) v → u.levels = t.levels ∧ u.epoch = t.epoch ∧
      u.wordAt (member c.pudclkBase n) = v ∧
      (∀ x, OutsideWord (member c.pudclkBase n) x → u.byteAt x = t.byteAt x) ∧
      u.wordAt c.pudAddr = t.wordAt c.pudAddr ∧
      pinPull c u q = if b then t.wordAt c.pudAddr &&& maskWord c.pudWidth.toNat else pinPull c t q) ∧
    (c.AtDefaults → pinsPerBank c = 32 ∧ fieldShift q c.bitWidth.toNat = q % 32 ∧ maskWord c.pudWidth.toNat = 3)) ∧
  ∀ (c : Config) (t u : Target) (a v : Word),
    (∀ n, n < bankCount c → a ≠ member c.setBase n ∧ a ≠ member c.clrBase n ∧ a ≠ member c.pudclkBase n) →
    u = t.write c a v → u.levels = t.levels ∧ u.pulls = t.pulls ∧ u.epoch = t.epoch ∧ u.wordAt a = v ∧
      ∀ x, OutsideWord a x → u.byteAt x = t.byteAt x

/-- The registers that can be read hold the last word written, and a read of them changes nothing; a read of a set or clear
register is a draw (R24, R25, R51). -/
def Obligations.ReadsGiveTheLastWordWritten : Prop :=
  ∀ (c : Config) (t : Target) (a v : Word) (n : Nat), c.WellFormed →
    (n < fselCount c ∧ a = member c.fselBase n ∨ a = c.pudAddr ∨ n < bankCount c ∧ a = member c.pudclkBase n →
      (t.write c a v).read c a = (v, t.write c a v)) ∧
    (n < bankCount c ∧ (a = member c.setBase n ∨ a = member c.clrBase n) →
      (t.read c a).1 = Config.readDraw t.draws ∧ (t.read c a).2 = { t with draws := t.draws + 1 }) ∧
    (c.AtDefaults → fselCount c = 6 ∧ bankCount c = 2)

/-! ### The assembler (30_encoding.md) -/

/-- R60: the pseudo-commands' expansions. -/
def Obligations.PseudoCommandsExpand : Prop :=
  ∀ p i v b m : Nat, assemble (.driveHigh p) = assemble (.drive p 1) ∧
    assemble (.driveLow p) = assemble (.drive p 0) ∧ assemble (.pullNone p) = assemble (.setPull p 0) ∧
    assemble (.pullDown p) = assemble (.setPull p 1) ∧ assemble (.pullUp p) = assemble (.setPull p 2) ∧
    assemble (.setInput p) = assemble (.setFunction p 0) ∧ assemble (.setOutput p) = assemble (.setFunction p 1) ∧
    assemble (.writeBit i v b m) = assemble (.writeField i v b 1 m)

/-- A line assembles exactly when every literal is in 0 .. 2^32 - 1, and no literal is truncated: each command line
assembles to its command with the very numbers written, each in its place (R59, R61). -/
def Obligations.LiteralsOutOfRangeAreRefused : Prop :=
  (∀ l : AsmLine, (assemble l).isSome = true ↔ ∀ n ∈ l.literals, n < 2 ^ 32) ∧
  (∀ (i v b w m : Nat) (c : Instr), assemble (.writeField i v b w m) = some c → ∃ i' v' b' w' m',
    c = .writeField i' v' b' w' m' ∧ i'.toNat = i ∧ v'.toNat = v ∧ b'.toNat = b ∧ w'.toNat = w ∧ m'.toNat = m) ∧
  (∀ (p f : Nat) (c : Instr), assemble (.setFunction p f) = some c →
    ∃ x y, c = .setFunction x y ∧ x.toNat = p ∧ y.toNat = f) ∧
  (∀ (p l : Nat) (c : Instr), assemble (.drive p l) = some c → ∃ x y, c = .drive x y ∧ x.toNat = p ∧ y.toNat = l) ∧
  ∀ (p m : Nat) (c : Instr), assemble (.setPull p m) = some c → ∃ x y, c = .setPull x y ∧ x.toNat = p ∧ y.toNat = m

/-! ### The environment, reset of the pin controller, parameters -/

/-- What other masters' writes do at the target: each in its order, an aligned one as any write there, a misaligned one
nothing, since the bus port admits aligned words alone (R36, R39). That such a write reaches nothing is the model's choice:
log entry 21. -/
def Obligations.OtherMastersWritesReachTheTarget : Prop :=
  ∀ (c : Config) (t : Target), t.foreignWrites c [] = t ∧ ∀ (w : BusWrite) (ws : List BusWrite),
    t.foreignWrites c (w :: ws) =
      (if w.addr.toNat % 4 = 0 then t.write c w.addr w.data else t).foreignWrites c ws

/-- What an admitted read gives: the answer of its turn, whatever it is; and where the target answers, a draw at a set or
clear register, and at every other address the word there after the other masters' writes (R24, R25, R39, R51; log entry 8). -/
def Obligations.ReadsAreAnsweredByTheEnvironment : Prop :=
  ∀ (a : Word) (s : State), Aligned a → s.Undisturbed 1 →
    ∃ d t, memRead a s = .go d t ∧ d = s.nextAnswer a ∧ t.trace = s.trace ++ [.rd a d] ∧ t.stepNo = s.stepNo + 1 ∧
      (∀ x, (turnAt s.turns 0).answer = some x →
        d = x ∧ t.target = s.target.foreignWrites s.cfg (turnAt s.turns 0).writes) ∧
      ((turnAt s.turns 0).answer = none → s.cfg.WellFormed →
        (∀ n, n < bankCount s.cfg → (a = member s.cfg.setBase n ∨ a = member s.cfg.clrBase n) →
          d = Config.readDraw s.target.draws ∧ t.target.draws = s.target.draws + 1) ∧
        ((∀ n, n < bankCount s.cfg → a ≠ member s.cfg.setBase n ∧ a ≠ member s.cfg.clrBase n) →
          d = (s.target.foreignWrites s.cfg (turnAt s.turns 0).writes).wordAt a ∧
          t.target = s.target.foreignWrites s.cfg (turnAt s.turns 0).writes))

/-- What a reset does to the bus target: one of the block alone leaves it; one with the pin controller leaves the free
contents of the next power-up in every byte and every latch (R32, R101; log entries 6, 8, 10). The two kinds, and that the other addresses lose
their contents with the pin controller's registers, are the model's choice: log entry 12. -/
def Obligations.ResetOfThePinController : Prop :=
  ∀ t : Target, t.reset .blockOnly = t ∧ ∀ u, u = t.reset .withPinController →
    u.epoch = t.epoch + 1 ∧ u.draws = t.draws ∧ (∀ x, u.byteAt x = Config.periphReset (t.epoch + 1) x) ∧
    (∀ p, pinLevel u p = Config.levelReset (t.epoch + 1) p) ∧
    ∀ (c : Config) (p : Nat), pinPull c u p = Config.pullReset (t.epoch + 1) p &&& maskWord c.pudWidth.toNat

/-- The parameters' defaults (R6), and the register counts and addresses they give (R8, R42). -/
def Obligations.ParametersAndTheirDefaults : Prop :=
  (∀ f s r p k : Word, ∀ c : Config,
    c = { fselBase := f, setBase := s, clrBase := r, pudAddr := p, pudclkBase := k } →
    c.AtDefaults ∧ c.word = 32 ∧ c.addrWidth = 32 ∧ c.pullSettle = 150 ∧ c.pullStep1 = .requestedMode ∧
      c.pullClear = .wordWrite) ∧
  ∀ c : Config, c.AtDefaults → c.numPins = 54 ∧ fselCount c = 6 ∧ bankCount c = 2 ∧ pinsPerBank c = 32 ∧
    registers c = [c.fselBase, c.fselBase + 4, c.fselBase + 8, c.fselBase + 12, c.fselBase + 16, c.fselBase + 20,
      c.setBase, c.setBase + 4, c.clrBase, c.clrBase + 4, c.pudAddr, c.pudclkBase, c.pudclkBase + 4]
end

