-- ==== Sys2Proof/Laws/State.lean ====
section
/-! SUPPORT. One lemma per field per named update of the state and of the bus target. -/

namespace Sys2Proof.Machine

open Sys2Proof

/-- What a reader of RESULT gets is settled by the register and the window of R18. -/
theorem State.result_eq {s t : State} (h : t.resultReg = s.resultReg) (h' : t.responded = s.responded) :
    t.result = s.result := by rw [State.result, State.result, h, h']

theorem State.result_some_iff {s : State} {r : Result} :
    s.result = some r ↔ s.responded = true ∧ s.resultReg = r := by
  unfold State.result
  split <;> simp_all

theorem State.result_none_iff {s : State} : s.result = none ↔ s.responded = false := by
  unfold State.result
  split <;> simp_all

@[simp] theorem accept_cfg (r : Request) (s : State) : (accept r s).cfg = s.cfg := rfl
@[simp] theorem accept_cmd (r : Request) (s : State) : (accept r s).cmd = r := rfl
@[simp] theorem accept_result (r : Request) (s : State) : (accept r s).result = s.result := rfl
@[simp] theorem accept_resultReg (r : Request) (s : State) : (accept r s).resultReg = s.resultReg := rfl
@[simp] theorem accept_responded (r : Request) (s : State) : (accept r s).responded = s.responded := rfl
@[simp] theorem accept_phase (r : Request) (s : State) : (accept r s).phase = .busy := rfl
@[simp] theorem accept_stepNo (r : Request) (s : State) : (accept r s).stepNo = 0 := rfl
@[simp] theorem accept_rmw (r : Request) (s : State) : (accept r s).rmw = s.rmw := rfl
@[simp] theorem accept_trace (r : Request) (s : State) : (accept r s).trace = [] := rfl
@[simp] theorem accept_cause (r : Request) (s : State) : (accept r s).cause = s.cause := rfl
@[simp] theorem accept_target (r : Request) (s : State) : (accept r s).target = s.target := rfl
@[simp] theorem accept_inputs (r : Request) (s : State) : (accept r s).inputs = s.inputs := rfl
@[simp] theorem accept_turns (r : Request) (s : State) : (accept r s).turns = s.turns := rfl
@[simp] theorem accept_received (r : Request) (s : State) : (accept r s).received = s.received := rfl

@[simp] theorem State.completed_cfg (e : Event) (s : State) : (State.completed e s).cfg = s.cfg := rfl
@[simp] theorem State.completed_cmd (e : Event) (s : State) : (State.completed e s).cmd = s.cmd := rfl
@[simp] theorem State.completed_result (e : Event) (s : State) : (State.completed e s).result = s.result := rfl
@[simp] theorem State.completed_resultReg (e : Event) (s : State) : (State.completed e s).resultReg = s.resultReg := rfl
@[simp] theorem State.completed_responded (e : Event) (s : State) : (State.completed e s).responded = s.responded := rfl
@[simp] theorem State.completed_phase (e : Event) (s : State) : (State.completed e s).phase = s.phase := rfl
@[simp] theorem State.completed_stepNo (e : Event) (s : State) : (State.completed e s).stepNo = s.stepNo + 1 := rfl
@[simp] theorem State.completed_rmw (e : Event) (s : State) : (State.completed e s).rmw = s.rmw := rfl
@[simp] theorem State.completed_trace (e : Event) (s : State) : (State.completed e s).trace = s.trace ++ [e] := rfl
@[simp] theorem State.completed_cause (e : Event) (s : State) : (State.completed e s).cause = s.cause := rfl
@[simp] theorem State.completed_target (e : Event) (s : State) : (State.completed e s).target = s.target := rfl
@[simp] theorem State.completed_inputs (e : Event) (s : State) : (State.completed e s).inputs = s.inputs := rfl
@[simp] theorem State.completed_turns (e : Event) (s : State) : (State.completed e s).turns = s.turns := rfl
@[simp] theorem State.completed_received (e : Event) (s : State) : (State.completed e s).received = s.received := rfl

@[simp] theorem State.withTarget_cfg (t : Target) (s : State) : (s.withTarget t).cfg = s.cfg := rfl
@[simp] theorem State.withTarget_cmd (t : Target) (s : State) : (s.withTarget t).cmd = s.cmd := rfl
@[simp] theorem State.withTarget_result (t : Target) (s : State) : (s.withTarget t).result = s.result := rfl
@[simp] theorem State.withTarget_resultReg (t : Target) (s : State) : (s.withTarget t).resultReg = s.resultReg := rfl
@[simp] theorem State.withTarget_responded (t : Target) (s : State) : (s.withTarget t).responded = s.responded := rfl
@[simp] theorem State.withTarget_phase (t : Target) (s : State) : (s.withTarget t).phase = s.phase := rfl
@[simp] theorem State.withTarget_stepNo (t : Target) (s : State) : (s.withTarget t).stepNo = s.stepNo := rfl
@[simp] theorem State.withTarget_rmw (t : Target) (s : State) : (s.withTarget t).rmw = s.rmw := rfl
@[simp] theorem State.withTarget_trace (t : Target) (s : State) : (s.withTarget t).trace = s.trace := rfl
@[simp] theorem State.withTarget_cause (t : Target) (s : State) : (s.withTarget t).cause = s.cause := rfl
@[simp] theorem State.withTarget_target (t : Target) (s : State) : (s.withTarget t).target = t := rfl
@[simp] theorem State.withTarget_inputs (t : Target) (s : State) : (s.withTarget t).inputs = s.inputs := rfl
@[simp] theorem State.withTarget_turns (t : Target) (s : State) : (s.withTarget t).turns = s.turns := rfl
@[simp] theorem State.withTarget_received (t : Target) (s : State) : (s.withTarget t).received = s.received := rfl

@[simp] theorem State.withLatches_cfg (l : Option Latches) (s : State) : (s.withLatches l).cfg = s.cfg := rfl
@[simp] theorem State.withLatches_cmd (l : Option Latches) (s : State) : (s.withLatches l).cmd = s.cmd := rfl
@[simp] theorem State.withLatches_result (l : Option Latches) (s : State) : (s.withLatches l).result = s.result := rfl
@[simp] theorem State.withLatches_resultReg (l : Option Latches) (s : State) :
    (s.withLatches l).resultReg = s.resultReg := rfl
@[simp] theorem State.withLatches_responded (l : Option Latches) (s : State) :
    (s.withLatches l).responded = s.responded := rfl
@[simp] theorem State.withLatches_phase (l : Option Latches) (s : State) : (s.withLatches l).phase = s.phase := rfl
@[simp] theorem State.withLatches_stepNo (l : Option Latches) (s : State) : (s.withLatches l).stepNo = s.stepNo := rfl
@[simp] theorem State.withLatches_rmw (l : Option Latches) (s : State) : (s.withLatches l).rmw = l := rfl
@[simp] theorem State.withLatches_trace (l : Option Latches) (s : State) : (s.withLatches l).trace = s.trace := rfl
@[simp] theorem State.withLatches_cause (l : Option Latches) (s : State) : (s.withLatches l).cause = s.cause := rfl
@[simp] theorem State.withLatches_target (l : Option Latches) (s : State) : (s.withLatches l).target = s.target := rfl
@[simp] theorem State.withLatches_inputs (l : Option Latches) (s : State) : (s.withLatches l).inputs = s.inputs := rfl
@[simp] theorem State.withLatches_turns (l : Option Latches) (s : State) : (s.withLatches l).turns = s.turns := rfl
@[simp] theorem State.withLatches_received (l : Option Latches) (s : State) : (s.withLatches l).received = s.received := rfl

@[simp] theorem State.answered_cfg (v : Verdict) (s : State) : (s.answered v).cfg = s.cfg := rfl
@[simp] theorem State.answered_cmd (v : Verdict) (s : State) : (s.answered v).cmd = s.cmd := rfl
@[simp] theorem State.answered_result (v : Verdict) (s : State) : (s.answered v).result = some v.result := rfl
@[simp] theorem State.answered_resultReg (v : Verdict) (s : State) : (s.answered v).resultReg = v.result := rfl
@[simp] theorem State.answered_responded (v : Verdict) (s : State) : (s.answered v).responded = true := rfl
@[simp] theorem State.answered_phase (v : Verdict) (s : State) : (s.answered v).phase = .idle := rfl
@[simp] theorem State.answered_stepNo (v : Verdict) (s : State) : (s.answered v).stepNo = s.stepNo := rfl
@[simp] theorem State.answered_rmw (v : Verdict) (s : State) : (s.answered v).rmw = s.rmw := rfl
@[simp] theorem State.answered_trace (v : Verdict) (s : State) : (s.answered v).trace = s.trace := rfl
@[simp] theorem State.answered_cause (v : Verdict) (s : State) : (s.answered v).cause = v.cause := rfl
@[simp] theorem State.answered_target (v : Verdict) (s : State) : (s.answered v).target = s.target := rfl
@[simp] theorem State.answered_inputs (v : Verdict) (s : State) : (s.answered v).inputs = s.inputs := rfl
@[simp] theorem State.answered_turns (v : Verdict) (s : State) : (s.answered v).turns = s.turns := rfl
@[simp] theorem State.answered_received (v : Verdict) (s : State) : (s.answered v).received = s.received := rfl

@[simp] theorem resetBlock_cfg (k : ResetKind) (s : State) : (resetBlock k s).cfg = s.cfg := rfl
@[simp] theorem resetBlock_cmd (k : ResetKind) (s : State) : (resetBlock k s).cmd = Request.atReset := rfl
@[simp] theorem resetBlock_result (k : ResetKind) (s : State) : (resetBlock k s).result = none := rfl
@[simp] theorem resetBlock_resultReg (k : ResetKind) (s : State) : (resetBlock k s).resultReg = Result.atReset := rfl
@[simp] theorem resetBlock_responded (k : ResetKind) (s : State) : (resetBlock k s).responded = false := rfl
@[simp] theorem resetBlock_phase (k : ResetKind) (s : State) : (resetBlock k s).phase = .idle := rfl
@[simp] theorem resetBlock_stepNo (k : ResetKind) (s : State) : (resetBlock k s).stepNo = 0 := rfl
@[simp] theorem resetBlock_rmw (k : ResetKind) (s : State) : (resetBlock k s).rmw = none := rfl
@[simp] theorem resetBlock_trace (k : ResetKind) (s : State) : (resetBlock k s).trace = s.trace := rfl
@[simp] theorem resetBlock_cause (k : ResetKind) (s : State) : (resetBlock k s).cause = none := rfl
@[simp] theorem resetBlock_target (k : ResetKind) (s : State) : (resetBlock k s).target = s.target.reset k := rfl
@[simp] theorem resetBlock_inputs (k : ResetKind) (s : State) : (resetBlock k s).inputs = s.inputs := rfl
@[simp] theorem resetBlock_turns (k : ResetKind) (s : State) : (resetBlock k s).turns = s.turns := rfl
@[simp] theorem resetBlock_received (k : ResetKind) (s : State) : (resetBlock k s).received = s.received := rfl

@[simp] theorem State.withFetchWord_cfg (s : State) (n w : Nat) : (s.withFetchWord n w).cfg = s.cfg := rfl
@[simp] theorem State.withFetchWord_cmd (s : State) (n w : Nat) : (s.withFetchWord n w).cmd = s.cmd := rfl
@[simp] theorem State.withFetchWord_result (s : State) (n w : Nat) : (s.withFetchWord n w).result = s.result := rfl
@[simp] theorem State.withFetchWord_resultReg (s : State) (n w : Nat) :
    (s.withFetchWord n w).resultReg = s.resultReg := rfl
@[simp] theorem State.withFetchWord_responded (s : State) (n w : Nat) :
    (s.withFetchWord n w).responded = s.responded := rfl
@[simp] theorem State.withFetchWord_phase (s : State) (n w : Nat) : (s.withFetchWord n w).phase = .idle := rfl
@[simp] theorem State.withFetchWord_stepNo (s : State) (n w : Nat) : (s.withFetchWord n w).stepNo = s.stepNo := rfl
@[simp] theorem State.withFetchWord_rmw (s : State) (n w : Nat) : (s.withFetchWord n w).rmw = s.rmw := rfl
@[simp] theorem State.withFetchWord_trace (s : State) (n w : Nat) : (s.withFetchWord n w).trace = s.trace := rfl
@[simp] theorem State.withFetchWord_cause (s : State) (n w : Nat) : (s.withFetchWord n w).cause = s.cause := rfl
@[simp] theorem State.withFetchWord_target (s : State) (n w : Nat) : (s.withFetchWord n w).target = s.target := rfl
@[simp] theorem State.withFetchWord_inputs (s : State) (n w : Nat) :
    (s.withFetchWord n w).inputs = .request (tableReq n w) :: s.inputs := rfl
@[simp] theorem State.withFetchWord_turns (s : State) (n w : Nat) : (s.withFetchWord n w).turns = s.turns := rfl
@[simp] theorem State.withFetchWord_received (s : State) (n w : Nat) :
    (s.withFetchWord n w).received = s.received := rfl

@[simp] theorem State.hideCmd_cfg (s : State) : (s.hideCmd).cfg = s.cfg := rfl
@[simp] theorem State.hideCmd_cmd (s : State) : (s.hideCmd).cmd = Request.atReset := rfl
@[simp] theorem State.hideCmd_result (s : State) : (s.hideCmd).result = s.result := rfl
@[simp] theorem State.hideCmd_resultReg (s : State) : (s.hideCmd).resultReg = s.resultReg := rfl
@[simp] theorem State.hideCmd_responded (s : State) : (s.hideCmd).responded = s.responded := rfl
@[simp] theorem State.hideCmd_phase (s : State) : (s.hideCmd).phase = s.phase := rfl
@[simp] theorem State.hideCmd_stepNo (s : State) : (s.hideCmd).stepNo = s.stepNo := rfl
@[simp] theorem State.hideCmd_rmw (s : State) : (s.hideCmd).rmw = s.rmw := rfl
@[simp] theorem State.hideCmd_trace (s : State) : (s.hideCmd).trace = s.trace := rfl
@[simp] theorem State.hideCmd_cause (s : State) : (s.hideCmd).cause = s.cause := rfl
@[simp] theorem State.hideCmd_target (s : State) : (s.hideCmd).target = s.target := rfl
@[simp] theorem State.hideCmd_inputs (s : State) : (s.hideCmd).inputs = s.inputs := rfl
@[simp] theorem State.hideCmd_turns (s : State) : (s.hideCmd).turns = s.turns := rfl
@[simp] theorem State.hideCmd_received (s : State) : (s.hideCmd).received = s.received := rfl

@[simp] theorem Target.putWord_mem (a v : Word) (t : Target) :
    (Target.putWord a v t).mem = Memory.setWord t.mem a.toNat v := rfl
@[simp] theorem Target.putWord_levels (a v : Word) (t : Target) : (Target.putWord a v t).levels = t.levels := rfl
@[simp] theorem Target.putWord_pulls (a v : Word) (t : Target) : (Target.putWord a v t).pulls = t.pulls := rfl
@[simp] theorem Target.putWord_epoch (a v : Word) (t : Target) : (Target.putWord a v t).epoch = t.epoch := rfl
@[simp] theorem Target.putWord_draws (a v : Word) (t : Target) : (Target.putWord a v t).draws = t.draws := rfl

@[simp] theorem Target.setLevels_mem (c : Config) (n : Nat) (v : Word) (t : Target) :
    (Target.setLevels c n v t).mem = t.mem := rfl
@[simp] theorem Target.setLevels_levels (c : Config) (n : Nat) (v : Word) (t : Target) :
    (Target.setLevels c n v t).levels = latchPins c n v true t.levels := rfl
@[simp] theorem Target.setLevels_pulls (c : Config) (n : Nat) (v : Word) (t : Target) :
    (Target.setLevels c n v t).pulls = t.pulls := rfl
@[simp] theorem Target.setLevels_epoch (c : Config) (n : Nat) (v : Word) (t : Target) :
    (Target.setLevels c n v t).epoch = t.epoch := rfl
@[simp] theorem Target.setLevels_draws (c : Config) (n : Nat) (v : Word) (t : Target) :
    (Target.setLevels c n v t).draws = t.draws := rfl

@[simp] theorem Target.clearLevels_mem (c : Config) (n : Nat) (v : Word) (t : Target) :
    (Target.clearLevels c n v t).mem = t.mem := rfl
@[simp] theorem Target.clearLevels_levels (c : Config) (n : Nat) (v : Word) (t : Target) :
    (Target.clearLevels c n v t).levels = latchPins c n v false t.levels := rfl
@[simp] theorem Target.clearLevels_pulls (c : Config) (n : Nat) (v : Word) (t : Target) :
    (Target.clearLevels c n v t).pulls = t.pulls := rfl
@[simp] theorem Target.clearLevels_epoch (c : Config) (n : Nat) (v : Word) (t : Target) :
    (Target.clearLevels c n v t).epoch = t.epoch := rfl
@[simp] theorem Target.clearLevels_draws (c : Config) (n : Nat) (v : Word) (t : Target) :
    (Target.clearLevels c n v t).draws = t.draws := rfl

@[simp] theorem Target.latchPulls_mem (c : Config) (n : Nat) (v : Word) (t : Target) :
    (Target.latchPulls c n v t).mem = t.mem := rfl
@[simp] theorem Target.latchPulls_levels (c : Config) (n : Nat) (v : Word) (t : Target) :
    (Target.latchPulls c n v t).levels = t.levels := rfl
@[simp] theorem Target.latchPulls_pulls (c : Config) (n : Nat) (v : Word) (t : Target) :
    (Target.latchPulls c n v t).pulls = latchPins c n v (t.pudMode c) t.pulls := rfl
@[simp] theorem Target.latchPulls_epoch (c : Config) (n : Nat) (v : Word) (t : Target) :
    (Target.latchPulls c n v t).epoch = t.epoch := rfl
@[simp] theorem Target.latchPulls_draws (c : Config) (n : Nat) (v : Word) (t : Target) :
    (Target.latchPulls c n v t).draws = t.draws := rfl

@[simp] theorem Target.powerUp_mem (e d : Nat) : (Target.powerUp e d).mem = [] := rfl
@[simp] theorem Target.powerUp_levels (e d : Nat) : (Target.powerUp e d).levels = [] := rfl
@[simp] theorem Target.powerUp_pulls (e d : Nat) : (Target.powerUp e d).pulls = [] := rfl
@[simp] theorem Target.powerUp_epoch (e d : Nat) : (Target.powerUp e d).epoch = e := rfl
@[simp] theorem Target.powerUp_draws (e d : Nat) : (Target.powerUp e d).draws = d := rfl

end Sys2Proof.Machine
end

