-- ==== Sys2Proof/Laws/Memory.lean ====
section
/-! SUPPORT. Laws of cells and memory: read after write, the canonical form kept by every operation, equal cells are equal
data. -/

namespace Sys2Proof.Machine

open Sys2Proof

/-! ### Cells -/

theorem Cells.get?_put {α : Type} (l : Cells α) (a x : Nat) (b : α) :
    Cells.get? (Cells.put l a b) x = if x = a then some b else Cells.get? l x := by
  induction l with
  | nil => simp [Cells.put, Cells.get?, eq_comm]
  | cons c rest ih =>
    obtain ⟨k, v⟩ := c
    simp only [Cells.put]
    split
    · simp [Cells.get?, eq_comm]
    · split
      · subst_vars; simp only [Cells.get?]; split <;> simp_all [eq_comm]
      · simp only [Cells.get?, ih]; split <;> split <;> simp_all

/-- Every cell of the new list is the one put or was there before. -/
theorem Cells.mem_put {α : Type} {l : Cells α} {a : Nat} {b : α} {c : Nat × α} (h : c ∈ Cells.put l a b) :
    c = (a, b) ∨ c ∈ l := by
  induction l with
  | nil => simp_all [Cells.put]
  | cons d rest ih =>
    obtain ⟨k, v⟩ := d
    simp only [Cells.put] at h
    split at h
    · simpa using h
    · split at h
      · rcases List.mem_cons.1 h with h | h <;> simp [h]
      · rcases List.mem_cons.1 h with h | h
        · simp [h]
        · rcases ih h with h | h <;> simp [h]

/-- The canonical form is kept. -/
theorem Cells.put_rising {α : Type} {l : Cells α} (a : Nat) (b : α) (h : Cells.Rising l) :
    Cells.Rising (Cells.put l a b) := by
  induction l with
  | nil => simp [Cells.put]
  | cons d rest ih =>
    obtain ⟨k, v⟩ := d
    rw [Cells.Rising, List.pairwise_cons] at h
    simp only [Cells.put]
    split
    · rename_i hk
      refine List.pairwise_cons.2 ⟨fun c hc => ?_, List.pairwise_cons.2 h⟩
      rcases List.mem_cons.1 hc with rfl | hc
      · exact hk
      · exact Nat.lt_trans hk (h.1 c hc)
    · split
      · subst_vars; exact List.pairwise_cons.2 h
      · refine List.pairwise_cons.2 ⟨fun c hc => ?_, ih h.2⟩
        rcases Cells.mem_put hc with rfl | hc
        · show k < a; omega
        · exact h.1 c hc

theorem Cells.get?_of_lt {α : Type} {m : Cells α} {a : Nat} (h : ∀ c ∈ m, a < c.1) : Cells.get? m a = none := by
  induction m with
  | nil => rfl
  | cons d rest ih =>
    obtain ⟨k, v⟩ := d
    have hk : a < k := h (k, v) (by simp)
    simp only [Cells.get?, if_neg (Nat.ne_of_gt hk)]
    exact ih fun c hc => h c (by simp [hc])

/-- Cells in canonical form that hold the same are the same data. -/
theorem Cells.ext_of_rising {α : Type} {m n : Cells α} (hm : Cells.Rising m) (hn : Cells.Rising n)
    (h : ∀ a, Cells.get? m a = Cells.get? n a) : m = n := by
  induction m generalizing n with
  | nil =>
    cases n with
    | nil => rfl
    | cons d rest => obtain ⟨k, v⟩ := d; have := h k; simp [Cells.get?] at this
  | cons c ms ih =>
    obtain ⟨k, v⟩ := c
    rw [Cells.Rising, List.pairwise_cons] at hm
    cases n with
    | nil => have := h k; simp [Cells.get?] at this
    | cons d ns =>
      obtain ⟨l, w⟩ := d
      rw [Cells.Rising, List.pairwise_cons] at hn
      have hk := h k
      have hl := h l
      have hlt : ∀ {k l : Nat} {w : α} {ns : Cells α}, k < l → (∀ c ∈ ns, l < c.1) →
          Cells.get? ((l, w) :: ns) k = none := fun hkl hns =>
        Cells.get?_of_lt fun c hc => by
          rcases List.mem_cons.1 hc with rfl | hc
          · exact hkl
          · exact Nat.lt_trans hkl (hns c hc)
      rcases Nat.lt_trichotomy k l with hkl | rfl | hkl
      · rw [hlt hkl hn.1] at hk; simp [Cells.get?] at hk
      · have hvw : v = w := by simpa [Cells.get?] using hk
        subst hvw
        congr 1
        refine ih hm.2 hn.2 (fun a => ?_)
        by_cases ha : k = a
        · subst ha
          rw [Cells.get?_of_lt (fun c hc => hm.1 c hc), Cells.get?_of_lt (fun c hc => hn.1 c hc)]
        · have := h a
          simpa [Cells.get?, ha] using this
      · rw [hlt hkl hm.1] at hl; simp [Cells.get?] at hl

/-! ### Memory -/

theorem Memory.get?_setWord (m : Memory) (a x : Nat) (v : Word) :
    Cells.get? (Memory.setWord m a v) x =
      if x = a + 3 then some (v.extractLsb' 24 8) else if x = a + 2 then some (v.extractLsb' 16 8)
      else if x = a + 1 then some (v.extractLsb' 8 8) else if x = a then some (v.extractLsb' 0 8)
      else Cells.get? m x := by
  simp only [Memory.setWord, Cells.get?_put]

theorem Memory.put_wf {m : Memory} {a : Nat} (b : Byte) (ha : a < 2 ^ 32) (h : Memory.wf m) :
    Memory.wf (Cells.put m a b) := by
  refine ⟨Cells.put_rising a b h.1, fun c hc => ?_⟩
  rcases Cells.mem_put hc with rfl | hc
  · exact ha
  · exact h.2 c hc

theorem Memory.setWord_wf {m : Memory} {a : Nat} (v : Word) (ha : a + 3 < 2 ^ 32) (h : Memory.wf m) :
    Memory.wf (Memory.setWord m a v) :=
  Memory.put_wf _ ha (Memory.put_wf _ (by omega) (Memory.put_wf _ (by omega)
    (Memory.put_wf _ (by omega) h)))

/-- A word at an aligned address lies below the top of the address space. -/
theorem Aligned.fits {a : Word} (h : Aligned a) : a.toNat + 3 < 2 ^ 32 := by
  have := a.isLt; simp only [Aligned] at h; omega

/-! ### Cells through the target -/

theorem Target.byteAt_putWord (t : Target) (a v : Word) (x : Nat) :
    (t.putWord a v).byteAt x =
      if x = a.toNat + 3 then v.extractLsb' 24 8 else if x = a.toNat + 2 then v.extractLsb' 16 8
      else if x = a.toNat + 1 then v.extractLsb' 8 8 else if x = a.toNat then v.extractLsb' 0 8
      else t.byteAt x := by
  simp only [Target.byteAt, Target.putWord_mem, Target.putWord_epoch, Memory.get?_setWord]
  repeat' split
  all_goals rfl

theorem Target.byteAt_putWord_outside (t : Target) {a : Word} (v : Word) {x : Nat} (h : OutsideWord a x) :
    (t.putWord a v).byteAt x = t.byteAt x := by
  rw [Target.byteAt_putWord, if_neg (by omega), if_neg (by omega), if_neg (by omega), if_neg (by omega)]

/-- A word is its four bytes. -/
theorem word_of_bytes (v : Word) :
    v.extractLsb' 24 8 ++ v.extractLsb' 16 8 ++ v.extractLsb' 8 8 ++ v.extractLsb' 0 8 = v := by
  apply BitVec.eq_of_getLsbD_eq
  intro i hi
  simp only [BitVec.getLsbD_append, BitVec.getLsbD_extractLsb']
  split
  · rename_i h; simp [h]
  · split
    · rename_i h _; simp [show i - 8 < 8 by omega, show 8 + (i - 8) = i by omega]
    · split
      · simp [show i - 8 - 8 < 8 by omega, show 16 + (i - 8 - 8) = i by omega]
      · simp [show i - 8 - 8 - 8 < 8 by omega, show 24 + (i - 8 - 8 - 8) = i by omega]

/-- Read after write: a word stored is the word read (R38). -/
theorem Target.wordAt_putWord_same (t : Target) (a v : Word) : (t.putWord a v).wordAt a = v := by
  simp only [Target.wordAt, Target.byteAt_putWord]
  simp (disch := omega) only [if_neg, if_true]
  exact word_of_bytes v

/-- A word stored leaves the word at every other aligned address (R38). -/
theorem Target.wordAt_putWord_other (t : Target) {a b : Word} (v : Word) (ha : Aligned a) (hb : Aligned b) (h : b ≠ a) :
    (t.putWord a v).wordAt b = t.wordAt b := by
  have hne : b.toNat ≠ a.toNat := fun e => h (BitVec.eq_of_toNat_eq e)
  simp only [Aligned] at ha hb
  simp only [Target.wordAt]
  rw [Target.byteAt_putWord_outside t v (by omega), Target.byteAt_putWord_outside t v (by omega),
    Target.byteAt_putWord_outside t v (by omega), Target.byteAt_putWord_outside t v (by omega)]

end Sys2Proof.Machine
end

