-- ==== Sys2Proof/Laws/Target.lean ====
section
/-! SUPPORT. Laws of register addresses and of the bus target: alignment, which register an address is, what a write does
there, and what every operation keeps. -/

namespace Sys2Proof.Machine

open Sys2Proof

/-! ### Addresses -/

theorem Aligned.ofNat_add {b : Word} (h : Aligned b) (k : Nat) : Aligned (BitVec.ofNat 32 (b.toNat + k * 4)) := by
  simp only [Aligned, BitVec.toNat_ofNat] at *; omega

theorem member_aligned {b : Word} (h : Aligned b) (n : Nat) : Aligned (member b n) := h.ofNat_add n

theorem regAddr_aligned {b : Word} (h : Aligned b) (i w : Nat) : Aligned (regAddr b i w) := h.ofNat_add _

theorem regAddr_aligned_iff (b : Word) (i w : Nat) : Aligned (regAddr b i w) ↔ Aligned b := by
  simp only [regAddr, Aligned, BitVec.toNat_ofNat]; omega

theorem fselAddr_aligned {c : Config} (h : Aligned c.fselBase) (p : Nat) : Aligned (fselAddr c p) := h.ofNat_add _

@[simp] theorem member_zero (b : Word) : member b 0 = b := by simp [member]

theorem regAddr_eq (b : Word) (i w : Nat) : regAddr b i w = member b (i / fieldsPerReg w) := rfl

theorem regAddr_first (b : Word) (w : Nat) : regAddr b 0 w = b := by simp [regAddr]

theorem fselAddr_eq (c : Config) (p : Nat) : fselAddr c p = member c.fselBase (p / c.fselPerReg) := rfl

theorem pinsPerBank_eq (c : Config) : pinsPerBank c = fieldsPerReg c.bitWidth.toNat := rfl

/-- Members of a group, but for those 2^30 apart, are different addresses. -/
theorem member_inj {b : Word} {m n : Nat} (hm : m < 2 ^ 30) (hn : n < 2 ^ 30) (h : member b m = member b n) : m = n := by
  have := congrArg BitVec.toNat h
  simp only [member, BitVec.toNat_ofNat] at this
  have := b.isLt
  omega

theorem member_sub (b : Word) {n : Nat} (h : n < 2 ^ 30) : (member b n - b).toNat = 4 * n := by
  have := b.isLt
  simp only [member, BitVec.toNat_sub, BitVec.toNat_ofNat]
  omega

/-- What a well-formed configuration's groups are: each of at most 2^30 distinct registers, and apart from one another
(R7). -/
structure Groups (c : Config) : Prop where
  fselCount : fselCount c ≤ 2 ^ 30
  bankCount : bankCount c ≤ 2 ^ 30
  fselSet : ∀ m n, m < Machine.fselCount c → n < Machine.bankCount c → member c.fselBase m ≠ member c.setBase n
  fselClr : ∀ m n, m < Machine.fselCount c → n < Machine.bankCount c → member c.fselBase m ≠ member c.clrBase n
  fselClk : ∀ m n, m < Machine.fselCount c → n < Machine.bankCount c → member c.fselBase m ≠ member c.pudclkBase n
  fselPud : ∀ m, m < Machine.fselCount c → member c.fselBase m ≠ c.pudAddr
  setClr : ∀ m n, m < Machine.bankCount c → n < Machine.bankCount c → member c.setBase m ≠ member c.clrBase n
  setClk : ∀ m n, m < Machine.bankCount c → n < Machine.bankCount c → member c.setBase m ≠ member c.pudclkBase n
  clrClk : ∀ m n, m < Machine.bankCount c → n < Machine.bankCount c → member c.clrBase m ≠ member c.pudclkBase n
  pudSet : ∀ n, n < Machine.bankCount c → c.pudAddr ≠ member c.setBase n
  pudClr : ∀ n, n < Machine.bankCount c → c.pudAddr ≠ member c.clrBase n
  pudClk : ∀ n, n < Machine.bankCount c → c.pudAddr ≠ member c.pudclkBase n

theorem count_le_of_nodup {b : Word} {n : Nat} (h : ((List.range n).map (member b)).Nodup) : n ≤ 2 ^ 30 := by
  by_contra hn
  have h0 := List.inj_on_of_nodup_map h (List.mem_range.2 (show 0 < n by omega))
    (List.mem_range.2 (show 2 ^ 30 < n by omega))
    (by have := b.isLt; apply BitVec.eq_of_toNat_eq; simp only [member, BitVec.toNat_ofNat]; omega)
  omega

theorem groups_of_wellFormed {c : Config} (h : c.WellFormed) : Groups c := by
  have h := h.2.2.2.2.2.2.1
  simp only [registers, List.nodup_append, List.mem_append, List.mem_map, List.mem_range, List.mem_singleton] at h
  obtain ⟨⟨⟨⟨hf, hs, hfs⟩, hr, hfr⟩, -, hp⟩, hk, hpk⟩ := h
  exact {
    fselCount := count_le_of_nodup hf
    bankCount := count_le_of_nodup hs
    fselSet := fun m n hm hn => hfs _ ⟨m, hm, rfl⟩ _ ⟨n, hn, rfl⟩
    fselClr := fun m n hm hn => hfr _ (.inl ⟨m, hm, rfl⟩) _ ⟨n, hn, rfl⟩
    fselClk := fun m n hm hn => hpk _ (.inl (.inl (.inl ⟨m, hm, rfl⟩))) _ ⟨n, hn, rfl⟩
    fselPud := fun m hm => hp _ (.inl (.inl ⟨m, hm, rfl⟩)) _ rfl
    setClr := fun m n hm hn => hfr _ (.inr ⟨m, hm, rfl⟩) _ ⟨n, hn, rfl⟩
    setClk := fun m n hm hn => hpk _ (.inl (.inl (.inr ⟨m, hm, rfl⟩))) _ ⟨n, hn, rfl⟩
    clrClk := fun m n hm hn => hpk _ (.inl (.inr ⟨m, hm, rfl⟩)) _ ⟨n, hn, rfl⟩
    pudSet := fun n hn => (hp _ (.inl (.inr ⟨n, hn, rfl⟩)) _ rfl).symm
    pudClr := fun n hn => (hp _ (.inr ⟨n, hn, rfl⟩) _ rfl).symm
    pudClk := fun n hn => hpk _ (.inr rfl) _ ⟨n, hn, rfl⟩ }

theorem fsel_inj {c : Config} (h : c.WellFormed) {m n : Nat} (hm : m < fselCount c) (hn : n < fselCount c)
    (e : member c.fselBase m = member c.fselBase n) : m = n :=
  have hc := (groups_of_wellFormed h).fselCount
  member_inj (by omega) (by omega) e

/-- Fields per register of a valid width (R62). -/
theorem fieldsPerReg_pos {w : Nat} (h : ValidWidth w) : 0 < fieldsPerReg w := Nat.div_pos h.2.1 h.1

theorem pinsPerBank_pos {c : Config} (h : c.WellFormed) : 0 < pinsPerBank c := fieldsPerReg_pos h.1.2.2.2.1

/-- The bank of a valid pin is a register of its group. -/
theorem bank_lt (c : Config) {p : Nat} (hp : p ≤ c.maxPin.toNat) : p / fieldsPerReg c.bitWidth.toNat < bankCount c :=
  Nat.lt_succ_of_le (Nat.div_le_div_right hp)

theorem fselBank_lt (c : Config) {p : Nat} (hp : p ≤ c.maxPin.toNat) : p / c.fselPerReg < fselCount c :=
  Nat.lt_succ_of_le (Nat.div_le_div_right hp)

theorem bankOf_some {c : Config} {base a : Word} {n : Nat} (h : bankOf c base a = some n) :
    n < bankCount c ∧ a = member base n := by
  unfold bankOf at h
  split at h
  · cases h
    refine ⟨And.right ‹_›, BitVec.eq_of_toNat_eq ?_⟩
    have h0 := And.left ‹(a - base).toNat % 4 = 0 ∧ _›
    have := a.isLt
    have := base.isLt
    simp only [member, BitVec.toNat_ofNat, BitVec.toNat_sub] at h0 ⊢
    omega
  · cases h

theorem bankOf_member {c : Config} (h : c.WellFormed) (base : Word) {n : Nat} (hn : n < bankCount c) :
    bankOf c base (member base n) = some n := by
  have := (groups_of_wellFormed h).bankCount
  simp only [bankOf, member_sub base (show n < 2 ^ 30 by omega)]
  rw [if_pos ⟨by omega, by omega⟩, show 4 * n / 4 = n by omega]

theorem bankOf_none {c : Config} {base a : Word} (h : ∀ n, n < bankCount c → a ≠ member base n) :
    bankOf c base a = none := by
  cases hb : bankOf c base a with
  | none => rfl
  | some n => exact (h n (bankOf_some hb).1 (bankOf_some hb).2).elim

/-! ### The pins' latches -/

/-- What is listed after some of the pins `f k` have taken `x`. -/
theorem Cells.get?_foldl_put {α : Type} (f : Nat → Nat) (P : Nat → Prop) [DecidablePred P] (x : α) (p : Nat)
    (ks : List Nat) (l : Cells α) :
    ((∃ k ∈ ks, P k ∧ p = f k) →
      Cells.get? (ks.foldl (fun l k => if P k then Cells.put l (f k) x else l) l) p = some x) ∧
    ((¬ ∃ k ∈ ks, P k ∧ p = f k) →
      Cells.get? (ks.foldl (fun l k => if P k then Cells.put l (f k) x else l) l) p = Cells.get? l p) := by
  induction ks generalizing l with
  | nil => simp
  | cons k ks ih =>
    simp only [List.foldl_cons]
    obtain ⟨ih1, ih2⟩ := ih (if P k then Cells.put l (f k) x else l)
    by_cases hks : ∃ j ∈ ks, P j ∧ p = f j
    · obtain ⟨j, hj, hp⟩ := hks
      exact ⟨fun _ => ih1 ⟨j, hj, hp⟩, fun hn => (hn ⟨j, by simp [hj], hp⟩).elim⟩
    · rw [ih2 hks]
      by_cases hk : P k
      · rw [if_pos hk, Cells.get?_put]
        refine ⟨?_, fun hn => if_neg fun e => hn ⟨k, by simp, hk, e⟩⟩
        rintro ⟨j, hj, hp⟩
        rcases List.mem_cons.1 hj with rfl | hj
        · exact if_pos hp.2
        · exact (hks ⟨j, hj, hp⟩).elim
      · rw [if_neg hk]
        refine ⟨?_, fun _ => rfl⟩
        rintro ⟨j, hj, hp⟩
        rcases List.mem_cons.1 hj with rfl | hj
        · exact (hk hp.1).elim
        · exact (hks ⟨j, hj, hp⟩).elim

/-- Everything `latchPins` does: the valid pins of the bank whose bits are 1 take `x`, every other pin keeps what it had. -/
theorem get?_latchPins {α : Type} {c : Config} (h : c.WellFormed) (n : Nat) (v : Word) (x : α) (l : Cells α) (p : Nat) :
    Cells.get? (latchPins c n v x l) p =
      if p ≤ c.maxPin.toNat ∧ p / pinsPerBank c = n ∧ v.getLsbD (fieldShift p c.bitWidth.toNat) = true then some x
      else Cells.get? l p := by
  have hpos := pinsPerBank_pos h
  obtain ⟨h1, h2⟩ := Cells.get?_foldl_put (fun k => n * pinsPerBank c + k)
    (fun k => n * pinsPerBank c + k < c.numPins ∧ v.getLsbD (k * c.bitWidth.toNat) = true) x p
    (List.range (pinsPerBank c)) l
  by_cases hp : p ≤ c.maxPin.toNat ∧ p / pinsPerBank c = n ∧ v.getLsbD (fieldShift p c.bitWidth.toNat) = true
  · rw [if_pos hp]
    obtain ⟨hp, rfl, hv⟩ := hp
    have hd : p / pinsPerBank c * pinsPerBank c + p % pinsPerBank c = p := by
      rw [Nat.mul_comm]; exact Nat.div_add_mod p _
    refine h1 ⟨p % pinsPerBank c, List.mem_range.2 (Nat.mod_lt _ hpos), ⟨?_, hv⟩, hd.symm⟩
    rw [hd]; exact Nat.lt_succ_of_le hp
  · rw [if_neg hp]
    refine h2 ?_
    rintro ⟨k, hk, ⟨hn, hv⟩, rfl⟩
    have hk := List.mem_range.1 hk
    refine hp ⟨Nat.le_of_lt_succ hn, ?_, ?_⟩
    · rw [Nat.mul_comm, Nat.mul_add_div hpos, Nat.div_eq_of_lt hk, Nat.add_zero]
    · rwa [fieldShift, ← pinsPerBank_eq, Nat.mul_comm n, Nat.mul_add_mod, Nat.mod_eq_of_lt hk]

/-- Latching keeps the canonical form, and lists valid pins alone, with what was listed before or `x`. -/
theorem latchPins_sound {α : Type} (c : Config) (n : Nat) (v : Word) (x : α) {l : Cells α} {P : α → Prop} (hx : P x)
    (h : Cells.Rising l ∧ ∀ y ∈ l, y.1 < c.numPins ∧ P y.2) :
    Cells.Rising (latchPins c n v x l) ∧ ∀ y ∈ latchPins c n v x l, y.1 < c.numPins ∧ P y.2 := by
  unfold latchPins
  induction List.range (pinsPerBank c) generalizing l with
  | nil => exact h
  | cons k ks ih =>
    rw [List.foldl_cons]
    refine ih ?_
    split
    · refine ⟨Cells.put_rising _ _ h.1, fun y hy => ?_⟩
      rcases Cells.mem_put hy with rfl | hy
      · exact ⟨And.left ‹_›, hx⟩
      · exact h.2 y hy
    · exact h

/-! ### What a write does at each register (R24 to R27, R40, R51) -/

theorem Target.write_set {c : Config} (h : c.WellFormed) (t : Target) (v : Word) {n : Nat} (hn : n < bankCount c) :
    t.write c (member c.setBase n) v = t.setLevels c n v := by
  simp only [Target.write, bankOf_member h _ hn]

theorem Target.write_clr {c : Config} (h : c.WellFormed) (t : Target) (v : Word) {n : Nat} (hn : n < bankCount c) :
    t.write c (member c.clrBase n) v = t.clearLevels c n v := by
  have hs : bankOf c c.setBase (member c.clrBase n) = none :=
    bankOf_none fun m hm => ((groups_of_wellFormed h).setClr m n hm hn).symm
  simp only [Target.write, hs, bankOf_member h _ hn]

theorem Target.write_clk {c : Config} (h : c.WellFormed) (t : Target) (v : Word) {n : Nat} (hn : n < bankCount c) :
    t.write c (member c.pudclkBase n) v = (t.putWord (member c.pudclkBase n) v).latchPulls c n v := by
  have hs : bankOf c c.setBase (member c.pudclkBase n) = none :=
    bankOf_none fun m hm => ((groups_of_wellFormed h).setClk m n hm hn).symm
  have hc : bankOf c c.clrBase (member c.pudclkBase n) = none :=
    bankOf_none fun m hm => ((groups_of_wellFormed h).clrClk m n hm hn).symm
  simp only [Target.write, hs, hc, bankOf_member h _ hn]

/-- An address that is no set, clear or clock-enable register is a plain cell. -/
theorem Target.write_plain {c : Config} (t : Target) {a : Word} (v : Word) (hs : bankOf c c.setBase a = none)
    (hc : bankOf c c.clrBase a = none) (hk : bankOf c c.pudclkBase a = none) : t.write c a v = t.putWord a v := by
  simp only [Target.write, hs, hc, hk]

theorem Target.write_pud {c : Config} (h : c.WellFormed) (t : Target) (v : Word) :
    t.write c c.pudAddr v = t.putWord c.pudAddr v :=
  t.write_plain v (bankOf_none (groups_of_wellFormed h).pudSet) (bankOf_none (groups_of_wellFormed h).pudClr)
    (bankOf_none (groups_of_wellFormed h).pudClk)

theorem Target.write_fsel {c : Config} (h : c.WellFormed) (t : Target) (v : Word) {n : Nat} (hn : n < fselCount c) :
    t.write c (member c.fselBase n) v = t.putWord (member c.fselBase n) v :=
  t.write_plain v (bankOf_none fun m hm => (groups_of_wellFormed h).fselSet n m hn hm)
    (bankOf_none fun m hm => (groups_of_wellFormed h).fselClr n m hn hm)
    (bankOf_none fun m hm => (groups_of_wellFormed h).fselClk n m hn hm)

/-- The cells are read from memory and the power-up in force alone. -/
theorem Target.byteAt_of_mem {t u : Target} (hm : u.mem = t.mem) (he : u.epoch = t.epoch) (x : Nat) :
    u.byteAt x = t.byteAt x := by simp only [Target.byteAt, hm, he]

theorem Target.wordAt_of_mem {t u : Target} (hm : u.mem = t.mem) (he : u.epoch = t.epoch) (a : Word) :
    u.wordAt a = t.wordAt a := by simp only [Target.wordAt, Target.byteAt_of_mem hm he]

@[simp] theorem Target.wordAt_setLevels (c : Config) (n : Nat) (v : Word) (t : Target) (a : Word) :
    (t.setLevels c n v).wordAt a = t.wordAt a := Target.wordAt_of_mem (by simp) (by simp) a
@[simp] theorem Target.wordAt_clearLevels (c : Config) (n : Nat) (v : Word) (t : Target) (a : Word) :
    (t.clearLevels c n v).wordAt a = t.wordAt a := Target.wordAt_of_mem (by simp) (by simp) a
@[simp] theorem Target.wordAt_latchPulls (c : Config) (n : Nat) (v : Word) (t : Target) (a : Word) :
    (t.latchPulls c n v).wordAt a = t.wordAt a := Target.wordAt_of_mem (by simp) (by simp) a

/-- Everything a write can do. -/
theorem Target.write_cases (c : Config) (a v : Word) (t : Target) :
    (∃ n, n < bankCount c ∧ a = member c.setBase n ∧ t.write c a v = t.setLevels c n v) ∨
    (∃ n, n < bankCount c ∧ a = member c.clrBase n ∧ t.write c a v = t.clearLevels c n v) ∨
    (∃ n, n < bankCount c ∧ a = member c.pudclkBase n ∧ t.write c a v = (t.putWord a v).latchPulls c n v) ∨
    t.write c a v = t.putWord a v := by
  cases hs : bankOf c c.setBase a with
  | some n => exact .inl ⟨n, (bankOf_some hs).1, (bankOf_some hs).2, by simp only [Target.write, hs]⟩
  | none =>
    cases hc : bankOf c c.clrBase a with
    | some n => exact .inr (.inl ⟨n, (bankOf_some hc).1, (bankOf_some hc).2, by simp only [Target.write, hs, hc]⟩)
    | none =>
      cases hk : bankOf c c.pudclkBase a with
      | some n =>
        exact .inr (.inr (.inl ⟨n, (bankOf_some hk).1, (bankOf_some hk).2, by simp only [Target.write, hs, hc, hk]⟩))
      | none => exact .inr (.inr (.inr (t.write_plain v hs hc hk)))

/-- An address that is no set or clear register holds the word written there (R51). -/
theorem Target.wordAt_write_same {c : Config} {a : Word} (v : Word) (t : Target) (hs : bankOf c c.setBase a = none)
    (hc : bankOf c c.clrBase a = none) : (t.write c a v).wordAt a = v := by
  cases hk : bankOf c c.pudclkBase a <;>
    simp only [Target.write, hs, hc, hk, Target.wordAt_latchPulls, Target.wordAt_putWord_same]

/-! ### Reads -/

theorem writeOnly_set {c : Config} (h : c.WellFormed) {n : Nat} (hn : n < bankCount c) :
    writeOnly c (member c.setBase n) = true := by simp [writeOnly, bankOf_member h _ hn]

theorem writeOnly_clr {c : Config} (h : c.WellFormed) {n : Nat} (hn : n < bankCount c) :
    writeOnly c (member c.clrBase n) = true := by simp [writeOnly, bankOf_member h _ hn]

theorem writeOnly_false {c : Config} {a : Word} (hs : ∀ n, n < bankCount c → a ≠ member c.setBase n)
    (hc : ∀ n, n < bankCount c → a ≠ member c.clrBase n) : writeOnly c a = false := by
  simp [writeOnly, bankOf_none hs, bankOf_none hc]

theorem writeOnly_pud {c : Config} (h : c.WellFormed) : writeOnly c c.pudAddr = false :=
  writeOnly_false (groups_of_wellFormed h).pudSet (groups_of_wellFormed h).pudClr

theorem writeOnly_clk {c : Config} (h : c.WellFormed) {n : Nat} (hn : n < bankCount c) :
    writeOnly c (member c.pudclkBase n) = false :=
  writeOnly_false (fun m hm => ((groups_of_wellFormed h).setClk m n hm hn).symm)
    fun m hm => ((groups_of_wellFormed h).clrClk m n hm hn).symm

theorem writeOnly_fsel {c : Config} (h : c.WellFormed) {n : Nat} (hn : n < fselCount c) :
    writeOnly c (member c.fselBase n) = false :=
  writeOnly_false (fun m hm => (groups_of_wellFormed h).fselSet n m hn hm)
    fun m hm => (groups_of_wellFormed h).fselClr n m hn hm

theorem Target.read_plain {c : Config} {a : Word} (t : Target) (h : writeOnly c a = false) :
    t.read c a = (t.wordAt a, t) := by simp [Target.read, h]

/-- A read changes nothing but the count of draws (R40). -/
theorem answerRead_frame (c : Config) (u : Turn) (a : Word) (t : Target) :
    (answerRead c u a t).2 = { t with draws := (answerRead c u a t).2.draws } := by
  unfold answerRead Target.read
  split
  · rfl
  · split <;> rfl

@[simp] theorem answerRead_mem (c : Config) (u : Turn) (a : Word) (t : Target) : (answerRead c u a t).2.mem = t.mem := by
  rw [answerRead_frame]
@[simp] theorem answerRead_levels (c : Config) (u : Turn) (a : Word) (t : Target) :
    (answerRead c u a t).2.levels = t.levels := by rw [answerRead_frame]
@[simp] theorem answerRead_pulls (c : Config) (u : Turn) (a : Word) (t : Target) :
    (answerRead c u a t).2.pulls = t.pulls := by rw [answerRead_frame]
@[simp] theorem answerRead_epoch (c : Config) (u : Turn) (a : Word) (t : Target) :
    (answerRead c u a t).2.epoch = t.epoch := by rw [answerRead_frame]
@[simp] theorem answerRead_byteAt (c : Config) (u : Turn) (a : Word) (t : Target) (x : Nat) :
    (answerRead c u a t).2.byteAt x = t.byteAt x := by simp only [Target.byteAt, answerRead_mem, answerRead_epoch]
@[simp] theorem answerRead_wordAt (c : Config) (u : Turn) (a : Word) (t : Target) (x : Word) :
    (answerRead c u a t).2.wordAt x = t.wordAt x := by simp only [Target.wordAt, answerRead_byteAt]

/-- A read of a plain cell that the target answers for gives the cell and changes nothing (R51). -/
theorem answerRead_plain {c : Config} {u : Turn} {a : Word} (t : Target) (hu : u.answer = none)
    (h : writeOnly c a = false) : answerRead c u a t = (t.wordAt a, t) := by
  simp [answerRead, hu, Target.read_plain t h]

/-! ### What every operation keeps -/

/-- The target's part of the invariant: canonical memory, written in whole words, and canonical latches of valid pins,
the pull latches with modes that fit. -/
structure Target.Sound (c : Config) (t : Target) : Prop where
  memory : Memory.wf t.mem
  wholeWords : ∀ a, (Cells.get? t.mem a).isSome = (Cells.get? t.mem (4 * (a / 4))).isSome
  levels : Cells.Rising t.levels ∧ ∀ x ∈ t.levels, x.1 < c.numPins
  pulls : Cells.Rising t.pulls ∧ ∀ x ∈ t.pulls, x.1 < c.numPins ∧ x.2.toNat ≤ fieldMask c.pudWidth.toNat

theorem Target.Sound.putWord {c : Config} {t : Target} (h : t.Sound c) {a : Word} (v : Word) (ha : Aligned a) :
    (t.putWord a v).Sound c := by
  refine ⟨Memory.setWord_wf v ha.fits h.memory, fun x => ?_, h.levels, h.pulls⟩
  have hx := h.wholeWords x
  simp only [Aligned] at ha
  simp only [Target.putWord_mem, Memory.get?_setWord]
  by_cases hin : 4 * (x / 4) = a.toNat
  · rw [if_neg (show ¬ 4 * (x / 4) = a.toNat + 3 by omega), if_neg (show ¬ 4 * (x / 4) = a.toNat + 2 by omega),
      if_neg (show ¬ 4 * (x / 4) = a.toNat + 1 by omega), if_pos hin]
    split
    · rfl
    · split
      · rfl
      · split
        · rfl
        · rw [if_pos (by omega)]
  · rw [if_neg (show ¬ x = a.toNat + 3 by omega), if_neg (show ¬ x = a.toNat + 2 by omega),
      if_neg (show ¬ x = a.toNat + 1 by omega), if_neg (show ¬ x = a.toNat by omega),
      if_neg (show ¬ 4 * (x / 4) = a.toNat + 3 by omega), if_neg (show ¬ 4 * (x / 4) = a.toNat + 2 by omega),
      if_neg (show ¬ 4 * (x / 4) = a.toNat + 1 by omega), if_neg hin]
    exact hx

/-- The mode PUD holds fits its field. -/
theorem Target.pudMode_le (c : Config) (t : Target) : (t.pudMode c).toNat ≤ fieldMask c.pudWidth.toNat := by
  rw [Target.pudMode, fieldValue, maskWord, BitVec.toNat_and, BitVec.toNat_ofNat]
  exact Nat.le_trans Nat.and_le_right (Nat.mod_le _ _)

theorem Target.Sound.setLevels {c : Config} {t : Target} (h : t.Sound c) (n : Nat) (v : Word) :
    (t.setLevels c n v).Sound c :=
  have hl := latchPins_sound c n v true (P := fun _ => True) trivial
    ⟨h.levels.1, fun y hy => ⟨h.levels.2 y hy, trivial⟩⟩
  ⟨h.memory, h.wholeWords, ⟨hl.1, fun y hy => (hl.2 y hy).1⟩, h.pulls⟩

theorem Target.Sound.clearLevels {c : Config} {t : Target} (h : t.Sound c) (n : Nat) (v : Word) :
    (t.clearLevels c n v).Sound c :=
  have hl := latchPins_sound c n v false (P := fun _ => True) trivial
    ⟨h.levels.1, fun y hy => ⟨h.levels.2 y hy, trivial⟩⟩
  ⟨h.memory, h.wholeWords, ⟨hl.1, fun y hy => (hl.2 y hy).1⟩, h.pulls⟩

theorem Target.Sound.latchPulls {c : Config} {t : Target} (h : t.Sound c) (n : Nat) (v : Word) :
    (t.latchPulls c n v).Sound c :=
  ⟨h.memory, h.wholeWords, h.levels,
    latchPins_sound c n v (t.pudMode c) (P := fun x => x.toNat ≤ fieldMask c.pudWidth.toNat) (t.pudMode_le c) h.pulls⟩

theorem Target.Sound.write {c : Config} {t : Target} (h : t.Sound c) {a : Word} (v : Word) (ha : Aligned a) :
    (t.write c a v).Sound c := by
  rcases t.write_cases c a v with ⟨n, _, _, e⟩ | ⟨n, _, _, e⟩ | ⟨n, _, _, e⟩ | e <;> rw [e]
  · exact h.setLevels n v
  · exact h.clearLevels n v
  · exact (h.putWord v ha).latchPulls n v
  · exact h.putWord v ha

@[simp] theorem Target.write_epoch (c : Config) (a v : Word) (t : Target) : (t.write c a v).epoch = t.epoch := by
  rcases t.write_cases c a v with ⟨n, _, _, e⟩ | ⟨n, _, _, e⟩ | ⟨n, _, _, e⟩ | e <;> rw [e] <;> simp

@[simp] theorem Target.write_draws (c : Config) (a v : Word) (t : Target) : (t.write c a v).draws = t.draws := by
  rcases t.write_cases c a v with ⟨n, _, _, e⟩ | ⟨n, _, _, e⟩ | ⟨n, _, _, e⟩ | e <;> rw [e] <;> simp

/-- The count of draws has no part in a write. -/
theorem Target.write_withDraws (c : Config) (a v : Word) (t : Target) (n : Nat) :
    Target.write c a v { t with draws := n } = { t.write c a v with draws := n } := by
  unfold Target.write
  split <;> rfl

/-- A write leaves every byte outside its word as it was, whatever the address is. -/
theorem Target.byteAt_write_outside (c : Config) {a : Word} (v : Word) (t : Target) {x : Nat} (h : OutsideWord a x) :
    (t.write c a v).byteAt x = t.byteAt x := by
  rcases t.write_cases c a v with ⟨n, _, _, e⟩ | ⟨n, _, _, e⟩ | ⟨n, _, _, e⟩ | e <;> rw [e]
  · simp [Target.byteAt]
  · simp [Target.byteAt]
  · rw [← t.byteAt_putWord_outside v h]; simp only [Target.byteAt, Target.latchPulls_mem, Target.latchPulls_epoch]
  · exact t.byteAt_putWord_outside v h

theorem Target.Sound.answerRead {c : Config} {t : Target} (h : t.Sound c) (u : Turn) (a : Word) :
    (answerRead c u a t).2.Sound c := by rw [answerRead_frame]; exact ⟨h.memory, h.wholeWords, h.levels, h.pulls⟩

@[simp] theorem Target.foreignWrites_nil (c : Config) (t : Target) : t.foreignWrites c [] = t := rfl

@[simp] theorem Target.foreignWrites_cons (c : Config) (w : BusWrite) (ws : List BusWrite) (t : Target) :
    t.foreignWrites c (w :: ws) = (t.foreignWrite c w).foreignWrites c ws := rfl

theorem Target.Sound.foreignWrite {c : Config} {t : Target} (h : t.Sound c) (w : BusWrite) :
    (t.foreignWrite c w).Sound c := by
  unfold Target.foreignWrite
  split
  · exact h.write w.data ‹_›
  · exact h

theorem Target.Sound.foreignWrites {c : Config} (ws : List BusWrite) {t : Target} (h : t.Sound c) :
    (t.foreignWrites c ws).Sound c := by
  induction ws generalizing t with
  | nil => exact h
  | cons w ws ih => exact ih (h.foreignWrite w)

@[simp] theorem Target.foreignWrites_epoch (c : Config) (ws : List BusWrite) (t : Target) :
    (t.foreignWrites c ws).epoch = t.epoch := by
  induction ws generalizing t with
  | nil => rfl
  | cons w ws ih => rw [Target.foreignWrites_cons, ih, Target.foreignWrite]; split <;> simp

@[simp] theorem Target.foreignWrites_draws (c : Config) (ws : List BusWrite) (t : Target) :
    (t.foreignWrites c ws).draws = t.draws := by
  induction ws generalizing t with
  | nil => rfl
  | cons w ws ih => rw [Target.foreignWrites_cons, ih, Target.foreignWrite]; split <;> simp

/-- Other masters' writes elsewhere leave the word at an aligned address as it was. -/
theorem Target.wordAt_foreignWrites_other {c : Config} {a : Word} (ha : Aligned a) (ws : List BusWrite) (t : Target)
    (h : ∀ w ∈ ws, w.addr ≠ a) : (t.foreignWrites c ws).wordAt a = t.wordAt a := by
  induction ws generalizing t with
  | nil => rfl
  | cons w ws ih =>
    rw [Target.foreignWrites_cons, ih _ fun w' hw' => h w' (by simp [hw'])]
    unfold Target.foreignWrite
    split
    · rename_i hw
      have hne : a ≠ w.addr := fun e => h w (by simp) e.symm
      rcases t.write_cases c w.addr w.data with ⟨n, _, _, e⟩ | ⟨n, _, _, e⟩ | ⟨n, _, _, e⟩ | e <;> rw [e]
      · exact Target.wordAt_setLevels _ _ _ _ _
      · exact Target.wordAt_clearLevels _ _ _ _ _
      · rw [Target.wordAt_latchPulls, Target.wordAt_putWord_other t _ hw ha hne]
      · exact Target.wordAt_putWord_other t _ hw ha hne
    · rfl

theorem Target.Sound.powerUp (c : Config) (e d : Nat) : (Target.powerUp e d).Sound c :=
  ⟨⟨List.Pairwise.nil, by simp⟩, fun _ => rfl, ⟨List.Pairwise.nil, by simp⟩, List.Pairwise.nil, by simp⟩

theorem Target.Sound.reset {c : Config} {t : Target} (h : t.Sound c) (k : ResetKind) : (t.reset k).Sound c := by
  cases k
  · exact h
  · exact Target.Sound.powerUp _ _ _

/-! ### The writes of a trace -/

/-- The target after the writes of a list of events. -/
def playEvents (c : Config) : List Event → Target → Target
  | [], t => t
  | .wr a v :: es, t => playEvents c es (t.write c a v)
  | .rd _ _ :: es, t => playEvents c es t
  | .wt _ :: es, t => playEvents c es t

theorem playEvents_append (c : Config) (es fs : List Event) (t : Target) :
    playEvents c (es ++ fs) t = playEvents c fs (playEvents c es t) := by
  induction es generalizing t with
  | nil => rfl
  | cons e es ih => cases e <;> simp only [List.cons_append, playEvents, ih]

theorem playEvents_withDraws (c : Config) (es : List Event) (t : Target) (n : Nat) :
    playEvents c es { t with draws := n } = { playEvents c es t with draws := n } := by
  induction es generalizing t with
  | nil => rfl
  | cons e es ih => cases e <;> simp only [playEvents, Target.write_withDraws, ih]

@[simp] theorem withDraws_byteAt (t : Target) (n x : Nat) : Target.byteAt { t with draws := n } x = t.byteAt x := rfl

@[simp] theorem withDraws_wordAt (t : Target) (n : Nat) (a : Word) :
    Target.wordAt { t with draws := n } a = t.wordAt a := rfl

/-- The writes of a trace leave every byte outside their words as it was. -/
theorem playEvents_byteAt (c : Config) (es : List Event) (t : Target) {x : Nat}
    (h : ∀ a v, Event.wr a v ∈ es → OutsideWord a x) : (playEvents c es t).byteAt x = t.byteAt x := by
  induction es generalizing t with
  | nil => rfl
  | cons e es ih =>
    have hes : ∀ a v, Event.wr a v ∈ es → OutsideWord a x := fun a v hm => h a v (by simp [hm])
    cases e with
    | wr a v => rw [playEvents, ih _ hes, Target.byteAt_write_outside c v t (h a v (by simp))]
    | rd a d => exact ih t hes
    | wt n => exact ih t hes

end Sys2Proof.Machine
end

