-- ==== Sys2Proof/Laws/Flow.lean ====
section
/-! SUPPORT. Laws of a command's flow: how lines compose, the environment's turn, and everything each primitive can do. -/

namespace Sys2Proof.Machine

open Sys2Proof

@[simp] theorem Flow.andThen_go {α β : Type} (x : α) (s : State) (k : α → State → Flow β) :
    (Flow.go x s).andThen k = k x s := rfl
@[simp] theorem Flow.andThen_abandoned {α β : Type} (s : State) (k : α → State → Flow β) :
    (Flow.abandoned s : Flow α).andThen k = .abandoned s := rfl
@[simp] theorem Flow.andThen_stuck {α β : Type} (f : Fault) (k : α → State → Flow β) :
    (Flow.stuck f : Flow α).andThen k = .stuck f := rfl
@[simp] theorem Flow.outcome_go {α : Type} (x : α) (s : State) : (Flow.go x s).outcome = .next s := rfl
@[simp] theorem Flow.outcome_abandoned {α : Type} (s : State) : (Flow.abandoned s : Flow α).outcome = .next s := rfl
@[simp] theorem Flow.outcome_stuck {α : Type} (f : Fault) : (Flow.stuck f : Flow α).outcome = .fault f := rfl

/-- A flow goes on as `g` says, or is abandoned as `ab` says, or is stuck as `st` says. -/
def Flow.Post {α : Type} (m : Flow α) (g : α → State → Prop) (ab : State → Prop) (st : Fault → Prop) : Prop :=
  match m with
  | .go x s => g x s
  | .abandoned s => ab s
  | .stuck f => st f

@[simp] theorem Flow.post_go {α : Type} (x : α) (s : State) (g ab st) : (Flow.go x s).Post g ab st ↔ g x s := Iff.rfl
@[simp] theorem Flow.post_abandoned {α : Type} (s : State) (g : α → State → Prop) (ab st) :
    (Flow.abandoned s : Flow α).Post g ab st ↔ ab s := Iff.rfl
@[simp] theorem Flow.post_stuck {α : Type} (f : Fault) (g : α → State → Prop) (ab st) :
    (Flow.stuck f : Flow α).Post g ab st ↔ st f := Iff.rfl

theorem Flow.post_andThen {α β : Type} (m : Flow α) (k : α → State → Flow β) (g ab st) :
    (m.andThen k).Post g ab st ↔ m.Post (fun x s => (k x s).Post g ab st) ab st := by cases m <;> rfl

theorem Flow.Post.mono {α : Type} {m : Flow α} {g g' : α → State → Prop} {ab ab' : State → Prop}
    {st st' : Fault → Prop} (h : m.Post g ab st) (hg : ∀ x s, g x s → g' x s) (hab : ∀ s, ab s → ab' s)
    (hst : ∀ f, st f → st' f) : m.Post g' ab' st' := by
  cases m
  · exact hg _ _ h
  · exact hab _ h
  · exact hst _ h

/-- What holds of a flow holds of the command's outcome. -/
theorem Flow.Post.outcome {m : Flow Unit} {g : Unit → State → Prop} {ab : State → Prop} {st : Fault → Prop}
    (h : m.Post g ab st) {t : State} (e : m.outcome = .next t) : g () t ∨ ab t := by
  cases m <;> simp only [Flow.outcome] at e <;> cases e
  · exact .inl h
  · exact .inr h

/-! ### Turns -/

@[simp] theorem turnAt_nil (k : Nat) : turnAt [] k = Turn.quiet := rfl

@[simp] theorem turnAt_tail (ts : List Turn) (k : Nat) : turnAt ts.tail k = turnAt ts (k + 1) := by
  cases ts <;> simp [turnAt]

@[simp] theorem turnAt_drop (ts : List Turn) (n k : Nat) : turnAt (ts.drop n) k = turnAt ts (n + k) := by
  simp [turnAt, List.getD_eq_getElem?_getD, List.getElem?_drop]

/-- The state after the environment's writes of the next turn. -/
def afterTurn (s : State) : State :=
  { s with turns := s.turns.tail, target := s.target.foreignWrites s.cfg (turnAt s.turns 0).writes }

@[simp] theorem afterTurn_cfg (s : State) : (afterTurn s).cfg = s.cfg := rfl
@[simp] theorem afterTurn_cmd (s : State) : (afterTurn s).cmd = s.cmd := rfl
@[simp] theorem afterTurn_result (s : State) : (afterTurn s).result = s.result := rfl
@[simp] theorem afterTurn_resultReg (s : State) : (afterTurn s).resultReg = s.resultReg := rfl
@[simp] theorem afterTurn_responded (s : State) : (afterTurn s).responded = s.responded := rfl
@[simp] theorem afterTurn_phase (s : State) : (afterTurn s).phase = s.phase := rfl
@[simp] theorem afterTurn_stepNo (s : State) : (afterTurn s).stepNo = s.stepNo := rfl
@[simp] theorem afterTurn_rmw (s : State) : (afterTurn s).rmw = s.rmw := rfl
@[simp] theorem afterTurn_trace (s : State) : (afterTurn s).trace = s.trace := rfl
@[simp] theorem afterTurn_cause (s : State) : (afterTurn s).cause = s.cause := rfl
@[simp] theorem afterTurn_target (s : State) : (afterTurn s).target =
    s.target.foreignWrites s.cfg (turnAt s.turns 0).writes := rfl
@[simp] theorem afterTurn_inputs (s : State) : (afterTurn s).inputs = s.inputs := rfl
@[simp] theorem afterTurn_turns (s : State) : (afterTurn s).turns = s.turns.tail := rfl
@[simp] theorem afterTurn_received (s : State) : (afterTurn s).received = s.received := rfl

theorem interlude_go {s : State} (h : (turnAt s.turns 0).reset = none) :
    interlude s = .go (turnAt s.turns 0) (afterTurn s) := by simp [interlude, h, afterTurn]

theorem interlude_abandoned {s : State} {k : ResetKind} (h : (turnAt s.turns 0).reset = some k) :
    interlude s = .abandoned (resetBlock k (afterTurn s)) := by simp [interlude, h, afterTurn]

/-! ### The primitives when nothing disturbs them -/

theorem memRead_go {a : Word} {s : State} (hr : (turnAt s.turns 0).reset = none)
    (hd : (turnAt s.turns 0).admitted = true) (ha : Aligned a) :
    memRead a s = .go (answerRead s.cfg (turnAt s.turns 0) a (afterTurn s).target).1
      (((afterTurn s).withTarget (answerRead s.cfg (turnAt s.turns 0) a (afterTurn s).target).2).completed
        (.rd a (answerRead s.cfg (turnAt s.turns 0) a (afterTurn s).target).1)) := by
  simp [memRead, interlude_go hr, hd, ha, afterTurn]

/-- A read that its turn answers gives that answer (R51). -/
theorem nextAnswer_of_answer {s : State} {x : Word} (a : Word) (h : (turnAt s.turns 0).answer = some x) :
    s.nextAnswer a = x := by simp only [State.nextAnswer, answerRead, h]

/-- A read of a set or clear register that its turn does not answer is the coming draw (R24, R25, R51). -/
theorem nextAnswer_draw {s : State} {a : Word} (h : (turnAt s.turns 0).answer = none)
    (hw : writeOnly s.cfg a = true) : s.nextAnswer a = Config.readDraw s.target.draws := by
  simp [State.nextAnswer, answerRead, h, Target.read, hw]

/-- A read of any other address that its turn does not answer is the word there (R51). -/
theorem nextAnswer_cell {s : State} {a : Word} (h : (turnAt s.turns 0).answer = none)
    (hw : writeOnly s.cfg a = false) :
    s.nextAnswer a = (s.target.foreignWrites s.cfg (turnAt s.turns 0).writes).wordAt a := by
  simp [State.nextAnswer, answerRead_plain _ h hw]

theorem memWrite_go {a v : Word} {s : State} (hr : (turnAt s.turns 0).reset = none)
    (hd : (turnAt s.turns 0).admitted = true) (ha : Aligned a) :
    memWrite a v s = .go ()
      (((afterTurn s).withTarget ((afterTurn s).target.write s.cfg a v)).completed (.wr a v)) := by
  simp [memWrite, interlude_go hr, hd, ha, afterTurn]

theorem wait_go {n : Nat} {s : State} (hr : (turnAt s.turns 0).reset = none) :
    wait n s = .go () ((afterTurn s).completed (.wt n)) := by simp [wait, interlude_go hr]

theorem respond_go {v : Verdict} {s : State} (hr : (turnAt s.turns 0).reset = none) :
    respond v s = .go () ((afterTurn s).answered v) := by
  simp [respond, interlude_go hr]

theorem memRead_stuck {a : Word} {s : State} (hr : (turnAt s.turns 0).reset = none)
    (h : ¬ Admits (turnAt s.turns 0) a) : memRead a s = .stuck (.busAccessStuck a (afterTurn s)) := by
  simp only [memRead, interlude_go hr, Flow.andThen_go, if_neg h]

theorem memWrite_stuck {a v : Word} {s : State} (hr : (turnAt s.turns 0).reset = none)
    (h : ¬ Admits (turnAt s.turns 0) a) : memWrite a v s = .stuck (.busAccessStuck a (afterTurn s)) := by
  simp only [memWrite, interlude_go hr, Flow.andThen_go, if_neg h]

/-! ### Everything the primitives can do -/

/-- `t` is `s` after the events `es`, one turn of the environment before each, none of which brought a reset: only the
latches, STEP, the trace, the target and the turns have moved. Where no other master wrote, the target has taken exactly
the writes of `es`; where it also answered for itself, each read of `es` gave what the writes before it had left; and a
read that its turn answered gave that answer. The first event, if a read, gave the next answer. -/
structure Ran (s t : State) (es : List Event) : Prop where
  cfg : t.cfg = s.cfg
  cmd : t.cmd = s.cmd
  resultReg : t.resultReg = s.resultReg
  responded : t.responded = s.responded
  cause : t.cause = s.cause
  phase : t.phase = s.phase
  inputs : t.inputs = s.inputs
  received : t.received = s.received
  trace : t.trace = s.trace ++ es
  stepNo : t.stepNo = s.stepNo + es.length
  turns : t.turns = s.turns.drop es.length
  epoch : t.target.epoch = s.target.epoch
  sound : s.target.Sound s.cfg → t.target.Sound s.cfg
  noReset : ∀ k, k < es.length → (turnAt s.turns k).reset = none
  writes : s.Sole es.length → t.target = { playEvents s.cfg es s.target with draws := t.target.draws }
  reads : s.Sole es.length → s.AnsweredByTarget es.length → ∀ before a d after, es = before ++ .rd a d :: after →
    writeOnly s.cfg a = false → d = (playEvents s.cfg before s.target).wordAt a
  answers : ∀ before a d after x, es = before ++ .rd a d :: after →
    (turnAt s.turns before.length).answer = some x → d = x
  first : ∀ a d after, es = .rd a d :: after → d = s.nextAnswer a
  still : es = [] → t.target = s.target

theorem Ran.result {s t : State} {es : List Event} (h : Ran s t es) : t.result = s.result :=
  State.result_eq h.resultReg h.responded

theorem Ran.refl (s : State) : Ran s s [] := by constructor <;> simp [playEvents]

/-! ### The premises on turns -/

theorem sole_mono {s : State} {n m : Nat} (h : s.Sole n) (hm : m ≤ n) : s.Sole m := fun k hk => h k (by omega)
theorem sole_noReset {s : State} {n : Nat} (h : s.Sole n) : s.NoReset n := fun k hk => (h k hk).1
theorem undisturbed_noReset {s : State} {n : Nat} (h : s.Undisturbed n) : s.NoReset n := fun k hk => (h k hk).1
theorem answered_mono {s : State} {n m : Nat} (h : s.AnsweredByTarget n) (hm : m ≤ n) : s.AnsweredByTarget m :=
  fun k hk => h k (by omega)

/-- The premises, for the events that follow. -/
theorem sole_drop {s t : State} {n m : Nat} (ht : t.turns = s.turns.drop n) (h : s.Sole (n + m)) : t.Sole m := by
  intro k hk
  rw [ht, turnAt_drop]
  exact h _ (by omega)

theorem answered_drop {s t : State} {n m : Nat} (ht : t.turns = s.turns.drop n) (h : s.AnsweredByTarget (n + m)) :
    t.AnsweredByTarget m := by
  intro k hk
  rw [ht, turnAt_drop]
  exact h _ (by omega)

theorem undisturbed_drop {s t : State} {n m : Nat} (ht : t.turns = s.turns.drop n) (h : s.Undisturbed (n + m)) :
    t.Undisturbed m := by
  intro k hk
  rw [ht, turnAt_drop]
  exact h _ (by omega)

theorem Ran.trans {s t u : State} {es fs : List Event} (h : Ran s t es) (h' : Ran t u fs) : Ran s u (es ++ fs) where
  cfg := h'.cfg.trans h.cfg
  cmd := h'.cmd.trans h.cmd
  resultReg := h'.resultReg.trans h.resultReg
  responded := h'.responded.trans h.responded
  cause := h'.cause.trans h.cause
  phase := h'.phase.trans h.phase
  inputs := h'.inputs.trans h.inputs
  received := h'.received.trans h.received
  trace := by rw [h'.trace, h.trace, List.append_assoc]
  stepNo := by rw [h'.stepNo, h.stepNo, List.length_append]; omega
  turns := by rw [h'.turns, h.turns, List.drop_drop, List.length_append]
  epoch := h'.epoch.trans h.epoch
  sound := fun hs => by
    have h2 := h'.sound
    rw [h.cfg] at h2
    exact h2 (h.sound hs)
  noReset := fun k hk => by
    by_cases hk' : k < es.length
    · exact h.noReset k hk'
    · have := h'.noReset (k - es.length) (by rw [List.length_append] at hk; omega)
      rw [h.turns, turnAt_drop] at this
      rwa [show es.length + (k - es.length) = k by omega] at this
  writes := fun hs => by
    rw [List.length_append] at hs
    have h1 := h.writes fun k hk => hs k (by omega)
    have h2 := h'.writes (sole_drop h.turns hs)
    rw [h1, h.cfg, playEvents_withDraws] at h2
    rw [h2, playEvents_append]
  reads := fun hs ha before a d after he hw => by
    rw [List.length_append] at hs ha
    rcases List.append_eq_append_iff.1 he with ⟨mid, hb, hf⟩ | ⟨mid, hb, hf⟩
    · have hd := h'.reads (sole_drop h.turns hs) (answered_drop h.turns ha) mid a d after hf (by rw [h.cfg]; exact hw)
      rw [h.writes fun k hk => hs k (by omega), h.cfg, playEvents_withDraws] at hd
      rw [hd, hb, playEvents_append, withDraws_wordAt]
    · cases mid with
      | nil =>
        rw [List.append_nil] at hb
        have hd := h'.reads (sole_drop h.turns hs) (answered_drop h.turns ha) [] a d after (by simpa using hf.symm)
          (by rw [h.cfg]; exact hw)
        rw [h.writes fun k hk => hs k (by omega), playEvents, withDraws_wordAt] at hd
        rw [hd, ← hb]
      | cons e mid =>
        rw [List.cons_append, List.cons.injEq] at hf
        exact h.reads (fun k hk => hs k (by omega)) (fun k hk => ha k (by omega)) before a d mid
          (by rw [hb, hf.1]) hw
  answers := fun before a d after x he hx => by
    rcases List.append_eq_append_iff.1 he with ⟨mid, hb, hf⟩ | ⟨mid, hb, hf⟩
    · exact h'.answers mid a d after x hf (by rw [h.turns, turnAt_drop, ← List.length_append, ← hb]; exact hx)
    · cases mid with
      | nil =>
        rw [List.append_nil] at hb
        exact h'.answers [] a d after x (by simpa using hf.symm) (by rw [h.turns, turnAt_drop, hb]; exact hx)
      | cons e mid =>
        rw [List.cons_append, List.cons.injEq] at hf
        exact h.answers before a d mid x (by rw [hb, hf.1]) hx
  first := fun a d after he => by
    cases es with
    | nil =>
      have hd := h'.first a d after he
      rwa [State.nextAnswer, h.cfg, h.turns, h.still rfl] at hd
    | cons e es => exact h.first a d es (by rw [(List.cons.inj he).1])
  still := fun he => by
    obtain ⟨h1, h2⟩ := List.append_eq_nil_iff.1 he
    rw [h'.still h2, h.still h1]

/-- The latches aside, a state loaded with latches has run no further. -/
theorem Ran.latch {s t : State} {es : List Event} (h : Ran s t es) (l : Option Latches) :
    Ran s (t.withLatches l) es := ⟨h.cfg, h.cmd, h.resultReg, h.responded, h.cause, h.phase, h.inputs,
  h.received, h.trace, h.stepNo, h.turns, h.epoch, h.sound, h.noReset, h.writes, h.reads, h.answers, h.first, h.still⟩

theorem Ran.of_latch {s t : State} {es : List Event} {l : Option Latches} (h : Ran (s.withLatches l) t es) :
    Ran s t es := ⟨h.cfg, h.cmd, h.resultReg, h.responded, h.cause, h.phase, h.inputs, h.received, h.trace, h.stepNo,
  h.turns, h.epoch, h.sound, h.noReset, h.writes, h.reads, h.answers, h.first, h.still⟩

/-- A reset has taken `s` to `t` in the turn after the events `es` (R100): `m` is the state before that turn. -/
def Abandoned (s t : State) (es : List Event) : Prop :=
  ∃ m k, Ran s m es ∧ (turnAt m.turns 0).reset = some k ∧ t = resetBlock k (afterTurn m)

/-- A command that started in `s` is stuck after the events `es` at the access `e` would have made (R36, R88): `m` is the
state before its turn. -/
def StuckAt (s : State) (f : Fault) (es : List Event) (e : Event) : Prop :=
  ∃ m a, e.addr? = some a ∧ Ran s m es ∧ (turnAt m.turns 0).reset = none ∧ ¬ Admits (turnAt m.turns 0) a ∧
    f = .busAccessStuck a (afterTurn m)

/-- A run that falls short of the events `tr`: `P` holds of the events it has done and of the next, which it has not. -/
def Short (tr : List Event) (P : List Event → Event → Prop) : Prop := ∃ es e rest, tr = es ++ e :: rest ∧ P es e

theorem Short.head {e : Event} {rest : List Event} {P : List Event → Event → Prop} (h : P [] e) :
    Short (e :: rest) P := ⟨[], e, rest, rfl, h⟩

theorem Short.extend {tr : List Event} {P : List Event → Event → Prop} (h : Short tr P) (more : List Event) :
    Short (tr ++ more) P := by
  obtain ⟨es, e, rest, rfl, h⟩ := h
  exact ⟨es, e, rest ++ more, by simp, h⟩

theorem Short.abandoned {s t u : State} {es tr : List Event} (h : Ran s t es)
    (h' : Short tr fun fs _ => Abandoned t u fs) : Short (es ++ tr) fun fs _ => Abandoned s u fs := by
  obtain ⟨fs, e, rest, rfl, m, k, hm, hk⟩ := h'
  exact ⟨es ++ fs, e, rest, by simp, m, k, h.trans hm, hk⟩

theorem Short.stuck {s t : State} {f : Fault} {es tr : List Event} (h : Ran s t es)
    (h' : Short tr (StuckAt t f)) : Short (es ++ tr) (StuckAt s f) := by
  obtain ⟨fs, e, rest, rfl, m, a, ha, hm, hk⟩ := h'
  exact ⟨es ++ fs, e, rest, by simp, m, a, ha, h.trans hm, hk⟩

/-- No reset in the coming turns: nothing is abandoned. -/
theorem Short.not_abandoned {s t : State} {tr : List Event} (h : Short tr fun es _ => Abandoned s t es)
    (hr : s.NoReset tr.length) : False := by
  obtain ⟨es, e, rest, rfl, m, k, hm, hk, -⟩ := h
  have := hr es.length (by simp)
  rw [hm.turns, turnAt_drop, Nat.add_zero, this] at hk
  cases hk

/-- Every access aligned and admitted: nothing is stuck. -/
theorem Short.not_stuck {s : State} {f : Fault} {tr : List Event} (h : Short tr (StuckAt s f))
    (hu : s.Undisturbed tr.length) (ha : ∀ e ∈ tr, ∀ a, e.addr? = some a → Aligned a) : False := by
  obtain ⟨es, e, rest, rfl, m, a, he, hm, -, hn, -⟩ := h
  refine hn ⟨ha e (by simp) a he, ?_⟩
  have := hu es.length (by simp)
  rw [hm.turns, turnAt_drop]
  exact this.2

theorem interlude_post (s : State) :
    (interlude s).Post (fun u t => u = turnAt s.turns 0 ∧ u.reset = none ∧ t = afterTurn s)
      (fun t => Abandoned s t []) (fun _ => False) := by
  cases h : (turnAt s.turns 0).reset with
  | none => rw [interlude_go h]; exact ⟨rfl, h, rfl⟩
  | some k => rw [interlude_abandoned h]; exact ⟨s, k, Ran.refl s, h, rfl⟩

/-- A completed event after a turn that brought no reset. -/
theorem Ran.event {s : State} (h : (turnAt s.turns 0).reset = none) (e : Event) {tg : Target}
    (he : tg.epoch = s.target.epoch) (hs : s.target.Sound s.cfg → tg.Sound s.cfg)
    (hw : (turnAt s.turns 0).writes = [] → tg = { playEvents s.cfg [e] s.target with draws := tg.draws })
    (hd : ∀ a d, e = .rd a d → d = s.nextAnswer a) :
    Ran s (((afterTurn s).withTarget tg).completed e) [e] where
  cfg := rfl
  cmd := rfl
  resultReg := rfl
  responded := rfl
  cause := rfl
  phase := rfl
  inputs := rfl
  received := rfl
  trace := rfl
  stepNo := rfl
  turns := by simp
  epoch := he
  sound := hs
  noReset := fun k hk => by rw [List.length_singleton] at hk; rwa [show k = 0 by omega]
  writes := fun h => hw (h 0 (by simp)).2
  reads := fun hs ha before a d after e' hwo => by
    cases before with
    | nil => rw [hd a d (List.cons.inj e').1, nextAnswer_cell (ha 0 (by simp)) hwo, (hs 0 (by simp)).2]; rfl
    | cons b bs => simp at e'
  answers := fun before a d after x e' h' => by
    cases before with
    | nil => rw [hd a d (List.cons.inj e').1, nextAnswer_of_answer a h']
    | cons b bs => simp at e'
  first := fun a d after e' => hd a d (List.cons.inj e').1
  still := fun e' => nomatch e'

theorem afterTurn_sound {s : State} (h : s.target.Sound s.cfg) : (afterTurn s).target.Sound s.cfg := h.foreignWrites _

theorem afterTurn_target_alone {s : State} (h : (turnAt s.turns 0).writes = []) : (afterTurn s).target = s.target := by
  simp [h]

/-- Everything a read can do. -/
theorem memRead_post (a : Word) (s : State) :
    (memRead a s).Post (fun d t => Ran s t [.rd a d] ∧ t.rmw = s.rmw) (fun t => Abandoned s t [])
      (fun f => ∀ d, StuckAt s f [] (.rd a d)) := by
  rw [memRead, Flow.post_andThen]
  refine (interlude_post s).mono ?_ (fun _ h => h) (fun _ h => h.elim)
  rintro u t ⟨rfl, hr, rfl⟩
  split
  · refine ⟨Ran.event hr _ (by simp) (fun h => (afterTurn_sound h).answerRead _ _) (fun hw => ?_) ?_, rfl⟩
    · rw [answerRead_frame, afterTurn_target_alone hw]; rfl
    · rintro b d e
      cases e
      rfl
  · exact fun d => ⟨s, a, rfl, Ran.refl s, hr, ‹_›, rfl⟩

/-- Everything a write can do. -/
theorem memWrite_post (a v : Word) (s : State) :
    (memWrite a v s).Post (fun _ t => Ran s t [.wr a v] ∧ t.rmw = s.rmw) (fun t => Abandoned s t [])
      (fun f => StuckAt s f [] (.wr a v)) := by
  rw [memWrite, Flow.post_andThen]
  refine (interlude_post s).mono ?_ (fun _ h => h) (fun _ h => h.elim)
  rintro u t ⟨rfl, hr, rfl⟩
  split
  · rename_i ha
    refine ⟨Ran.event hr _ (by simp) (fun h => (afterTurn_sound h).write _ ha.1) (fun hw => ?_) ?_, rfl⟩
    · rw [afterTurn_target_alone hw]; rfl
    · rintro b d e; cases e
  · exact ⟨s, a, rfl, Ran.refl s, hr, ‹_›, rfl⟩

/-- A write that has gone on was the last the target took. -/
theorem memWrite_last {a v : Word} {s t : State} (h : memWrite a v s = .go () t) :
    t.target = Target.write s.cfg a v (s.target.foreignWrites s.cfg (turnAt s.turns 0).writes) := by
  unfold memWrite at h
  have hi := interlude_post s
  cases hh : interlude s with
  | go u m =>
    rw [hh] at h hi
    obtain ⟨-, -, rfl⟩ := hi
    simp only [Flow.andThen_go] at h
    split at h
    · cases h; rfl
    · cases h
  | abandoned m => rw [hh] at h; cases h
  | stuck m => rw [hh] at h; cases h

/-- Everything a wait can do. -/
theorem wait_post (n : Nat) (s : State) :
    (wait n s).Post (fun _ t => Ran s t [.wt n] ∧ t.rmw = s.rmw) (fun t => Abandoned s t []) (fun _ => False) := by
  rw [wait, Flow.post_andThen]
  refine (interlude_post s).mono ?_ (fun _ h => h) (fun _ h => h.elim)
  rintro u t ⟨rfl, hr, rfl⟩
  refine ⟨Ran.event (s := s) hr (.wt n) (tg := (afterTurn s).target) (by simp) afterTurn_sound (fun hw => ?_) ?_, rfl⟩
  · rw [afterTurn_target_alone hw]; rfl
  · rintro b d e; cases e

/-- Everything a response can do. -/
theorem respond_post (v : Verdict) (s : State) :
    (respond v s).Post (fun _ t => (turnAt s.turns 0).reset = none ∧ t = (afterTurn s).answered v)
      (fun t => Abandoned s t []) (fun _ => False) := by
  rw [respond, Flow.post_andThen]
  refine (interlude_post s).mono ?_ (fun _ h => h) (fun _ h => h.elim)
  rintro u t ⟨rfl, hr, rfl⟩
  exact ⟨hr, rfl⟩

end Sys2Proof.Machine
end

