-- ==== Sys2Proof/Laws/Accessor.lean ====
section
/-! SUPPORT. Laws of the accessor's subroutines: their closed form when nothing disturbs them, and everything they can
do. -/

namespace Sys2Proof.Machine

open Sys2Proof

/-- What the read of a read-modify-write at `a` answers, and the target after it. -/
def rmwAnswer (s : State) (a : Word) : Word × Target :=
  answerRead s.cfg (turnAt s.turns 0) a (s.target.foreignWrites s.cfg (turnAt s.turns 0).writes)

theorem rmwAnswer_word (s : State) (a : Word) : (rmwAnswer s a).1 = s.nextAnswer a := rfl

/-- The target after a read-modify-write at `a`. -/
def rmwTarget (s : State) (a : Word) (sh : Nat) (m v : Word) : Target :=
  ((rmwAnswer s a).2.foreignWrites s.cfg (turnAt s.turns 1).writes).write s.cfg a
    (insertField (rmwAnswer s a).1 sh m v)

/-- It is the target after the other masters' writes of the two turns, with the write; the read has moved at most the count
of draws. -/
theorem rmwTarget_eq (s : State) (a : Word) (sh : Nat) (m v : Word) : ∃ k, rmwTarget s a sh m v =
    Target.write s.cfg a (insertField (s.nextAnswer a) sh m v) (Target.foreignWrites s.cfg (turnAt s.turns 1).writes
      { s.target.foreignWrites s.cfg (turnAt s.turns 0).writes with draws := k }) :=
  ⟨_, by rw [rmwTarget, rmwAnswer, answerRead_frame]; rfl⟩

/-- The state after an undisturbed read-modify-write. -/
def rmwState (s : State) (a : Word) (sh : Nat) (m v : Word) : State :=
  { s with
    turns := s.turns.drop 2
    rmw := none
    stepNo := s.stepNo + 2
    trace := s.trace ++ [.rd a (rmwAnswer s a).1, .wr a (insertField (rmwAnswer s a).1 sh m v)]
    target := rmwTarget s a sh m v }

theorem readModifyWrite_go {a : Word} {s : State} (sh : Nat) (m v : Word) (ha : Aligned a) (h : s.Undisturbed 2) :
    readModifyWrite a sh m v s = .go () (rmwState s a sh m v) := by
  have h0 := h 0 (by omega)
  have h1 := h 1 (by omega)
  rw [readModifyWrite, memRead_go (by simpa using h0.1) (by simpa using h0.2) ha, Flow.andThen_go,
    memWrite_go (by simpa using h1.1) (by simpa using h1.2) ha]
  simp [State.completed, State.withTarget, State.withLatches, afterTurn, rmwState, rmwTarget, rmwAnswer]
  rw [← List.drop_one, ← List.drop_one, List.drop_drop]

/-- The events of a read-modify-write whose read answers `d` (R65). -/
def rmwEvents (a : Word) (sh : Nat) (m v d : Word) : List Event := [.rd a d, .wr a (insertField d sh m v)]

/-- Everything a read-modify-write can do. -/
theorem readModifyWrite_post (a : Word) (sh : Nat) (m v : Word) (s : State) :
    (readModifyWrite a sh m v s).Post
      (fun _ t => t.rmw = none ∧ ∃ d, Ran s t (rmwEvents a sh m v d))
      (fun t => ∃ d, Short (rmwEvents a sh m v d) fun es _ => Abandoned s t es)
      (fun f => ∃ d, Short (rmwEvents a sh m v d) (StuckAt s f)) := by
  rw [readModifyWrite, Flow.post_andThen]
  refine (memRead_post a _).mono ?_ (fun t h => ⟨0, .head ?_⟩) (fun f h => ⟨0, .head ?_⟩)
  · rintro d t ⟨h, -⟩
    have hs : Ran s t [.rd a d] := h.of_latch
    rw [Flow.post_andThen]
    refine (memWrite_post a _ _).mono ?_ (fun u hu => ⟨d, ?_⟩) (fun f hf => ⟨d, ?_⟩)
    · rintro - u ⟨hu, -⟩
      exact ⟨rfl, d, (hs.trans hu.of_latch).latch none⟩
    · exact Short.abandoned (hs.latch _) (.head hu)
    · exact Short.stuck (hs.latch _) (.head hf)
  · obtain ⟨m', k, hm, hk⟩ := h
    exact ⟨m', k, hm.of_latch, hk⟩
  · obtain ⟨m', b, hb, hm, hk⟩ := h 0
    exact ⟨m', b, hb, hm.of_latch, hk⟩

/-- The write of a read-modify-write that has gone on was the last the target took: before it came the other masters'
writes of the two turns. -/
theorem readModifyWrite_last {a : Word} {sh : Nat} {m v : Word} {s t : State}
    (h : readModifyWrite a sh m v s = .go () t) : ∃ d n, t.target = Target.write s.cfg a (insertField d sh m v)
      (Target.foreignWrites s.cfg (turnAt s.turns 1).writes
        { s.target.foreignWrites s.cfg (turnAt s.turns 0).writes with draws := n }) := by
  unfold readModifyWrite at h
  have hi := interlude_post (s.withLatches (some ⟨a, BitVec.ofNat 5 sh, m, none⟩))
  cases hh : memRead a (s.withLatches (some ⟨a, BitVec.ofNat 5 sh, m, none⟩)) with
  | go d u =>
    rw [hh, Flow.andThen_go] at h
    unfold memRead at hh
    cases hu : interlude (s.withLatches (some ⟨a, BitVec.ofNat 5 sh, m, none⟩)) with
    | go t1 w1 =>
      rw [hu] at hh hi
      obtain ⟨-, -, rfl⟩ := hi
      simp only [Flow.andThen_go] at hh
      split at hh
      · cases hh
        cases hw : memWrite a (insertField _ sh m v) (State.withLatches (some ⟨a, BitVec.ofNat 5 sh, m, some _⟩) _) with
        | go x w =>
          rw [hw, Flow.andThen_go] at h
          cases h
          have e := memWrite_last hw
          simp only [State.withLatches_cfg, State.withLatches_target, State.withLatches_turns, State.completed_cfg,
            State.completed_target, State.completed_turns, State.withTarget_cfg, State.withTarget_target,
            State.withTarget_turns, afterTurn_cfg, afterTurn_target, afterTurn_turns, turnAt_tail] at e
          rw [answerRead_frame] at e
          exact ⟨_, _, e⟩
        | abandoned w => rw [hw] at h; cases h
        | stuck w => rw [hw] at h; cases h
      · cases hh
    | abandoned w1 => rw [hu] at hh; cases hh
    | stuck w1 => rw [hu] at hh; cases hh
  | abandoned u => rw [hh] at h; cases h
  | stuck u => rw [hh] at h; cases h

/-- A read-modify-write that is stuck holds in its latches what it was doing, and the word read if it is stuck at its
write (R20, R36, R88). -/
theorem readModifyWrite_stuck {a : Word} {sh : Nat} {m v : Word} {s : State} {f : Fault}
    (h : readModifyWrite a sh m v s = .stuck f) : ∃ u, f = .busAccessStuck a u ∧
      (u.rmw = some ⟨a, BitVec.ofNat 5 sh, m, none⟩ ∧ u.trace = s.trace ∨
        u.rmw = some ⟨a, BitVec.ofNat 5 sh, m, some (s.nextAnswer a)⟩ ∧
          u.trace = s.trace ++ [.rd a (s.nextAnswer a)]) := by
  unfold readModifyWrite memRead at h
  have hi := interlude_post (s.withLatches (some ⟨a, BitVec.ofNat 5 sh, m, none⟩))
  cases hh : interlude (s.withLatches (some ⟨a, BitVec.ofNat 5 sh, m, none⟩)) with
  | abandoned z => rw [hh] at h; cases h
  | stuck z => rw [hh] at hi; exact hi.elim
  | go y z =>
    rw [hh] at h hi
    obtain ⟨rfl, -, rfl⟩ := hi
    simp only [Flow.andThen_go] at h
    split at h
    · simp only [Flow.andThen_go] at h
      unfold memWrite at h
      generalize hq : State.withLatches _ (State.completed _ _) = q at h
      have hi := interlude_post q
      cases hh : interlude q with
      | abandoned z => rw [hh] at h; cases h
      | stuck z => rw [hh] at hi; exact hi.elim
      | go y z =>
        rw [hh] at h hi
        obtain ⟨-, -, rfl⟩ := hi
        simp only [Flow.andThen_go] at h
        split at h
        · cases h
        · cases h
          subst hq
          exact ⟨_, rfl, .inr ⟨rfl, rfl⟩⟩
    · cases h; exact ⟨_, rfl, .inl ⟨rfl, rfl⟩⟩

/-! ### The subroutines on operands in range -/

theorem fieldWrite_inRange {i v b w max : Word} (s : State) (hw : ValidWidth w.toNat) (hi : i.toNat ≤ max.toNat)
    (hv : v.toNat ≤ fieldMask w.toNat) :
    fieldWrite i v b w max s =
      (readModifyWrite (regAddr b i.toNat w.toNat) (fieldShift i.toNat w.toNat) (maskWord w.toNat) v s).andThen
        fun _ s => .go .success s := by
  rw [fieldWrite, if_neg (not_not_intro hw), if_neg (by omega), if_neg (by omega)]

theorem fselWrite_inRange {p f : Word} (s : State) (hp : p.toNat ≤ s.cfg.maxPin.toNat)
    (hf : f.toNat ≤ fieldMask s.cfg.fselWidth) :
    fselWrite p f s =
      (readModifyWrite (fselAddr s.cfg p.toNat) (fselShift s.cfg p.toNat) (fselMask s.cfg) f s).andThen
        fun _ s => .go .success s := by
  rw [fselWrite, if_neg (Nat.not_lt.2 hp), if_neg (Nat.not_lt.2 hf)]

theorem fselWrite_badPin {p : Word} (f : Word) (s : State) (hp : s.cfg.maxPin.toNat < p.toNat) :
    fselWrite p f s = .go (.rejected .index) s := by rw [fselWrite, if_pos hp]

theorem fselWrite_badCode {p f : Word} (s : State) (hp : p.toNat ≤ s.cfg.maxPin.toNat)
    (hf : fieldMask s.cfg.fselWidth < f.toNat) : fselWrite p f s = .go (.rejected .value) s := by
  rw [fselWrite, if_neg (Nat.not_lt.2 hp), if_pos hf]

/-- The shift of a pin's function field, as the source's other formula has it (R70). -/
theorem fselShift_eq (c : Config) (p : Nat) : fselShift c p = p % c.fselPerReg * c.fselWidth :=
  Nat.mul_mod_mul_right c.fselWidth p c.fselPerReg

/-- A pin's function field ends within the fields of its register (R72). -/
theorem fselShift_add_le (c : Config) (h : 1 ≤ c.fselPerReg) (p : Nat) :
    fselShift c p + c.fselWidth ≤ c.fselPerReg * c.fselWidth := by
  rw [fselShift_eq, ← Nat.succ_mul]
  exact Nat.mul_le_mul_right _ (Nat.mod_lt _ h)

theorem one_le_fieldMask {w : Nat} (h : ValidWidth w) : 1 ≤ fieldMask w := by
  have : 2 ^ 1 ≤ 2 ^ w := Nat.pow_le_pow_right (by decide) h.1
  simp only [fieldMask]
  omega

/-- A field of a valid width ends within the register (R63). -/
theorem fieldShift_add_le {w : Nat} (h : ValidWidth w) (i : Nat) : fieldShift i w + w ≤ 32 := by
  have h1 : i % fieldsPerReg w < fieldsPerReg w := Nat.mod_lt _ (fieldsPerReg_pos h)
  rw [fieldShift, ← Nat.succ_mul]
  exact Nat.le_trans (Nat.mul_le_mul_right w h1) (Nat.div_mul_le_self 32 w)

/-- A read-modify-write whose verdict is SUCCESS. -/
def rmwSuccess (a : Word) (sh : Nat) (m v : Word) (s : State) : Flow Verdict :=
  (readModifyWrite a sh m v s).andThen fun _ s => .go .success s

theorem setWrite_inRange {p : Word} {s : State} (hc : s.cfg.WellFormed) (hp : p.toNat ≤ s.cfg.maxPin.toNat) :
    setWrite p s = rmwSuccess (regAddr s.cfg.setBase p.toNat s.cfg.bitWidth.toNat)
      (fieldShift p.toNat s.cfg.bitWidth.toNat) (maskWord s.cfg.bitWidth.toNat) 1 s :=
  fieldWrite_inRange s hc.1.2.2.2.1 hp (one_le_fieldMask hc.1.2.2.2.1)

theorem clrWrite_inRange {p : Word} {s : State} (hc : s.cfg.WellFormed) (hp : p.toNat ≤ s.cfg.maxPin.toNat) :
    clrWrite p s = rmwSuccess (regAddr s.cfg.clrBase p.toNat s.cfg.bitWidth.toNat)
      (fieldShift p.toNat s.cfg.bitWidth.toNat) (maskWord s.cfg.bitWidth.toNat) 1 s :=
  fieldWrite_inRange s hc.1.2.2.2.1 hp (one_le_fieldMask hc.1.2.2.2.1)

theorem pudWrite_inRange {m : Word} {s : State} (hc : s.cfg.WellFormed)
    (hm : m.toNat ≤ fieldMask s.cfg.pudWidth.toNat) :
    pudWrite m s = rmwSuccess s.cfg.pudAddr 0 (maskWord s.cfg.pudWidth.toNat) m s := by
  rw [pudWrite, fieldWrite_inRange s hc.1.2.2.2.2 (by decide) hm, show (0 : Word).toNat = 0 from rfl, regAddr_first,
    fieldShift, Nat.zero_mod, Nat.zero_mul]
  rfl

theorem pudClkWrite_inRange {p v : Word} {s : State} (hc : s.cfg.WellFormed) (hp : p.toNat ≤ s.cfg.maxPin.toNat)
    (hv : v.toNat ≤ 1) :
    pudClkWrite p v s = rmwSuccess (pudclkAddr s.cfg p.toNat) (fieldShift p.toNat s.cfg.bitWidth.toNat)
      (maskWord s.cfg.bitWidth.toNat) v s :=
  fieldWrite_inRange s hc.1.2.2.2.1 hp (Nat.le_trans hv (one_le_fieldMask hc.1.2.2.2.1))

/-! ### Everything the subroutines can do -/

/-- Everything `FieldWrite` can do. -/
theorem fieldWrite_post (i v b w max : Word) (s : State) :
    (fieldWrite i v b w max s).Post
      (fun r t => (∃ c, r = .rejected c ∧ t = s) ∨ (r = .success ∧ t.rmw = none ∧ ∃ d, Ran s t
        (rmwEvents (regAddr b i.toNat w.toNat) (fieldShift i.toNat w.toNat) (maskWord w.toNat) v d)))
      (fun t => ∃ d, Short (rmwEvents (regAddr b i.toNat w.toNat) (fieldShift i.toNat w.toNat) (maskWord w.toNat) v d)
        fun es _ => Abandoned s t es)
      (fun f => ∃ d, Short (rmwEvents (regAddr b i.toNat w.toNat) (fieldShift i.toNat w.toNat) (maskWord w.toNat) v d)
        (StuckAt s f)) := by
  unfold fieldWrite
  split
  · exact .inl ⟨_, rfl, rfl⟩
  · split
    · exact .inl ⟨_, rfl, rfl⟩
    · split
      · exact .inl ⟨_, rfl, rfl⟩
      · rw [Flow.post_andThen]
        exact (readModifyWrite_post _ _ _ _ s).mono (fun _ t ht => .inr ⟨rfl, ht⟩) (fun _ h => h) fun _ h => h

/-- Everything `FselWrite` can do. -/
theorem fselWrite_post (p f : Word) (s : State) :
    (fselWrite p f s).Post
      (fun r t => (∃ c, r = .rejected c ∧ t = s) ∨ (r = .success ∧ p.toNat ≤ s.cfg.maxPin.toNat ∧ t.rmw = none ∧
        ∃ d, Ran s t (rmwEvents (fselAddr s.cfg p.toNat) (fselShift s.cfg p.toNat) (fselMask s.cfg) f d)))
      (fun t => p.toNat ≤ s.cfg.maxPin.toNat ∧
        ∃ d, Short (rmwEvents (fselAddr s.cfg p.toNat) (fselShift s.cfg p.toNat) (fselMask s.cfg) f d)
          fun es _ => Abandoned s t es)
      (fun g => p.toNat ≤ s.cfg.maxPin.toNat ∧
        ∃ d, Short (rmwEvents (fselAddr s.cfg p.toNat) (fselShift s.cfg p.toNat) (fselMask s.cfg) f d)
          (StuckAt s g)) := by
  unfold fselWrite
  split
  · exact .inl ⟨_, rfl, rfl⟩
  · rename_i hp
    have hp := Nat.not_lt.1 hp
    split
    · exact .inl ⟨_, rfl, rfl⟩
    · rw [Flow.post_andThen]
      exact (readModifyWrite_post _ _ _ _ s).mono (fun _ t ht => .inr ⟨rfl, hp, ht⟩) (fun _ h => ⟨hp, h⟩)
        fun _ h => ⟨hp, h⟩

/-- Everything a read-modify-write whose verdict is SUCCESS can do. -/
theorem rmwSuccess_post (a : Word) (sh : Nat) (m v : Word) (s : State) :
    (rmwSuccess a sh m v s).Post
      (fun r t => r = .success ∧ t.rmw = none ∧ ∃ d, Ran s t (rmwEvents a sh m v d))
      (fun t => ∃ d, Short (rmwEvents a sh m v d) fun es _ => Abandoned s t es)
      (fun f => ∃ d, Short (rmwEvents a sh m v d) (StuckAt s f)) := by
  rw [rmwSuccess, Flow.post_andThen]
  exact (readModifyWrite_post a sh m v s).mono (fun _ _ h => ⟨rfl, h⟩) (fun _ h => h) fun _ h => h

end Sys2Proof.Machine
end

