-- ==== Sys2Proof/Laws/Commands.lean ====
section
/-! SUPPORT. Laws of the commands: the traces each can have, and everything `exec` can do with it. -/

namespace Sys2Proof.Machine

open Sys2Proof

/-! ### The bit-field specialisations (R73) -/

/-- The set or clear register a `DRIVE` writes (R77, R78). -/
def driveAddr (c : Config) (p l : Word) : Word :=
  regAddr (if l ≠ 0 then c.setBase else c.clrBase) p.toNat c.bitWidth.toNat

/-- The events of a `DRIVE` whose read answers `d` (R77). -/
def driveEvents (c : Config) (p l d : Word) : List Event :=
  rmwEvents (driveAddr c p l) (fieldShift p.toNat c.bitWidth.toNat) (maskWord c.bitWidth.toNat) 1 d

theorem driveWrite_inRange {p : Word} (l : Word) {s : State} (hc : s.cfg.WellFormed)
    (hp : p.toNat ≤ s.cfg.maxPin.toNat) :
    (if l ≠ 0 then setWrite p s else clrWrite p s) =
      rmwSuccess (driveAddr s.cfg p l) (fieldShift p.toNat s.cfg.bitWidth.toNat) (maskWord s.cfg.bitWidth.toNat) 1
        s := by
  by_cases hl : l = 0
  · rw [if_neg (not_not_intro hl), clrWrite_inRange hc hp, driveAddr, if_neg (not_not_intro hl)]
  · rw [if_pos hl, setWrite_inRange hc hp, driveAddr, if_pos hl]

theorem driveWrite_outOfRange {p : Word} (l : Word) {s : State} (hc : s.cfg.WellFormed)
    (hp : s.cfg.maxPin.toNat < p.toNat) :
    (if l ≠ 0 then setWrite p s else clrWrite p s) = .go (.rejected .index) s := by
  have hf : ∀ b, fieldWrite p 1 b s.cfg.bitWidth s.cfg.maxPin s = .go (.rejected .index) s := fun b => by
    rw [fieldWrite, if_neg (not_not_intro hc.1.2.2.2.1), if_pos hp]
  simp only [setWrite, clrWrite, hf, ite_self]

/-! ### The pull sequence (R81, R83) -/

/-- The events of step 3, or of step 6 by its field, whose read answers `d`. -/
def clkEvents (c : Config) (p v d : Word) : List Event :=
  rmwEvents (pudclkAddr c p.toNat) (fieldShift p.toNat c.bitWidth.toNat) (maskWord c.bitWidth.toNat) v d

/-- The events of step 1, or of step 5 by its field, whose read answers `d`. -/
def pudEvents (c : Config) (v d : Word) : List Event := rmwEvents c.pudAddr 0 (maskWord c.pudWidth.toNat) v d

/-- The events of steps 5 and 6 (R83); `d3` and `d4` are what the reads of `FIELD_RMW` answer. -/
def clearEvents (c : Config) (p d3 d4 : Word) : List Event :=
  match c.pullClear with
  | .wordWrite => [.wr c.pudAddr 0, .wr (pudclkAddr c p.toNat) 0]
  | .fieldRmw => pudEvents c 0 d3 ++ clkEvents c p 0 d4

/-- The events of the six steps (R81); `d.1` to `d.2.2.2` are what the reads answer. -/
def pullEvents (c : Config) (p m : Word) (d : Word × Word × Word × Word) : List Event :=
  pudEvents c (pullStep1Value c m) d.1 ++ ([.wt c.pullSettle] ++
    (clkEvents c p 1 d.2.1 ++ ([.wt c.pullSettle] ++ clearEvents c p d.2.2.1 d.2.2.2)))

theorem pullEvents_length (c : Config) (p m : Word) (d : Word × Word × Word × Word) :
    (pullEvents c p m d).length = match c.pullClear with | .wordWrite => 8 | .fieldRmw => 10 := by
  simp only [pullEvents, clearEvents]; cases c.pullClear <;> rfl

theorem pullStep1Value_eq (c : Config) (m : Word) : pullStep1Value c m = if c.pullStep1 = .requestedMode then m else 0 := by
  unfold pullStep1Value; cases c.pullStep1 <;> rfl

/-- Every access of the pull sequence is aligned. -/
theorem pullEvents_aligned {c : Config} (hw : c.WellFormed) {p m : Word} {d : Word × Word × Word × Word} {e : Event}
    (he : e ∈ pullEvents c p m d) {a : Word} (ha : e.addr? = some a) : Aligned a := by
  have h1 : Aligned c.pudAddr := hw.2.2.2.2.1
  have h2 : Aligned (pudclkAddr c p.toNat) := regAddr_aligned hw.2.2.2.2.2.1 _ _
  simp only [pullEvents, clearEvents, pudEvents, clkEvents, rmwEvents] at he
  cases hc : c.pullClear <;> rw [hc] at he <;> simp at he <;>
    rcases he with rfl | rfl | rfl | rfl | rfl | rfl | rfl | rfl | rfl | rfl <;> simp [Event.addr?] at ha <;>
    subst ha <;> assumption

/-- The pull sequence writes no register but `PUD` and the pin's clock-enable register. -/
theorem pullEvents_writes {c : Config} {p m : Word} {d : Word × Word × Word × Word} {a v : Word}
    (h : Event.wr a v ∈ pullEvents c p m d) : a = c.pudAddr ∨ a = pudclkAddr c p.toNat := by
  simp only [pullEvents, clearEvents, pudEvents, clkEvents, rmwEvents] at h
  cases hc : c.pullClear <;> rw [hc] at h <;> simp at h <;> tauto

/-! What PUD and a pin's clock-enable register hold after a write of either. -/

theorem Target.pud_write_pud {c : Config} (hw : c.WellFormed) (t : Target) (v : Word) :
    (t.write c c.pudAddr v).wordAt c.pudAddr = v := by rw [Target.write_pud hw, Target.wordAt_putWord_same]

theorem Target.pud_write_clk {c : Config} (hw : c.WellFormed) {p : Nat} (hp : p ≤ c.maxPin.toNat) (t : Target)
    (v : Word) : (t.write c (pudclkAddr c p) v).wordAt c.pudAddr = t.wordAt c.pudAddr := by
  rw [pudclkAddr, regAddr_eq, Target.write_clk hw t v (bank_lt c hp), Target.wordAt_latchPulls,
    Target.wordAt_putWord_other _ _ (member_aligned hw.2.2.2.2.2.1 _) hw.2.2.2.2.1
      ((groups_of_wellFormed hw).pudClk _ (bank_lt c hp))]

theorem Target.clk_write_clk {c : Config} (hw : c.WellFormed) {p : Nat} (hp : p ≤ c.maxPin.toNat) (t : Target)
    (v : Word) : (t.write c (pudclkAddr c p) v).wordAt (pudclkAddr c p) = v := by
  rw [pudclkAddr, regAddr_eq, Target.write_clk hw t v (bank_lt c hp), Target.wordAt_latchPulls,
    Target.wordAt_putWord_same]

theorem Target.clk_write_pud {c : Config} (hw : c.WellFormed) {p : Nat} (hp : p ≤ c.maxPin.toNat) (t : Target)
    (v : Word) : (t.write c c.pudAddr v).wordAt (pudclkAddr c p) = t.wordAt (pudclkAddr c p) := by
  rw [Target.write_pud hw, pudclkAddr, regAddr_eq, Target.wordAt_putWord_other _ _ hw.2.2.2.2.1
    (member_aligned hw.2.2.2.2.2.1 _) ((groups_of_wellFormed hw).pudClk _ (bank_lt c hp)).symm]

/-- Everything steps 5 and 6 can do. -/
theorem clearPull_post {p : Word} {s : State} (hw : s.cfg.WellFormed) (hp : p.toNat ≤ s.cfg.maxPin.toNat) :
    (clearPull p s).Post (fun _ t => (s.rmw = none → t.rmw = none) ∧ ∃ d3 d4, Ran s t (clearEvents s.cfg p d3 d4))
      (fun t => ∃ d3 d4, Short (clearEvents s.cfg p d3 d4) fun es _ => Abandoned s t es)
      (fun f => ∃ d3 d4, Short (clearEvents s.cfg p d3 d4) (StuckAt s f)) := by
  unfold clearPull
  cases hc : s.cfg.pullClear with
  | wordWrite =>
    simp only [clearEvents, hc]
    rw [Flow.post_andThen]
    refine (memWrite_post _ _ s).mono ?_ (fun t h => ⟨0, 0, .head h⟩) fun f h => ⟨0, 0, .head h⟩
    rintro - t ⟨ht, htr⟩
    rw [ht.cfg]
    exact (memWrite_post _ _ t).mono (fun _ u hu => ⟨fun hr => hu.2.trans (htr.trans hr), 0, 0, ht.trans hu.1⟩)
      (fun u hu => ⟨0, 0, Short.abandoned ht (.head hu)⟩) fun f hf => ⟨0, 0, Short.stuck ht (.head hf)⟩
  | fieldRmw =>
    simp only [clearEvents, hc]
    rw [pudWrite_inRange hw (Nat.zero_le _), Flow.post_andThen]
    refine (rmwSuccess_post _ _ _ _ s).mono ?_ (fun t ⟨d, h⟩ => ⟨d, 0, h.extend _⟩)
      fun f ⟨d, h⟩ => ⟨d, 0, h.extend _⟩
    rintro r t ⟨-, -, d3, ht⟩
    rw [pudClkWrite_inRange (by rw [ht.cfg]; exact hw) (by rw [ht.cfg]; exact hp) (by decide), Flow.post_andThen, ht.cfg]
    refine (rmwSuccess_post _ _ _ _ t).mono ?_ (fun u ⟨d4, hu⟩ => ⟨d3, d4, Short.abandoned ht hu⟩)
      fun f ⟨d4, hf⟩ => ⟨d3, d4, Short.stuck ht hf⟩
    rintro r u ⟨-, hur, d4, hu⟩
    exact ⟨fun _ => hur, d3, d4, ht.trans hu⟩

/-- Everything the six steps can do. -/
theorem pullSequence_post {p m : Word} {s : State} (hw : s.cfg.WellFormed) (hp : p.toNat ≤ s.cfg.maxPin.toNat)
    (hm : m.toNat ≤ fieldMask s.cfg.pudWidth.toNat) :
    (pullSequence p m s).Post (fun _ t => t.rmw = none ∧ ∃ d, Ran s t (pullEvents s.cfg p m d))
      (fun t => ∃ d, Short (pullEvents s.cfg p m d) fun es _ => Abandoned s t es)
      (fun f => ∃ d, Short (pullEvents s.cfg p m d) (StuckAt s f)) := by
  have h1 : (pullStep1Value s.cfg m).toNat ≤ fieldMask s.cfg.pudWidth.toNat := by
    unfold pullStep1Value; split
    · exact hm
    · exact Nat.zero_le _
  unfold pullSequence
  rw [pudWrite_inRange hw h1, Flow.post_andThen]
  refine (rmwSuccess_post _ _ _ _ s).mono ?_ (fun t ⟨d, h⟩ => ⟨(d, 0, 0, 0), h.extend _⟩)
    fun f ⟨d, h⟩ => ⟨(d, 0, 0, 0), h.extend _⟩
  rintro - t1 ⟨-, -, d1, h1⟩
  rw [Flow.post_andThen, h1.cfg]
  refine (wait_post _ t1).mono ?_ (fun u hu => ⟨(d1, 0, 0, 0), Short.abandoned h1 (.head hu)⟩) fun _ h => h.elim
  rintro - t2 ⟨h2, -⟩
  have hc2 : t2.cfg = s.cfg := h2.cfg.trans h1.cfg
  rw [pudClkWrite_inRange (by rw [hc2]; exact hw) (by rw [hc2]; exact hp) (by decide), Flow.post_andThen, h2.cfg, h1.cfg]
  refine (rmwSuccess_post _ _ _ _ t2).mono ?_
    (fun u ⟨d2, hu⟩ => ⟨(d1, d2, 0, 0), Short.abandoned h1 (Short.abandoned h2 (hu.extend _))⟩)
    fun f ⟨d2, hf⟩ => ⟨(d1, d2, 0, 0), Short.stuck h1 (Short.stuck h2 (hf.extend _))⟩
  rintro - t3 ⟨-, hr3, d2, h3⟩
  rw [Flow.post_andThen, h3.cfg, h2.cfg, h1.cfg]
  refine (wait_post _ t3).mono ?_
    (fun u hu => ⟨(d1, d2, 0, 0), Short.abandoned h1 (Short.abandoned h2 (Short.abandoned h3 (.head hu)))⟩)
    fun _ h => h.elim
  rintro - t4 ⟨h4, hr4⟩
  have hc : t4.cfg = s.cfg := by rw [h4.cfg, h3.cfg, h2.cfg, h1.cfg]
  refine (clearPull_post (by rw [hc]; exact hw) (by rw [hc]; exact hp)).mono ?_ ?_ ?_ <;> rw [hc]
  · rintro - t5 ⟨hr5, d3, d4, h5⟩
    exact ⟨hr5 (hr4.trans hr3), (d1, d2, d3, d4), h1.trans (h2.trans (h3.trans (h4.trans h5)))⟩
  · rintro u ⟨d3, d4, hu⟩
    exact ⟨(d1, d2, d3, d4),
      Short.abandoned h1 (Short.abandoned h2 (Short.abandoned h3 (Short.abandoned h4 hu)))⟩
  · rintro f ⟨d3, d4, hf⟩
    exact ⟨(d1, d2, d3, d4), Short.stuck h1 (Short.stuck h2 (Short.stuck h3 (Short.stuck h4 hf)))⟩

/-! ### Everything a command can do -/

/-- A command has responded with the verdict `v` after the events `es`. -/
def Answered (s t : State) (v : Verdict) (es : List Event) : Prop :=
  ∃ m, Ran s m es ∧ (m.rmw = s.rmw ∨ m.rmw = none) ∧ (turnAt m.turns 0).reset = none ∧ t = (afterTurn m).answered v

/-- What a response leaves beside the target. -/
theorem Answered.facts {s t : State} {v : Verdict} {es : List Event} (h : Answered s t v es) :
    t.trace = s.trace ++ es ∧ t.stepNo = s.stepNo + es.length ∧ Responded v t ∧ SameSetting s t := by
  obtain ⟨m, hm, -, -, rfl⟩ := h
  exact ⟨hm.trace, hm.stepNo, ⟨rfl, rfl, rfl⟩, hm.cfg, hm.cmd, hm.inputs, hm.received, by simp [hm.epoch]⟩

/-- What the reads of a command that has responded gave: the first the next answer, each the answer of its turn. -/
theorem Answered.reads {s t : State} {v : Verdict} {es : List Event} (h : Answered s t v es) :
    (∀ a d after, es = .rd a d :: after → d = s.nextAnswer a) ∧
      ∀ before a d after x, es = before ++ .rd a d :: after → (turnAt s.turns before.length).answer = some x → d = x := by
  obtain ⟨m, hm, -, -, rfl⟩ := h
  exact ⟨hm.first, hm.answers⟩

/-- A command has responded REJECTED with no event: one turn of the environment has passed, and nothing else (R68). -/
def Rejected (s t : State) (c : RejectCause) : Prop :=
  (turnAt s.turns 0).reset = none ∧ t = (afterTurn s).answered (.rejected c)

theorem Rejected.answered {s t : State} {c : RejectCause} (h : Rejected s t c) : Answered s t (.rejected c) [] :=
  ⟨s, Ran.refl s, .inl rfl, h.1, h.2⟩

/-- A subroutine that rejects before any event or runs through one of the traces `tr`. -/
def RejectsOrRuns {D : Type} (sub : Flow Verdict) (s : State) (tr : D → List Event) : Prop :=
  sub.Post
    (fun r t => (∃ c, r = .rejected c ∧ t = s) ∨ (r = .success ∧ t.rmw = none ∧ ∃ d, Ran s t (tr d)))
    (fun t => ∃ d, Short (tr d) fun es _ => Abandoned s t es)
    (fun f => ∃ d, Short (tr d) (StuckAt s f))

theorem respond_rejected (s : State) (c : RejectCause) :
    (respond (.rejected c) s).Post (fun _ t => Rejected s t c) (fun t => Abandoned s t []) (fun _ => False) :=
  respond_post (.rejected c) s

theorem respond_answered {s m : State} {es : List Event} (v : Verdict) (h : Ran s m es)
    (hr : m.rmw = s.rmw ∨ m.rmw = none) :
    (respond v m).Post (fun _ t => Answered s t v es) (fun t => Abandoned s t es) (fun _ => False) :=
  (respond_post v m).mono (fun _ _ ⟨hn, e⟩ => ⟨m, h, hr, hn, e⟩)
    (fun _ ⟨m', k, hm, hk⟩ => ⟨m', k, by simpa using h.trans hm, hk⟩) fun _ h => h

/-- What a command over such a subroutine can do. -/
theorem RejectsOrRuns.respond {D : Type} {sub : Flow Verdict} {s : State} {tr : D → List Event} (d0 : D)
    (h : RejectsOrRuns sub s tr) :
    (sub.andThen respond).Post
      (fun _ t => (∃ c, Rejected s t c) ∨ ∃ d, Answered s t .success (tr d))
      (fun t => ∃ d es, es <+: tr d ∧ Abandoned s t es)
      (fun f => ∃ d, Short (tr d) (StuckAt s f)) := by
  rw [Flow.post_andThen]
  refine Flow.Post.mono h ?_ ?_ (fun _ h => h)
  · rintro r t (⟨c, rfl, rfl⟩ | ⟨rfl, hr, d, ht⟩)
    · exact (respond_rejected t c).mono (fun _ _ h => .inl ⟨c, h⟩)
        (fun _ h => ⟨d0, [], List.nil_prefix, h⟩) fun _ h => h.elim
    · exact (respond_answered _ ht (.inr hr)).mono (fun _ _ h => .inr ⟨d, h⟩)
        (fun _ h => ⟨d, tr d, List.prefix_rfl, h⟩) fun _ h => h.elim
  · rintro t ⟨d, es, e, rest, htr, h⟩
    exact ⟨d, es, ⟨e :: rest, htr.symm⟩, h⟩

/-- The traces a command that succeeds can have (R13, R67, R76, R77, R81). -/
def CommandTrace (c : Config) : Instr → List Event → Prop
  | .writeField i v b w _, es => ∃ d, es =
      rmwEvents (regAddr b i.toNat w.toNat) (fieldShift i.toNat w.toNat) (maskWord w.toNat) v d
  | .setFunction p f, es => p.toNat ≤ c.maxPin.toNat ∧
      ∃ d, es = rmwEvents (fselAddr c p.toNat) (fselShift c p.toNat) (fselMask c) f d
  | .drive p l, es => p.toNat ≤ c.maxPin.toNat ∧ ∃ d, es = driveEvents c p l d
  | .setPull p m, es => p.toNat ≤ c.maxPin.toNat ∧ m.toNat ≤ fieldMask c.pudWidth.toNat ∧
      ∃ d, es = pullEvents c p m d

/-- The flow of a command's pseudocode, before its outcome. -/
def body (i : Instr) (s : State) : Flow Unit :=
  match i with
  | .writeField i v b w max => (fieldWrite i v b w max s).andThen respond
  | .setFunction p f => (fselWrite p f s).andThen respond
  | .drive p l => (if l ≠ 0 then setWrite p s else clrWrite p s).andThen respond
  | .setPull p m =>
    if p.toNat > s.cfg.maxPin.toNat then respond (.rejected .index) s
    else if m.toNat > fieldMask s.cfg.pudWidth.toNat then respond (.rejected .value) s
    else (pullSequence p m s).andThen fun _ s => respond .success s

theorem exec_eq (i : Instr) (s : State) : exec i s = command (body i) s := by cases i <;> rfl

theorem exec_of_wellFormed {s : State} (h : s.cfg.WellFormed) (i : Instr) : exec i s = (body i s).outcome := by
  rw [exec_eq, command, if_pos h]

/-- Everything a command can do: reject before any event, run through one of its traces, be abandoned by a reset after
some of its events, or be stuck at one of its accesses (R85). -/
theorem body_post (i : Instr) {s : State} (hc : s.cfg.WellFormed) :
    (body i s).Post
      (fun _ t => (∃ c, Rejected s t c) ∨ ∃ es, CommandTrace s.cfg i es ∧ Answered s t .success es)
      (fun t => Abandoned s t [] ∨ ∃ tr es, CommandTrace s.cfg i tr ∧ es <+: tr ∧ Abandoned s t es)
      (fun f => ∃ tr, CommandTrace s.cfg i tr ∧ Short tr (StuckAt s f)) := by
  cases i with
  | writeField i v b w max =>
    have h : RejectsOrRuns (fieldWrite i v b w max s) s
        (rmwEvents (regAddr b i.toNat w.toNat) (fieldShift i.toNat w.toNat) (maskWord w.toNat) v) :=
      fieldWrite_post i v b w max s
    exact (h.respond 0).mono (fun _ t ht => ht.imp id fun ⟨d, h⟩ => ⟨_, ⟨d, rfl⟩, h⟩)
      (fun t ⟨d, es, he, h⟩ => .inr ⟨_, es, ⟨d, rfl⟩, he, h⟩) fun f ⟨d, h⟩ => ⟨_, ⟨d, rfl⟩, h⟩
  | setFunction p f =>
    by_cases hp : p.toNat ≤ s.cfg.maxPin.toNat
    · have h : RejectsOrRuns (fselWrite p f s) s
          (rmwEvents (fselAddr s.cfg p.toNat) (fselShift s.cfg p.toNat) (fselMask s.cfg) f) :=
        (fselWrite_post p f s).mono (fun _ _ h => h.imp id fun h => ⟨h.1, h.2.2⟩) (fun _ h => h.2) fun _ h => h.2
      exact (h.respond 0).mono (fun _ t ht => ht.imp id fun ⟨d, h⟩ => ⟨_, ⟨hp, d, rfl⟩, h⟩)
        (fun t ⟨d, es, he, h⟩ => .inr ⟨_, es, ⟨hp, d, rfl⟩, he, h⟩) fun f ⟨d, h⟩ => ⟨_, ⟨hp, d, rfl⟩, h⟩
    · rw [body, fselWrite_badPin f s (Nat.not_le.1 hp), Flow.andThen_go]
      exact (respond_rejected s _).mono (fun _ _ h => .inl ⟨_, h⟩) (fun _ h => .inl h)
        fun _ h => h.elim
  | drive p l =>
    by_cases hp : p.toNat ≤ s.cfg.maxPin.toNat
    · have h : RejectsOrRuns (if l ≠ 0 then setWrite p s else clrWrite p s) s (driveEvents s.cfg p l) := by
        rw [RejectsOrRuns, driveWrite_inRange l hc hp]
        exact (rmwSuccess_post _ _ _ _ s).mono (fun _ _ h => .inr h) (fun _ h => h) fun _ h => h
      exact (h.respond 0).mono (fun _ t ht => ht.imp id fun ⟨d, h⟩ => ⟨_, ⟨hp, d, rfl⟩, h⟩)
        (fun t ⟨d, es, he, h⟩ => .inr ⟨_, es, ⟨hp, d, rfl⟩, he, h⟩) fun f ⟨d, h⟩ => ⟨_, ⟨hp, d, rfl⟩, h⟩
    · rw [body, driveWrite_outOfRange l hc (Nat.not_le.1 hp), Flow.andThen_go]
      exact (respond_rejected s _).mono (fun _ _ h => .inl ⟨_, h⟩) (fun _ h => .inl h)
        fun _ h => h.elim
  | setPull p m =>
    have hrej : ∀ c, (respond (.rejected c) s).Post
        (fun _ t => (∃ c, Rejected s t c) ∨
          ∃ es, CommandTrace s.cfg (.setPull p m) es ∧ Answered s t .success es)
        (fun t => Abandoned s t [] ∨ ∃ tr es, CommandTrace s.cfg (.setPull p m) tr ∧ es <+: tr ∧ Abandoned s t es)
        (fun f => ∃ tr, CommandTrace s.cfg (.setPull p m) tr ∧ Short tr (StuckAt s f)) := fun c =>
      (respond_rejected s c).mono (fun _ _ h => .inl ⟨_, h⟩) (fun _ h => .inl h)
        fun _ h => h.elim
    simp only [body]
    split
    · exact hrej _
    · split
      · exact hrej _
      · rename_i hp hm
        have hp := Nat.not_lt.1 hp
        have hm := Nat.not_lt.1 hm
        rw [Flow.post_andThen]
        refine (pullSequence_post hc hp hm).mono ?_ ?_ fun f ⟨d, h⟩ => ⟨_, ⟨hp, hm, d, rfl⟩, h⟩
        · rintro - t ⟨hr, d, ht⟩
          exact (respond_answered _ ht (.inr hr)).mono (fun _ _ h => .inr ⟨_, ⟨hp, hm, d, rfl⟩, h⟩)
            (fun _ h => .inr ⟨_, _, ⟨hp, hm, d, rfl⟩, List.prefix_rfl, h⟩) fun _ h => h.elim
        · rintro t ⟨d, es, e, rest, htr, h⟩
          exact .inr ⟨_, es, ⟨hp, hm, d, rfl⟩, ⟨e :: rest, htr.symm⟩, h⟩

/-- Everything a command that ends in a next state has done. -/
theorem exec_next {i : Instr} {s t : State} (h : exec i s = .next t) :
    s.cfg.WellFormed ∧ ((∃ c, Rejected s t c) ∨
      (∃ es, CommandTrace s.cfg i es ∧ Answered s t .success es) ∨
      Abandoned s t [] ∨ ∃ tr es, CommandTrace s.cfg i tr ∧ es <+: tr ∧ Abandoned s t es) := by
  by_cases hc : s.cfg.WellFormed
  · rw [exec_of_wellFormed hc] at h
    refine ⟨hc, ?_⟩
    rcases (body_post i hc).outcome h with (h | h) | h
    · exact .inl h
    · exact .inr (.inl h)
    · exact .inr (.inr h)
  · rw [exec_eq, command, if_neg hc] at h; cases h

/-- Everything a command that faults has done: it is stuck at one of its accesses (R36, R88). -/
theorem exec_fault {i : Instr} {s : State} {f : Fault} (h : exec i s = .fault f) :
    ∃ tr, CommandTrace s.cfg i tr ∧ Short tr (StuckAt s f) := by
  by_cases hc : s.cfg.WellFormed
  · rw [exec_of_wellFormed hc] at h
    have hp := body_post i hc
    cases hb : body i s <;> rw [hb] at h hp <;> cases h
    exact hp
  · rw [exec_eq, command, if_neg hc] at h; cases h

/-- A trace has two to ten events (R84). -/
theorem CommandTrace.length {c : Config} {i : Instr} {es : List Event} (h : CommandTrace c i es) :
    2 ≤ es.length ∧ es.length ≤ 10 := by
  cases i with
  | writeField => obtain ⟨d, rfl⟩ := h; simp [rmwEvents]
  | setFunction => obtain ⟨_, d, rfl⟩ := h; simp [rmwEvents]
  | drive => obtain ⟨_, d, rfl⟩ := h; simp [driveEvents, rmwEvents]
  | setPull =>
    obtain ⟨_, _, d, rfl⟩ := h
    simp only [pullEvents, clearEvents]
    split <;> simp [pudEvents, clkEvents, rmwEvents]

/-- A trace's events are of the kinds R84 lists. -/
theorem CommandTrace.kinds {c : Config} {i : Instr} {es : List Event} (h : CommandTrace c i es) :
    es.map Event.kind = commandKinds c i := by
  cases i with
  | writeField => obtain ⟨d, rfl⟩ := h; rfl
  | setFunction => obtain ⟨_, d, rfl⟩ := h; rfl
  | drive => obtain ⟨_, d, rfl⟩ := h; rfl
  | setPull =>
    obtain ⟨_, _, d, rfl⟩ := h
    cases hc : c.pullClear <;>
      simp [pullEvents, clearEvents, pudEvents, clkEvents, rmwEvents, hc, Event.kind, commandKinds]

/-- The registers of a valid pin are registers of the pin controller (R8, R22). -/
theorem mem_registers {c : Config} {p : Word} (hp : p.toNat ≤ c.maxPin.toNat) :
    fselAddr c p.toNat ∈ registers c ∧ (∀ l, driveAddr c p l ∈ registers c) ∧ pudclkAddr c p.toNat ∈ registers c ∧
      c.pudAddr ∈ registers c := by
  have h1 := fselBank_lt c hp
  have h2 := bank_lt c hp
  simp only [registers, List.mem_append, List.mem_map, List.mem_range, List.mem_singleton]
  refine ⟨.inl (.inl (.inl (.inl ⟨_, h1, rfl⟩))), fun l => ?_, .inr ⟨_, h2, rfl⟩, .inl (.inr trivial)⟩
  unfold driveAddr
  split
  · exact .inl (.inl (.inl (.inr ⟨_, h2, rfl⟩)))
  · exact .inl (.inl (.inr ⟨_, h2, rfl⟩))

/-- With no reset in the turns of its traces, a command that ends in a next state has responded. -/
theorem exec_next_noReset {i : Instr} {s t : State} {n : Nat} (h : exec i s = .next t) (hr : s.NoReset n) (h0 : 0 < n)
    (hn : ∀ es, CommandTrace s.cfg i es → es.length < n) :
    (∃ c, Rejected s t c) ∨ ∃ es, CommandTrace s.cfg i es ∧ Answered s t .success es := by
  have hno : ∀ es, es.length < n → ¬ Abandoned s t es := by
    rintro es hl ⟨m, k, hm, hk, -⟩
    rw [hm.turns, turnAt_drop, Nat.add_zero, hr _ hl] at hk
    cases hk
  obtain ⟨_, h | h | h | ⟨tr, es, hc, hp, h⟩⟩ := exec_next h
  · exact .inl h
  · exact .inr h
  · exact (hno [] h0 h).elim
  · exact (hno es (Nat.lt_of_le_of_lt hp.length_le (hn _ hc)) h).elim

/-! ### Commands that nothing disturbs -/

theorem exec_rejected {i : Instr} {s : State} {c : RejectCause} (hw : s.cfg.WellFormed) (hr : s.NoReset 1)
    (hb : body i s = respond (.rejected c) s) : exec i s = .next ((afterTurn s).answered (.rejected c)) := by
  rw [exec_of_wellFormed hw, hb, respond_go (hr 0 (by omega))]
  rfl

theorem exec_readModifyWrite {i : Instr} {s : State} {a : Word} {sh : Nat} {m v : Word} (hw : s.cfg.WellFormed)
    (hu : s.Undisturbed 3) (ha : Aligned a)
    (hb : body i s = (rmwSuccess a sh m v s).andThen respond) :
    exec i s = .next ((afterTurn (rmwState s a sh m v)).answered .success) := by
  rw [exec_of_wellFormed hw, hb, rmwSuccess, readModifyWrite_go _ _ _ ha (fun k hk => hu k (by omega))]
  simp only [Flow.andThen_go]
  rw [respond_go]
  · rfl
  · simpa [rmwState] using (hu 2 (by omega)).1

@[simp] theorem rmwTarget_epoch (s : State) (a : Word) (sh : Nat) (m v : Word) :
    (rmwTarget s a sh m v).epoch = s.target.epoch := by simp [rmwTarget, rmwAnswer]

/-- A command all of whose accesses are aligned, in turns that disturb nothing, is never stuck and never abandoned. -/
theorem body_completes {i : Instr} {s : State} {n : Nat} (hw : s.cfg.WellFormed) (hu : s.Undisturbed n) (h0 : 0 < n)
    (hn : ∀ es, CommandTrace s.cfg i es → es.length < n ∧ ∀ e ∈ es, ∀ a, e.addr? = some a → Aligned a) :
    ∃ t, body i s = .go () t ∧
      ((∃ c, Rejected s t c) ∨ ∃ es, CommandTrace s.cfg i es ∧ Answered s t .success es) := by
  have hno : ∀ t es, es.length < n → ¬ Abandoned s t es := by
    rintro t es hl ⟨m, k, hm, hk, -⟩
    rw [hm.turns, turnAt_drop, Nat.add_zero, (hu _ hl).1] at hk
    cases hk
  have hp := body_post i hw
  cases hb : body i s with
  | go x t => rw [hb] at hp; exact ⟨t, rfl, hp⟩
  | abandoned t =>
    rw [hb] at hp
    rcases hp with h | ⟨tr, es, hc, hpre, h⟩
    · exact (hno t [] h0 h).elim
    · exact (hno t es (Nat.lt_of_le_of_lt hpre.length_le (hn _ hc).1) h).elim
  | stuck f =>
    rw [hb] at hp
    obtain ⟨tr, hc, h⟩ := hp
    exact (h.not_stuck (fun k hk => hu k (Nat.lt_trans hk (hn _ hc).1)) (hn _ hc).2).elim

/-- A SET_PULL of a valid pin and mode that nothing disturbs runs its sequence whole. -/
theorem setPull_completes {s : State} {p m : Word} {n : Nat} (hw : s.cfg.WellFormed) (hu : s.Undisturbed n)
    (hp : p.toNat ≤ s.cfg.maxPin.toNat) (hm : m.toNat ≤ fieldMask s.cfg.pudWidth.toNat)
    (hn : ∀ d, (pullEvents s.cfg p m d).length < n) :
    ∃ d t, exec (.setPull p m) s = .next t ∧ Answered s t .success (pullEvents s.cfg p m d) ∧ t.rmw = none := by
  have h0 : 0 < n := Nat.lt_of_le_of_lt (Nat.zero_le _) (hn default)
  obtain ⟨t, hb, -⟩ := body_completes (i := .setPull p m) hw hu h0 (by
    rintro es ⟨_, _, d, rfl⟩; exact ⟨hn d, fun _ he _ ha => pullEvents_aligned hw he ha⟩)
  have hbody : body (.setPull p m) s = (pullSequence p m s).andThen fun _ s => respond .success s := by
    simp only [body]
    rw [if_neg (Nat.not_lt.2 hp), if_neg (Nat.not_lt.2 hm)]
  have hpp := pullSequence_post hw hp hm
  rw [hbody] at hb
  cases hps : pullSequence p m s with
  | go x u =>
    rw [hps] at hb hpp
    have hr := respond_post .success u
    rw [Flow.andThen_go] at hb
    rw [hb] at hr
    obtain ⟨hr, rfl⟩ := hr
    obtain ⟨h1, d, h2⟩ := hpp
    refine ⟨d, _, ?_, ⟨u, h2, .inr h1, hr, rfl⟩, h1⟩
    rw [exec_of_wellFormed hw, hbody, hps, Flow.andThen_go, hb]
    rfl
  | abandoned u => rw [hps] at hb; cases hb
  | stuck u => rw [hps] at hb; cases hb

/-! ### Commands with no other master -/

/-- What a command leaves that has responded after the events `es` with no other master at the bus (R98): its writes in
their order at the target, and nothing else. -/
structure SoleAnswered (s t : State) (v : Verdict) (es : List Event) : Prop where
  setting : SameSetting s t
  trace : t.trace = s.trace ++ es
  stepNo : t.stepNo = s.stepNo + es.length
  result : t.result = some v.result
  target : t.target = { playEvents s.cfg es s.target with draws := t.target.draws }
  reads : s.AnsweredByTarget es.length → ∀ before a d after, es = before ++ .rd a d :: after →
    writeOnly s.cfg a = false → d = (playEvents s.cfg before s.target).wordAt a

theorem Answered.sole {s t : State} {v : Verdict} {es : List Event} (h : Answered s t v es)
    (hs : s.Sole (es.length + 1)) : SoleAnswered s t v es := by
  obtain ⟨m, hm, -, -, rfl⟩ := h
  have hs' : s.Sole es.length := fun k hk => hs k (by omega)
  have hwr : (turnAt m.turns 0).writes = [] := by
    rw [hm.turns, turnAt_drop]
    exact (hs es.length (by omega)).2
  have ht : ((afterTurn m).answered v).target = m.target := by simp [hwr]
  exact ⟨⟨hm.cfg, hm.cmd, hm.inputs, hm.received, by rw [ht]; exact hm.epoch⟩, hm.trace, hm.stepNo, rfl,
    by rw [ht]; exact hm.writes hs', fun ha => hm.reads hs' ha⟩

theorem Rejected.sole {s t : State} {c : RejectCause} (h : Rejected s t c) (hs : s.Sole 1) :
    t.target = s.target ∧ SameSetting s t ∧ t.result = some .rejected := by
  have ht : ((afterTurn s).answered (.rejected c)).target = s.target := by simp [(hs 0 (by omega)).2]
  obtain ⟨-, rfl⟩ := h
  exact ⟨ht, ⟨rfl, rfl, rfl, rfl, by rw [ht]⟩, rfl⟩

namespace SoleAnswered

theorem byteAt {s t : State} {v : Verdict} {es : List Event} (h : SoleAnswered s t v es) {x : Nat}
    (hx : ∀ a v, Event.wr a v ∈ es → OutsideWord a x) : t.target.byteAt x = s.target.byteAt x := by
  rw [h.target, withDraws_byteAt, playEvents_byteAt _ _ _ hx]

theorem wordAt {s t : State} {v : Verdict} {es : List Event} (h : SoleAnswered s t v es) (a : Word) :
    t.target.wordAt a = (playEvents s.cfg es s.target).wordAt a := by rw [h.target, withDraws_wordAt]

theorem levels {s t : State} {v : Verdict} {es : List Event} (h : SoleAnswered s t v es) :
    t.target.levels = (playEvents s.cfg es s.target).levels := by rw [h.target]

theorem pulls {s t : State} {v : Verdict} {es : List Event} (h : SoleAnswered s t v es) :
    t.target.pulls = (playEvents s.cfg es s.target).pulls := by rw [h.target]

end SoleAnswered

end Sys2Proof.Machine
end

