-- ==== Sys2Proof/Laws/Encoding.lean ====
section
/-! SUPPORT. Laws of the packed request as a number (R53). -/

namespace Sys2Proof

theorem toNat_append_add {m n : Nat} (x : BitVec m) (y : BitVec n) : (x ++ y).toNat = x.toNat * 2 ^ n + y.toNat := by
  rw [BitVec.toNat_append, ← Nat.shiftLeft_add_eq_or_of_lt y.isLt, Nat.shiftLeft_eq]

theorem toNat_extract {w : Nat} (x : BitVec w) (s n : Nat) : (x.extractLsb' s n).toNat = x.toNat / 2 ^ s % 2 ^ n := by
  rw [BitVec.extractLsb'_toNat, Nat.shiftRight_eq_div_pow]

/-- The packed request as a sum of its fields at their places. -/
theorem encodeRequest_toNat (q : Request) : (encodeRequest q).toNat =
    q.op.toNat + q.index.toNat * 2 ^ 4 + q.value.toNat * 2 ^ 36 + q.base.toNat * 2 ^ 68 + q.width.toNat * 2 ^ 100 +
      q.maxIdx.toNat * 2 ^ 132 := by
  simp only [encodeRequest, toNat_append_add]
  omega

end Sys2Proof
end

