-- ==== Sys2Proof/Laws/Fields.lean ====
section
/-! SUPPORT. Laws of the word arithmetic: the bits of a mask, of a word with a field inserted, and of a pin's latches. -/

namespace Sys2Proof.Machine

open Sys2Proof

theorem getLsbD_maskWord {w : Nat} (hw : w ≤ 32) (j : Nat) : (maskWord w).getLsbD j = decide (j < w) := by
  simp only [maskWord, fieldMask, BitVec.getLsbD_ofNat, Nat.testBit_two_pow_sub_one]
  by_cases h : j < w
  · simp [h, show j < 32 by omega]
  · simp [h]

theorem getLsbD_of_lt_two_pow {v : Word} {w j : Nat} (hv : v.toNat < 2 ^ w) (hj : w ≤ j) : v.getLsbD j = false := by
  rw [BitVec.getLsbD]
  exact Nat.testBit_lt_two_pow (Nat.lt_of_lt_of_le hv (Nat.pow_le_pow_right (by decide) hj))

/-- The bits of a word with a field inserted: the value's inside the field, the old word's outside (R65, R69). -/
theorem getLsbD_insertField {d v : Word} {sh w : Nat} (hw : sh + w ≤ 32) (hv : v.toNat < 2 ^ w) (j : Nat) :
    (insertField d sh (maskWord w) v).getLsbD j =
      if sh ≤ j ∧ j < sh + w then v.getLsbD (j - sh) else d.getLsbD j := by
  simp only [insertField, BitVec.getLsbD_or, BitVec.getLsbD_and, BitVec.getLsbD_not, BitVec.getLsbD_shiftLeft,
    getLsbD_maskWord (show w ≤ 32 by omega)]
  by_cases h32 : j < 32
  · by_cases h1 : j < sh
    · simp [h32, h1, show ¬ sh ≤ j by omega]
    · by_cases h2 : j < sh + w
      · simp [h32, h1, show sh ≤ j by omega, h2, show j - sh < w by omega]
      · simp [h32, h1, h2, show ¬ j - sh < w by omega, getLsbD_of_lt_two_pow hv (show w ≤ j - sh by omega)]
  · simp [h32, show ¬ j < sh + w by omega, show d.getLsbD j = false from BitVec.getLsbD_of_ge d j (by omega)]

theorem maskWord_one : maskWord 1 = 1 := rfl
theorem maskWord_two : maskWord 2 = 3 := rfl
theorem maskWord_three : maskWord 3 = 7 := rfl

/-- Setting a one-bit field is an OR with its bit (R77). -/
theorem insertField_one (d : Word) (sh : Nat) : insertField d sh 1 1 = d ||| ((1 : Word) <<< sh) := by
  apply BitVec.eq_of_getLsbD_eq
  intro j hj
  simp only [insertField, BitVec.getLsbD_or, BitVec.getLsbD_and, BitVec.getLsbD_not, hj, decide_true, Bool.true_and]
  cases d.getLsbD j <;> cases ((1 : Word) <<< sh).getLsbD j <;> rfl

/-- Clearing a field is an AND with the complement of its mask (R83). -/
theorem insertField_zero (d : Word) (sh : Nat) (m : Word) : insertField d sh m 0 = d &&& ~~~(m <<< sh) := by
  simp [insertField]

theorem insertField_noShift (d m v : Word) : insertField d 0 m v = (d &&& ~~~m) ||| v := by
  simp [insertField]

theorem getLsbD_bit {sh : Nat} (hs : sh < 32) (j : Nat) : ((1 : Word) <<< sh).getLsbD j = decide (j = sh) := by
  rw [BitVec.getLsbD_shiftLeft]
  by_cases h : j = sh
  · subst h; simp [hs]
  · by_cases hlt : j < sh
    · simp [hlt, h]
    · simp [h]; omega

theorem fieldShift_lt {w : Nat} (h : ValidWidth w) (i : Nat) : fieldShift i w < 32 := by
  have := fieldShift_add_le h i
  have := h.1
  omega

/-- Two indexes share the field at a shift exactly when they are the same slot of a register. -/
theorem fieldShift_mem_iff {w : Nat} (h : ValidWidth w) (p q : Nat) :
    (fieldShift p w ≤ fieldShift q w ∧ fieldShift q w < fieldShift p w + w) ↔
      q % fieldsPerReg w = p % fieldsPerReg w := by
  have hw := h.1
  simp only [fieldShift]
  generalize q % fieldsPerReg w = a
  generalize p % fieldsPerReg w = b
  constructor
  · rintro ⟨h1, h2⟩
    have hba : b ≤ a := Nat.le_of_mul_le_mul_right h1 (by omega)
    have hab : a < b + 1 := Nat.lt_of_mul_lt_mul_right (a := w) (by rw [Nat.add_mul, Nat.one_mul]; exact h2)
    omega
  · rintro rfl; omega

/-- An index is its register and its slot there. -/
theorem slot_inj {n p q : Nat} : q / n = p / n ∧ q % n = p % n ↔ q = p :=
  ⟨fun ⟨h1, h2⟩ => by rw [← Nat.div_add_mod q n, ← Nat.div_add_mod p n, h1, h2], fun h => h ▸ ⟨rfl, rfl⟩⟩

/-- The lowest bit of every field of a register, after a field of it has been written (R65). -/
theorem lowBit_insertField {w : Nat} (h : ValidWidth w) (d v : Word) (hv : v.toNat ≤ fieldMask w) (p q : Nat) :
    (insertField d (fieldShift p w) (maskWord w) v).getLsbD (fieldShift q w) =
      if q % fieldsPerReg w = p % fieldsPerReg w then v.getLsbD 0 else d.getLsbD (fieldShift q w) := by
  have hv' : v.toNat < 2 ^ w := by have := Nat.two_pow_pos w; simp only [fieldMask] at hv; omega
  rw [getLsbD_insertField (fieldShift_add_le h p) hv']
  by_cases e : q % fieldsPerReg w = p % fieldsPerReg w
  · rw [if_pos ((fieldShift_mem_iff h p q).2 e), if_pos e, fieldShift, e, fieldShift, Nat.sub_self]
  · rw [if_neg (fun hq => e ((fieldShift_mem_iff h p q).1 hq)), if_neg e]

/-- The field just written, as the field it was written to reads (R69). -/
theorem fieldValue_insertField {sh w : Nat} (hw : sh + w ≤ 32) (d v : Word) (hv : v.toNat ≤ fieldMask w) :
    fieldValue (insertField d sh (maskWord w) v) sh w = v := by
  have hv' : v.toNat < 2 ^ w := by have := Nat.two_pow_pos w; simp only [fieldMask] at hv; omega
  apply BitVec.eq_of_getLsbD_eq
  intro j hj
  rw [fieldValue, BitVec.getLsbD_and, BitVec.getLsbD_ushiftRight, getLsbD_maskWord (by omega),
    getLsbD_insertField hw hv']
  by_cases h : j < w
  · simp [h]
  · simp [h, getLsbD_of_lt_two_pow hv' (Nat.not_lt.1 h)]

/-! ### The pins' functions -/

/-- A pin's function field lies within its register (R70, R72). -/
theorem fselShift_fits {c : Config} (h : c.WellFormed) (p : Nat) : fselShift c p + c.fselWidth ≤ 32 :=
  Nat.le_trans (fselShift_add_le c h.1.2.1 p) h.1.2.2.1

/-- Two slots of a function-select register do not overlap (R70). -/
theorem fselShift_apart (c : Config) {p q : Nat} (h : q % c.fselPerReg ≠ p % c.fselPerReg) :
    fselShift c q + c.fselWidth ≤ fselShift c p ∨ fselShift c p + c.fselWidth ≤ fselShift c q := by
  rw [fselShift_eq, fselShift_eq, ← Nat.succ_mul, ← Nat.succ_mul]
  exact (Nat.lt_or_gt_of_ne h).imp (Nat.mul_le_mul_right _) (Nat.mul_le_mul_right _)

/-- What a write of one pin's function field leaves every pin (R69, R76). -/
theorem pinFunction_write {c : Config} (hw : c.WellFormed) (t : Target) {p q : Nat} {f : Word}
    (hp : p ≤ c.maxPin.toNat) (hq : q ≤ c.maxPin.toNat) (hf : f.toNat ≤ fieldMask c.fselWidth) :
    pinFunction c (t.putWord (fselAddr c p)
        (insertField (t.wordAt (fselAddr c p)) (fselShift c p) (fselMask c) f)) q =
      if q = p then f else pinFunction c t q := by
  have hfit := fselShift_fits hw p
  have hf' : f.toNat < 2 ^ c.fselWidth := by have := Nat.two_pow_pos c.fselWidth; simp only [fieldMask] at hf; omega
  unfold pinFunction
  by_cases ha : q / c.fselPerReg = p / c.fselPerReg
  · rw [show fselAddr c q = fselAddr c p by rw [fselAddr_eq, fselAddr_eq, ha], Target.wordAt_putWord_same]
    by_cases he : q = p
    · subst he; rw [if_pos rfl, fselMask, fieldValue_insertField hfit _ _ hf]
    · have hs := fselShift_apart c fun h => he (slot_inj.1 ⟨ha, h⟩)
      rw [if_neg he]
      apply BitVec.eq_of_getLsbD_eq
      intro j hj
      simp only [fieldValue, BitVec.getLsbD_and, BitVec.getLsbD_ushiftRight,
        getLsbD_maskWord (show c.fselWidth ≤ 32 by omega)]
      by_cases h : j < c.fselWidth
      · rw [fselMask, getLsbD_insertField hfit hf', if_neg (by omega)]
      · simp [h]
  · rw [if_neg (fun h => ha (by rw [h])),
      Target.wordAt_putWord_other _ _ (fselAddr_aligned hw.2.1 _) (fselAddr_aligned hw.2.1 _)]
    rw [fselAddr_eq, fselAddr_eq]
    exact fun e => ha (fsel_inj hw (fselBank_lt c hq) (fselBank_lt c hp) e)

/-! ### The pins' latches -/

theorem pinLevel_setLevels {c : Config} (h : c.WellFormed) (n : Nat) (v : Word) (t : Target) (q : Nat) :
    pinLevel (t.setLevels c n v) q =
      if q ≤ c.maxPin.toNat ∧ q / pinsPerBank c = n ∧ v.getLsbD (fieldShift q c.bitWidth.toNat) = true then true
      else pinLevel t q := by
  rw [pinLevel, Target.setLevels_levels, get?_latchPins h]
  split <;> rfl

theorem pinLevel_clearLevels {c : Config} (h : c.WellFormed) (n : Nat) (v : Word) (t : Target) (q : Nat) :
    pinLevel (t.clearLevels c n v) q =
      if q ≤ c.maxPin.toNat ∧ q / pinsPerBank c = n ∧ v.getLsbD (fieldShift q c.bitWidth.toNat) = true then false
      else pinLevel t q := by
  rw [pinLevel, Target.clearLevels_levels, get?_latchPins h]
  split <;> rfl

theorem pinPull_latchPulls {c : Config} (h : c.WellFormed) (n : Nat) (v : Word) (t : Target) (q : Nat) :
    pinPull c (t.latchPulls c n v) q =
      if q ≤ c.maxPin.toNat ∧ q / pinsPerBank c = n ∧ v.getLsbD (fieldShift q c.bitWidth.toNat) = true then
        t.pudMode c
      else pinPull c t q := by
  rw [pinPull, Target.latchPulls_pulls, get?_latchPins h]
  split <;> rfl

@[simp] theorem pinPull_putWord (c : Config) (a v : Word) (t : Target) (q : Nat) :
    pinPull c (t.putWord a v) q = pinPull c t q := rfl
@[simp] theorem pinLevel_putWord (a v : Word) (t : Target) (q : Nat) : pinLevel (t.putWord a v) q = pinLevel t q := rfl

/-- A pin's latches are read from the latches and the power-up in force alone. -/
theorem pinPull_of_pulls {t u : Target} (h : u.pulls = t.pulls) (he : u.epoch = t.epoch) (c : Config) (q : Nat) :
    pinPull c u q = pinPull c t q := by simp only [pinPull, h, he]
theorem pinLevel_of_levels {t u : Target} (h : u.levels = t.levels) (he : u.epoch = t.epoch) (q : Nat) :
    pinLevel u q = pinLevel t q := by simp only [pinLevel, h, he]

/-- The mode PUD holds, as a mask of its word. -/
theorem pudMode_eq (c : Config) (t : Target) : t.pudMode c = t.wordAt c.pudAddr &&& maskWord c.pudWidth.toNat := by
  simp [Target.pudMode, fieldValue]

/-! ### The defaults of R6 -/

theorem atDefaults_maxPin {c : Config} (h : c.AtDefaults) : c.maxPin.toNat = 53 := by rw [h.1]; rfl
theorem atDefaults_bitWidth {c : Config} (h : c.AtDefaults) : c.bitWidth.toNat = 1 := by rw [h.2.2.2.1]; rfl
theorem atDefaults_pudWidth {c : Config} (h : c.AtDefaults) : c.pudWidth.toNat = 2 := by rw [h.2.2.2.2.1]; rfl
theorem atDefaults_pinsPerBank {c : Config} (h : c.AtDefaults) : pinsPerBank c = 32 := by
  rw [pinsPerBank, atDefaults_bitWidth h]; rfl
theorem atDefaults_bankCount {c : Config} (h : c.AtDefaults) : bankCount c = 2 := by
  rw [bankCount, atDefaults_pinsPerBank h, atDefaults_maxPin h]
theorem atDefaults_fselCount {c : Config} (h : c.AtDefaults) : fselCount c = 6 := by
  rw [fselCount, h.2.2.1, atDefaults_maxPin h]
theorem atDefaults_fselShift {c : Config} (h : c.AtDefaults) (p : Nat) : fselShift c p = p * 3 % 30 := by
  rw [fselShift, h.2.1, h.2.2.1]
theorem atDefaults_fselMask {c : Config} (h : c.AtDefaults) : fselMask c = 7 := by rw [fselMask, h.2.1]; rfl

/-- The bit-field parameters of a pin at the defaults: its register, its bit, and the masks. -/
theorem atDefaults_bit {c : Config} (h : c.AtDefaults) (b : Word) (p : Nat) :
    regAddr b p c.bitWidth.toNat = BitVec.ofNat 32 (b.toNat + p / 32 * 4) ∧ fieldShift p c.bitWidth.toNat = p % 32 ∧
      maskWord c.bitWidth.toNat = 1 ∧ maskWord c.pudWidth.toNat = 3 := by
  rw [atDefaults_bitWidth h, atDefaults_pudWidth h]
  exact ⟨rfl, Nat.mul_one _, rfl, rfl⟩

/-- The registers at the defaults, thirteen of them (R8, R42). -/
theorem atDefaults_registers {c : Config} (h : c.AtDefaults) : registers c =
    [c.fselBase, c.fselBase + 4, c.fselBase + 8, c.fselBase + 12, c.fselBase + 16, c.fselBase + 20, c.setBase,
      c.setBase + 4, c.clrBase, c.clrBase + 4, c.pudAddr, c.pudclkBase, c.pudclkBase + 4] := by
  have hm : ∀ (b : Word) (n : Nat), member b n = b + BitVec.ofNat 32 (4 * n) := fun b n => by
    apply BitVec.eq_of_toNat_eq
    simp only [member, BitVec.toNat_ofNat, BitVec.toNat_add]
    omega
  simp [registers, atDefaults_fselCount h, atDefaults_bankCount h, List.range, List.range.loop, hm]

end Sys2Proof.Machine
end

