-- ==== Sys2Proof/Laws/Step.lean ====
section
/-! SUPPORT. Everything a step can do: one inversion lemma, from which the invariants of the machine follow. -/

namespace Sys2Proof.Machine

open Sys2Proof

theorem stuckTurn_next {s t : State} (h : stuckTurn s = .next t) : Abandoned s t [] := by
  have hp := interlude_post s
  unfold stuckTurn at h
  cases hi : interlude s <;> rw [hi] at h hp <;> cases h
  exact hp

theorem rejectReserved_next {s t : State} (h : rejectReserved s = .next t) :
    Rejected s t .opcode ∨ Abandoned s t [] := by
  unfold rejectReserved command at h
  split at h
  · exact (respond_rejected s .opcode).outcome h
  · cases h

theorem readResult_some {s : State} {r : Result} (h : s.result = some r) :
    readResult s = .next { s with received := some r } := by rw [readResult, h]

theorem readResult_none {s : State} (h : s.result = none) :
    readResult s = .fault .resultReadBeforeFirstResponse := by rw [readResult, h]

/-- Everything a read of RESULT can do, where it answers. -/
theorem readResult_next {s t : State} (h : readResult s = .next t) :
    ∃ r, s.result = some r ∧ t = { s with received := some r } := by
  unfold readResult at h
  split at h <;> cases h
  exact ⟨_, ‹_›, rfl⟩

/-- Everything a step that answers a next state has done. -/
theorem step_next {s t : State} (h : step s = .next t) :
    (s.phase = .busy ∧ Abandoned s t []) ∨
    (s.phase = .idle ∧ s.inputs = [] ∧ t = s) ∨
    (∃ r rest i, s.phase = .idle ∧ s.inputs = .request r :: rest ∧ decode r = .ok i ∧
      exec i (accept (decodeRequest r) { s with inputs := rest }) = .next t) ∨
    (∃ r rest, s.phase = .idle ∧ s.inputs = .request r :: rest ∧
      (Rejected (accept (decodeRequest r) { s with inputs := rest }) t .opcode ∨
        Abandoned (accept (decodeRequest r) { s with inputs := rest }) t [])) ∨
    (∃ rest r, s.phase = .idle ∧ s.inputs = .readResult :: rest ∧ s.result = some r ∧
      t = { s with inputs := rest, received := some r }) ∨
    (∃ u rest, s.phase = .idle ∧ s.inputs = .environment u :: rest ∧ t = idleTurn u { s with inputs := rest }) := by
  cases hp : s.phase with
  | busy => simp only [step, hp] at h; exact .inl ⟨rfl, stuckTurn_next h⟩
  | idle =>
    right
    cases hi : s.inputs with
    | nil => simp only [step, hp, hi] at h; cases h; exact .inl ⟨rfl, rfl, rfl⟩
    | cons x rest =>
      right
      cases x with
      | request r =>
        simp only [step, hp, hi, runRequest] at h
        cases hd : decode r with
        | ok i =>
          rw [hd] at h
          exact .inl ⟨r, rest, i, rfl, rfl, hd, h⟩
        | error e =>
          rw [hd] at h
          exact .inr (.inl ⟨r, rest, rfl, rfl, rejectReserved_next h⟩)
      | readResult =>
        simp only [step, hp, hi] at h
        obtain ⟨r, hr, rfl⟩ := readResult_next h
        exact .inr (.inr (.inl ⟨rest, r, rfl, rfl, hr, by simp⟩))
      | environment u =>
        simp only [step, hp, hi] at h
        cases h
        exact .inr (.inr (.inr ⟨u, rest, rfl, rfl, rfl⟩))

end Sys2Proof.Machine
end

