-- ==== Sys2Proof/Laws/Independence.lean ====
section
/-! SUPPORT. What a command's pseudocode does not look at: no command reads the command registers once it is decoded (R54),
and an access to a write-only register does not look at what memory and the pull latches hold. -/

namespace Sys2Proof.Machine

open Sys2Proof

/-! ### The command registers -/

/-- The state with the command registers at `q`. -/
def State.withCmd (q : Request) (s : State) : State := { s with cmd := q }

/-- A flow with the command registers at `q`; a reset clears them whatever they were. -/
def Flow.withCmd {α : Type} (q : Request) : Flow α → Flow α
  | .go x s => .go x (s.withCmd q)
  | .abandoned s => .abandoned s
  | .stuck (.busAccessStuck a s) => .stuck (.busAccessStuck a (s.withCmd q))
  | .stuck .blockStuck => .stuck .blockStuck
  | .stuck .resultReadBeforeFirstResponse => .stuck .resultReadBeforeFirstResponse

/-- The subroutine `f` does not read the command registers. -/
def IgnoresCmd {α : Type} (f : State → Flow α) : Prop := ∀ q s, f (s.withCmd q) = (f s).withCmd q

theorem IgnoresCmd.andThen {α β : Type} {f : State → Flow α} {k : α → State → Flow β} (hf : IgnoresCmd f)
    (hk : ∀ x, IgnoresCmd (k x)) : IgnoresCmd fun s => (f s).andThen k := by
  intro q s
  simp only [hf q s]
  cases f s with
  | go x t => exact hk x q t
  | abandoned t => rfl
  | stuck g => cases g <;> rfl

theorem IgnoresCmd.go {α : Type} (x : α) : IgnoresCmd fun s => Flow.go x s := fun _ _ => rfl

theorem interlude_ignoresCmd : IgnoresCmd interlude := by
  intro q s
  cases h : (turnAt s.turns 0).reset with
  | none => rw [interlude_go h, interlude_go (s := s.withCmd q) (by exact h)]; rfl
  | some k => rw [interlude_abandoned h, interlude_abandoned (s := s.withCmd q) (by exact h)]; rfl

theorem memRead_ignoresCmd (a : Word) : IgnoresCmd (memRead a) :=
  interlude_ignoresCmd.andThen fun t q s => by
    show (if Admits t a then _ else _) = Flow.withCmd q (if Admits t a then _ else _)
    split <;> rfl

theorem memWrite_ignoresCmd (a v : Word) : IgnoresCmd (memWrite a v) :=
  interlude_ignoresCmd.andThen fun t q s => by
    show (if Admits t a then _ else _) = Flow.withCmd q (if Admits t a then _ else _)
    split <;> rfl

theorem wait_ignoresCmd (n : Nat) : IgnoresCmd (wait n) := interlude_ignoresCmd.andThen fun _ _ _ => rfl

theorem respond_ignoresCmd (v : Verdict) : IgnoresCmd (respond v) := interlude_ignoresCmd.andThen fun _ _ _ => rfl

theorem readModifyWrite_ignoresCmd (a : Word) (sh : Nat) (m v : Word) : IgnoresCmd (readModifyWrite a sh m v) := by
  have hr : ∀ l, IgnoresCmd fun s => memRead a (s.withLatches l) := fun l q s => memRead_ignoresCmd a q (s.withLatches l)
  have hw : ∀ w l, IgnoresCmd fun s => memWrite a w (s.withLatches l) :=
    fun w l q s => memWrite_ignoresCmd a w q (s.withLatches l)
  exact (hr _).andThen fun d => (hw _ _).andThen fun _ _ _ => rfl

theorem fieldWrite_ignoresCmd (i v b w max : Word) : IgnoresCmd (fieldWrite i v b w max) := by
  unfold fieldWrite
  intro q s
  split
  · rfl
  · split
    · rfl
    · split
      · rfl
      · exact (readModifyWrite_ignoresCmd _ _ _ _).andThen (fun _ => IgnoresCmd.go _) q s

theorem fselWrite_ignoresCmd (p f : Word) : IgnoresCmd (fselWrite p f) := by
  intro q s
  rw [fselWrite, fselWrite, show (s.withCmd q).cfg = s.cfg from rfl]
  split
  · rfl
  · split
    · rfl
    · exact (readModifyWrite_ignoresCmd (fselAddr s.cfg p.toNat) _ _ _).andThen (fun _ => IgnoresCmd.go _) q s

theorem clearPull_ignoresCmd (p : Word) : IgnoresCmd (clearPull p) := by
  have hwords : IgnoresCmd fun s => (memWrite s.cfg.pudAddr 0 s).andThen fun _ s =>
      memWrite (pudclkAddr s.cfg p.toNat) 0 s :=
    IgnoresCmd.andThen (f := fun s => memWrite s.cfg.pudAddr 0 s)
      (k := fun _ s => memWrite (pudclkAddr s.cfg p.toNat) 0 s)
      (fun q s => memWrite_ignoresCmd s.cfg.pudAddr 0 q s)
      fun _ q s => memWrite_ignoresCmd (pudclkAddr s.cfg p.toNat) 0 q s
  have hfields : IgnoresCmd fun s => (pudWrite 0 s).andThen fun _ s => (pudClkWrite p 0 s).andThen fun _ s =>
      Flow.go () s :=
    IgnoresCmd.andThen (f := pudWrite 0) (fun q s => fieldWrite_ignoresCmd 0 0 s.cfg.pudAddr s.cfg.pudWidth 0 q s)
      fun _ => IgnoresCmd.andThen (f := pudClkWrite p 0)
        (fun q s => fieldWrite_ignoresCmd p 0 s.cfg.pudclkBase s.cfg.bitWidth s.cfg.maxPin q s) fun _ => IgnoresCmd.go _
  intro q s
  unfold clearPull
  rw [show (s.withCmd q).cfg = s.cfg from rfl]
  cases s.cfg.pullClear with
  | wordWrite => exact hwords q s
  | fieldRmw => exact hfields q s

theorem pullSequence_ignoresCmd (p m : Word) : IgnoresCmd (pullSequence p m) :=
  IgnoresCmd.andThen (f := fun s => pudWrite (pullStep1Value s.cfg m) s)
    (fun q s => fieldWrite_ignoresCmd 0 (pullStep1Value s.cfg m) s.cfg.pudAddr s.cfg.pudWidth 0 q s) fun _ =>
  IgnoresCmd.andThen (f := fun s => wait s.cfg.pullSettle s) (fun q s => wait_ignoresCmd s.cfg.pullSettle q s) fun _ =>
  IgnoresCmd.andThen (f := pudClkWrite p 1)
    (fun q s => fieldWrite_ignoresCmd p 1 s.cfg.pudclkBase s.cfg.bitWidth s.cfg.maxPin q s) fun _ =>
  IgnoresCmd.andThen (f := fun s => wait s.cfg.pullSettle s) (fun q s => wait_ignoresCmd s.cfg.pullSettle q s) fun _ =>
  clearPull_ignoresCmd p

/-- No command reads the command registers once it is decoded. -/
theorem body_ignoresCmd (i : Instr) : IgnoresCmd (body i) := by
  cases i with
  | writeField i v b w max => exact (fieldWrite_ignoresCmd i v b w max).andThen respond_ignoresCmd
  | setFunction p f => exact (fselWrite_ignoresCmd p f).andThen respond_ignoresCmd
  | drive p l =>
    refine IgnoresCmd.andThen (f := fun s => if l ≠ 0 then setWrite p s else clrWrite p s) ?_ respond_ignoresCmd
    intro q s
    show (if l ≠ 0 then _ else _) = Flow.withCmd q (if l ≠ 0 then _ else _)
    split
    · exact fieldWrite_ignoresCmd p 1 s.cfg.setBase s.cfg.bitWidth s.cfg.maxPin q s
    · exact fieldWrite_ignoresCmd p 1 s.cfg.clrBase s.cfg.bitWidth s.cfg.maxPin q s
  | setPull p m =>
    intro q s
    simp only [body]
    rw [show (s.withCmd q).cfg = s.cfg from rfl]
    split
    · exact respond_ignoresCmd _ q s
    · split
      · exact respond_ignoresCmd _ q s
      · exact (pullSequence_ignoresCmd p m).andThen (fun _ => respond_ignoresCmd _) q s

/-- So two outcomes that start apart only in the command registers are the same but for them. -/
theorem exec_withCmd (i : Instr) (q : Request) (s : State) :
    hideCmd (exec i (s.withCmd q)) = hideCmd (exec i s) := by
  rw [exec_eq, exec_eq, command, command, show (s.withCmd q).cfg = s.cfg from rfl, body_ignoresCmd i q s]
  split
  · cases body i s with
    | go x t => rfl
    | abandoned t => rfl
    | stuck f => cases f <;> rfl
  · rfl

/-! ### What the accesses to write-only registers do not look at -/

/-- Two targets that differ in memory and the pull latches alone. -/
structure LevelsAlike (t u : Target) : Prop where
  levels : u.levels = t.levels
  epoch : u.epoch = t.epoch
  draws : u.draws = t.draws

theorem LevelsAlike.write {t u : Target} (h : LevelsAlike t u) (c : Config) (a v : Word) :
    LevelsAlike (t.write c a v) (u.write c a v) := by
  unfold Target.write
  split
  · exact ⟨by simp [h.levels], h.epoch, h.draws⟩
  · exact ⟨by simp [h.levels], h.epoch, h.draws⟩
  · exact ⟨by simp [h.levels], by simp [h.epoch], by simp [h.draws]⟩
  · exact ⟨h.levels, h.epoch, h.draws⟩

theorem LevelsAlike.foreignWrites {c : Config} (ws : List BusWrite) {t u : Target} (h : LevelsAlike t u) :
    LevelsAlike (t.foreignWrites c ws) (u.foreignWrites c ws) := by
  induction ws generalizing t u with
  | nil => exact h
  | cons w ws ih =>
    refine ih ?_
    unfold Target.foreignWrite
    split
    · exact h.write _ _ _
    · exact h

theorem LevelsAlike.reset {t u : Target} (h : LevelsAlike t u) (k : ResetKind) :
    LevelsAlike (t.reset k) (u.reset k) := by
  cases k
  · exact h
  · refine ⟨?_, ?_, ?_⟩ <;> simp [Target.reset, Target.powerUp, h.epoch, h.draws]

/-- Two flows whose states differ so. -/
def FlowAlike {α : Type} (m n : Flow α) : Prop :=
  match m, n with
  | .go x s, .go y t => y = x ∧ ∃ u, t = s.withTarget u ∧ LevelsAlike s.target u
  | .abandoned s, .abandoned t => ∃ u, t = s.withTarget u ∧ LevelsAlike s.target u
  | .stuck (.busAccessStuck a s), .stuck (.busAccessStuck b t) =>
    b = a ∧ ∃ u, t = s.withTarget u ∧ LevelsAlike s.target u
  | _, _ => False

theorem FlowAlike.andThen {α β : Type} {m n : Flow α} (h : FlowAlike m n) {k : α → State → Flow β}
    (hk : ∀ x s u, LevelsAlike s.target u → FlowAlike (k x s) (k x (s.withTarget u))) :
    FlowAlike (m.andThen k) (n.andThen k) := by
  unfold FlowAlike at h
  split at h
  · obtain ⟨rfl, u, rfl, hu⟩ := h; exact hk _ _ _ hu
  · obtain ⟨u, rfl, hu⟩ := h; exact ⟨u, rfl, hu⟩
  · obtain ⟨rfl, u, rfl, hu⟩ := h; exact ⟨rfl, u, rfl, hu⟩
  · exact h.elim

theorem interlude_alike {s : State} {u : Target} (h : LevelsAlike s.target u) :
    FlowAlike (interlude s) (interlude (s.withTarget u)) := by
  unfold interlude
  simp only [State.withTarget_turns, State.withTarget_cfg, State.withTarget_target]
  split
  · exact ⟨_, rfl, (h.foreignWrites _).reset _⟩
  · exact ⟨rfl, _, rfl, h.foreignWrites _⟩

theorem memRead_alike {a : Word} {s : State} {u : Target} (h : LevelsAlike s.target u)
    (ho : writeOnly s.cfg a = true) : FlowAlike (memRead a s) (memRead a (s.withTarget u)) := by
  unfold memRead
  cases hr : (turnAt s.turns 0).reset with
  | some k =>
    rw [interlude_abandoned hr, interlude_abandoned (s := s.withTarget u) (by exact hr)]
    exact ⟨_, rfl, (h.foreignWrites _).reset _⟩
  | none =>
    rw [interlude_go hr, interlude_go (s := s.withTarget u) (by exact hr)]
    simp only [Flow.andThen_go, State.withTarget_turns]
    have hv : LevelsAlike (afterTurn s).target (afterTurn (s.withTarget u)).target := h.foreignWrites _
    split
    · unfold answerRead
      cases (turnAt s.turns 0).answer with
      | some w => exact ⟨rfl, _, rfl, hv⟩
      | none =>
        have hd := hv.draws
        simp only [Target.read, afterTurn_cfg, State.withTarget_cfg, ho, if_true, hd]
        exact ⟨rfl, _, rfl, ⟨hv.levels, hv.epoch, rfl⟩⟩
    · exact ⟨rfl, _, rfl, hv⟩

theorem memWrite_alike {a v : Word} {s : State} {u : Target} (h : LevelsAlike s.target u) :
    FlowAlike (memWrite a v s) (memWrite a v (s.withTarget u)) := by
  unfold memWrite
  refine (interlude_alike h).andThen fun t s u h => ?_
  split
  · exact ⟨rfl, _, rfl, h.write _ _ _⟩
  · exact ⟨rfl, _, rfl, h⟩

theorem respond_alike {v : Verdict} {s : State} {u : Target} (h : LevelsAlike s.target u) :
    FlowAlike (respond v s) (respond v (s.withTarget u)) := by
  unfold respond
  exact (interlude_alike h).andThen fun t s u h => ⟨rfl, _, rfl, h⟩

/-- A read-modify-write of a write-only register does not look at memory. -/
theorem readModifyWrite_alike {a : Word} {sh : Nat} {m v : Word} {s : State} {u : Target}
    (h : LevelsAlike s.target u) (ho : writeOnly s.cfg a = true) :
    FlowAlike (readModifyWrite a sh m v s) (readModifyWrite a sh m v (s.withTarget u)) := by
  have h1 := memRead_alike (s := s.withLatches (some ⟨a, BitVec.ofNat 5 sh, m, none⟩)) h ho
  refine h1.andThen fun d s u h => ?_
  have h2 := memWrite_alike (a := a) (v := insertField d sh m v)
    (s := s.withLatches (some ⟨a, BitVec.ofNat 5 sh, m, some d⟩)) h
  exact h2.andThen fun t s u h => ⟨rfl, _, rfl, h⟩

end Sys2Proof.Machine
end

