-- ==== Sys2Proof/Laws/PerInstr.lean ====
section
/-! SUPPORT. Facts of each command as syntax: its encoding carries its opcode in REQ[3:0] and its two first operands in
INDEX and VALUE (R53, R55). -/

namespace Sys2Proof.Laws.OpcodeAndOperands

open Sys2Proof

/-- The INDEX and VALUE operands of a command (R54). -/
def operands : Instr → Word × Word
  | .writeField i v _ _ _ => (i, v)
  | .setFunction p f => (p, f)
  | .drive p l => (p, l)
  | .setPull p m => (p, m)

/-- The request of a command carries its opcode and its operands. -/
def Statement (i : Instr) : Prop :=
  i.request.op = i.opcode ∧ (i.request.index, i.request.value) = operands i ∧ i.WellFormed

theorem writeField (i v b w m : Word) : Statement (.writeField i v b w m) := ⟨rfl, rfl, trivial⟩
theorem setFunction (p f : Word) : Statement (.setFunction p f) := ⟨rfl, rfl, trivial⟩
theorem drive (p l : Word) : Statement (.drive p l) := ⟨rfl, rfl, trivial⟩
theorem setPull (p m : Word) : Statement (.setPull p m) := ⟨rfl, rfl, trivial⟩

end Sys2Proof.Laws.OpcodeAndOperands
end

