-- ==== Sys2Proof/Tests/Slice0.lean ====
section
/-! SUPPORT. Tests, each expected value taken from the spec's vectors (95_test_vectors.md) or worked examples; the
well-formedness smoke tests; and for every statement with premises a named witness that meets them. -/

namespace Sys2Proof.Tests

open Sys2Proof Sys2Proof.Machine

/-! ### Small states -/

/-- The state after reset: nothing offered, every turn quiet. -/
def blank : State := State.reset

/-- The state with other parameters: pins 0..31, two-bit set, clear and clock-enable fields, four-bit pull modes. -/
def otherParameters : State :=
  { blank with cfg := { Config.exCfg with maxPin := 31, bitWidth := 2, pudWidth := 4 } }

/-- A turn whose read is answered with `w`. -/
def answer (w : Word) : Turn := ⟨[], none, some w, true⟩

/-- Turns in which reads are answered with the words given, one for each coming event. -/
def answering (ws : List Word) : State := { blank with turns := ws.map answer }

/-- The state whose configuration clears by fields. -/
def byFields (s : State) : State := { s with cfg := { s.cfg with pullClear := .fieldRmw } }

/-- The state with one item at its ports. -/
def offered (x : Input) : State := { blank with inputs := [x] }

/-- A turn that brings a reset of the block. -/
def resetTurn : Turn := ⟨[], some .blockOnly, none, true⟩

/-- A turn in which the bus does not admit the access. -/
def deniedTurn : Turn := ⟨[], none, none, false⟩

/-- Whether an outcome is a next state. -/
def isNext : Host.Outcome State Fault Refusal → Bool
  | .next _ => true
  | .fault _ => false
  | .refused _ => false

/-- The next state of an outcome that has one. -/
def nextOf : Host.Outcome State Fault Refusal → State
  | .next s => s
  | .fault _ => State.reset
  | .refused _ => State.reset

/-- The fault of an outcome that has one. -/
def faultOf : Host.Outcome State Fault Refusal → Option Fault
  | .next _ => none
  | .fault f => some f
  | .refused _ => none

/-- The refusal of an outcome that has one. -/
def refusalOf : Host.Outcome State Fault Refusal → Option Refusal
  | .next _ => none
  | .fault _ => none
  | .refused r => some r

theorem fault_of {o : Host.Outcome State Fault Refusal} {f : Fault} (h : faultOf o = some f) : o = .fault f := by
  cases o with
  | next s => cases h
  | fault g => cases h; rfl
  | refused r => cases h

theorem next_of {o : Host.Outcome State Fault Refusal} (h : isNext o = true) : o = .next (nextOf o) := by
  cases o with
  | next s => rfl
  | fault f => cases h
  | refused r => cases h

/-- The observation of a command (R13): RESULT and the trace. -/
def observed (i : Instr) (s : State) : Option Result × List Event :=
  ((nextOf (exec i s)).result, (nextOf (exec i s)).trace)

/-! ### Decoding: words written out from the layout of R53 -/

-- V-E1; MAXIDX 53, WIDTH 2, BASE 0x1000, VALUE 2, INDEX 17, OP 0000
theorem test_decode_write_field :
    decode (((53 : Word) ++ (2 : Word) ++ (0x1000 : Word) ++ (2 : Word) ++ (17 : Word) ++ (0b0000 : BitVec 4) : Req)) =
      .ok (.writeField 17 2 0x1000 2 53) ∧
    decode 0x00000035000000020000100000000002000000110 = .ok (.writeField 17 2 0x1000 2 53) := by decide
-- V-E2; VALUE 1, INDEX 11, OP 0001
theorem test_decode_set_function :
    decode (((0 : BitVec 96) ++ (1 : Word) ++ (11 : Word) ++ (0b0001 : BitVec 4) : Req)) = .ok (.setFunction 11 1) ∧
    decode 0x000000000000000000000000000000010000000B1 = .ok (.setFunction 11 1) := by decide
-- P1, second and third lines; an ignored field is not read
theorem test_decode_drive :
    decode (((0 : BitVec 96) ++ (1 : Word) ++ (16 : Word) ++ (0b0010 : BitVec 4) : Req)) = .ok (.drive 16 1) ∧
    decode 0x00000000000000000000000000000000000000102 = .ok (.drive 16 0) ∧
    decode 0xFFFFFFFFFFFFFFFFFFFFFFFF00000000000000102 = .ok (.drive 16 0) := by decide
-- P2, last line
theorem test_decode_set_pull :
    decode (((0 : BitVec 96) ++ (2 : Word) ++ (15 : Word) ++ (0b0011 : BitVec 4) : Req)) = .ok (.setPull 15 2) ∧
    decode 0x000000000000000000000000000000020000000F3 = .ok (.setPull 15 2) := by decide
-- V-R1, V-R2, V-R3
theorem test_decode_reserved :
    decode 4 = .error (.reservedOpcode 4) ∧ decode 7 = .error (.reservedOpcode 7) ∧
      decode 15 = .error (.reservedOpcode 15) := by decide
-- P3, its packed lines
theorem test_encode :
    encode (.writeField 47 1 0x20200098 1 53) = 0x000000350000000120200098000000010000002F0 ∧
    encode (.setFunction 60 1) = 0x000000000000000000000000000000010000003C1 ∧
    encode (.drive 54 1) = 0x00000000000000000000000000000001000000362 ∧
    encode (.setPull 14 0) = 0x000000000000000000000000000000000000000E3 := by decide

/-! ### The commands -/

-- V-W2, V-W6, V-W9, V-W21
theorem test_write_field :
    observed (.writeField 17 2 0x1000 2 53) (answering [0xFFFFFFFF]) =
      (some .success, [.rd 0x1004 0xFFFFFFFF, .wr 0x1004 0xFFFFFFFB]) ∧
    observed (.writeField 2 0xDEADBEEF 0x1000 32 53) (answering [0x12345678]) =
      (some .success, [.rd 0x1008 0x12345678, .wr 0x1008 0xDEADBEEF]) ∧
    observed (.writeField 4 3 0x1000 2 53) (answering [0x300]) =
      (some .success, [.rd 0x1000 0x300, .wr 0x1000 0x300]) ∧
    observed (.writeField 32 1 0xFFFFFFFC 1 63) (answering [5]) = (some .success, [.rd 0 5, .wr 0 5]) := by decide
-- V-W11, V-W12, V-W15, V-W16, V-W18, V-W19
theorem test_write_field_rejected :
    observed (.writeField 0 0 0x1000 0 53) blank = (some .rejected, []) ∧
    observed (.writeField 0 0 0x1000 3 53) blank = (some .rejected, []) ∧
    observed (.writeField 0 0 0x1000 64 53) blank = (some .rejected, []) ∧
    observed (.writeField 54 1 0x1000 1 53) blank = (some .rejected, []) ∧
    observed (.writeField 0 4 0x1000 2 53) blank = (some .rejected, []) ∧
    observed (.writeField 1 0 0x1000 1 0) blank = (some .rejected, []) := by decide
-- V-F1, V-F3, V-F4, V-F6
theorem test_set_function :
    observed (.setFunction 11 1) (answering [0]) = (some .success, [.rd 0x20200004 0, .wr 0x20200004 8]) ∧
    observed (.setFunction 9 7) (answering [0]) = (some .success, [.rd 0x20200000 0, .wr 0x20200000 0x38000000]) ∧
    observed (.setFunction 53 2) (answering [0]) = (some .success, [.rd 0x20200014 0, .wr 0x20200014 0x400]) ∧
    observed (.setFunction 0 0) (answering [0xC0000007]) =
      (some .success, [.rd 0x20200000 0xC0000007, .wr 0x20200000 0xC0000000]) := by decide
-- V-F8, V-F9
theorem test_set_function_rejected :
    observed (.setFunction 54 1) blank = (some .rejected, []) ∧
    observed (.setFunction 0 8) blank = (some .rejected, []) := by decide
-- V-D1, V-D2, V-D3, V-D6
theorem test_drive :
    observed (.drive 5 1) (answering [0]) = (some .success, [.rd 0x2020001C 0, .wr 0x2020001C 0x20]) ∧
    observed (.drive 37 0) (answering [0]) = (some .success, [.rd 0x2020002C 0, .wr 0x2020002C 0x20]) ∧
    observed (.drive 53 7) (answering [0]) = (some .success, [.rd 0x20200020 0, .wr 0x20200020 0x200000]) ∧
    observed (.drive 54 1) blank = (some .rejected, []) := by decide
-- V-D7: the read word's 1 bits drive their pins too (R105)
theorem test_drive_hazard :
    (nextOf (exec (.drive 5 1) (answering [1]))).trace = [.rd 0x2020001C 1, .wr 0x2020001C 0x21] ∧
    (nextOf (exec (.drive 5 1) (answering [1]))).target.levels = [(0, true), (5, true)] := by decide
-- V-P1, V-P2, V-P4, V-P6, V-P7
theorem test_set_pull :
    observed (.setPull 5 2) (answering [0, 0, 0, 0]) = (some .success,
      [.rd 0x20200094 0, .wr 0x20200094 2, .wt 150, .rd 0x20200098 0, .wr 0x20200098 0x20, .wt 150,
       .wr 0x20200094 0, .wr 0x20200098 0]) ∧
    observed (.setPull 40 1) (answering [0, 0, 0, 0]) = (some .success,
      [.rd 0x20200094 0, .wr 0x20200094 1, .wt 150, .rd 0x2020009C 0, .wr 0x2020009C 0x100, .wt 150,
       .wr 0x20200094 0, .wr 0x2020009C 0]) ∧
    observed (.setPull 5 2) (byFields (answering [0, 0, 0, 0, 0, 0, 2, 0, 0x20])) = (some .success,
      [.rd 0x20200094 0, .wr 0x20200094 2, .wt 150, .rd 0x20200098 0, .wr 0x20200098 0x20, .wt 150,
       .rd 0x20200094 2, .wr 0x20200094 0, .rd 0x20200098 0x20, .wr 0x20200098 0]) ∧
    observed (.setPull 5 4) blank = (some .rejected, []) ∧ observed (.setPull 54 0) blank = (some .rejected, []) := by
  decide
-- V-P8: a stale clock-enable bit latches its own pin too
theorem test_set_pull_latches :
    (nextOf (exec (.setPull 0 1) (answering [0xFFFFFFFC, 0, 0, 0x80000000]))).target.pulls = [(0, 1), (31, 1)] := by
  decide
-- R6, R63, R73: two fields of bit width 2 and 16 to a register, so pin 17 has register 1, shift 2; pins to 31 alone
theorem test_other_parameters :
    observed (.drive 17 1) { otherParameters with turns := [answer 0xC] } =
      (some .success, [.rd 0x20200020 0xC, .wr 0x20200020 4]) ∧
    observed (.drive 32 1) otherParameters = (some .rejected, []) ∧
    observed (.setPull 0 16) otherParameters = (some .rejected, []) ∧
    (nextOf (exec (.setPull 31 15) otherParameters)).result = some .success := by decide

/-! ### The ports, reset and the assembler -/

-- V-R2; the encoding of RESULT (R18) and of the causes (R87)
theorem test_reserved_opcode :
    (nextOf (step (offered (.request 7)))).result.map Result.code = some 1 ∧
    (nextOf (step (offered (.request 7)))).trace = [] ∧
    (nextOf (step (offered (.request 7)))).cause.map RejectCause.code = some 1 := by decide
-- the four rows of the opcode table run as the first instruction after reset
theorem test_first_step :
    isNext (step (State.reset.withFetchWord 8 0)) = true ∧ isNext (step (State.reset.withFetchWord 8 1)) = true ∧
    isNext (step (State.reset.withFetchWord 8 2)) = true ∧ isNext (step (State.reset.withFetchWord 8 3)) = true := by
  decide
-- R18, R31: RESULT holds no value at reset and a read of it faults
theorem test_result_before_first : faultOf (step (offered .readResult)) = some .resultReadBeforeFirstResponse := by decide
-- R36 (V-W22): stuck before the read, BUSY, RESULT not written
theorem test_misaligned :
    faultOf (exec (.writeField 1 0 0x1002 1 53) blank) =
      some (.busAccessStuck 0x1002 { blank with rmw := some ⟨0x1002, 1, 1, none⟩ }) := by decide
-- R59, R60: a line, a pseudo-command, a comment, a hexadecimal literal; P3, line 2
theorem test_assembler :
    assembleText "write_field 3, 2, 0x20200094, 2, 0 ; pull\n\ndrive_low 5" =
      .ok [.writeField 3 2 0x20200094 2 0, .drive 5 0] := by decide

/-! ### Well-formedness: an ill-formed term for each check -/

theorem test_wf_example : Config.exCfg.WellFormed := by decide
theorem test_wf_fsel : ¬ { Config.exCfg with fselBase := 0x20200002 : Config }.WellFormed := by decide
theorem test_wf_set : ¬ { Config.exCfg with setBase := 0x2020001D : Config }.WellFormed := by decide
theorem test_wf_clr : ¬ { Config.exCfg with clrBase := 0x2020002B : Config }.WellFormed := by decide
theorem test_wf_pud : ¬ { Config.exCfg with pudAddr := 0x20200095 : Config }.WellFormed := by decide
theorem test_wf_pudclk : ¬ { Config.exCfg with pudclkBase := 0x2020009A : Config }.WellFormed := by decide
-- SET1 would be CLR0
theorem test_wf_overlap : ¬ { Config.exCfg with clrBase := 0x20200020 : Config }.WellFormed := by decide
-- R6: with pins to 70 there would be a FSEL7, which would be SET0
theorem test_wf_count : ¬ { Config.exCfg with maxPin := 70 : Config }.WellFormed ∧
    { Config.exCfg with maxPin := 69 : Config }.WellFormed := by decide
theorem test_wf_fsel_width : ¬ { Config.exCfg with fselWidth := 0 : Config }.WellFormed := by decide
theorem test_wf_fsel_per_reg : ¬ { Config.exCfg with fselPerReg := 0 : Config }.WellFormed := by decide
theorem test_wf_fsel_fit : ¬ { Config.exCfg with fselPerReg := 11 : Config }.WellFormed := by decide
theorem test_wf_bit_width : ¬ { Config.exCfg with bitWidth := 3 : Config }.WellFormed := by decide
theorem test_wf_pud_width : ¬ { Config.exCfg with pudWidth := 0 : Config }.WellFormed := by decide
theorem test_wf_word : ¬ { Config.exCfg with word := 16 : Config }.WellFormed := by decide
theorem test_wf_addr_width : ¬ { Config.exCfg with addrWidth := 64 : Config }.WellFormed := by decide
theorem test_wf_literal : ¬ (AsmLine.drive 5 0x100000000).WellFormed ∧ (AsmLine.drive 5 0xFFFFFFFF).WellFormed := by
  decide
theorem test_wf_refused :
    refusalOf (exec (.drive 5 1) { blank with cfg := { Config.exCfg with setBase := 0x2020001D } }) =
      some .illFormedConfiguration ∧ assemble (.drive 5 0x100000000) = none := by decide

/-! ### Witnesses: states and operands that meet the premises of the statements, each clause at a boundary of its range -/

/-- A busy state, stuck: what is left of a command whose access was not admitted. -/
def stuckState : State := { blank with phase := .busy }

/-- The state whose coming turns are these. -/
def withTurns (ts : List Turn) : State := { blank with turns := ts }

/-- A turn in which another master writes. -/
def writingTurn (a d : Word) : Turn := ⟨[⟨a, d⟩], none, none, true⟩

theorem witness_RequestFieldsStandInTheirPlaces : (⟨3, 0, 0, 0, 0, 0⟩ : Request).op.toNat < 4 := by decide

theorem witness_OpcodeSelectsTheCommand :
    (decodeRequest 0).op = 0b0000 ∧ (decodeRequest 1).op = 0b0001 ∧ (decodeRequest 2).op = 0b0010 ∧
    (decodeRequest 3).op = 0b0011 ∧ 0b0100 ≤ (decodeRequest 4).op ∧ 0b0100 ≤ (decodeRequest 15).op := by decide

theorem witness_IgnoredFieldsDoNotMatter :
    (⟨1, 53, 7, 0, 0, 0⟩ : Request).op = 1 ∧
    (⟨1, 53, 7, 1, 2, 3⟩ : Request).op = (⟨1, 53, 7, 0, 0, 0⟩ : Request).op ∧
    (⟨1, 53, 7, 1, 2, 3⟩ : Request).index = (⟨1, 53, 7, 0, 0, 0⟩ : Request).index ∧
    (⟨1, 53, 7, 1, 2, 3⟩ : Request).value = (⟨1, 53, 7, 0, 0, 0⟩ : Request).value := by decide

theorem witness_StepRunsTheDecodedCommand :
    (offered (.request 2)).phase = .idle ∧ (offered (.request 2)).inputs = .request 2 :: [] ∧
    decode 2 = .ok (.drive 0 0) := by decide

theorem witness_OfferedRequestRunsNext : decodeTableWord 8 3 = some (.setPull 0 0) := by decide

theorem witness_ReservedOpcodesAreRejected :
    (offered (.request 4)).phase = .idle ∧ (offered (.request 4)).inputs = .request 4 :: [] ∧
    4 ≤ (decodeRequest 4).op.toNat ∧ (offered (.request 4)).cfg.WellFormed ∧ (offered (.request 4)).NoReset 1 ∧
    4 ≤ (decodeRequest 15).op.toNat := by decide

theorem witness_IdleBlockWaits : State.reset.phase = .idle ∧ State.reset.inputs = [] := by decide

theorem witness_IdleBlockTakesTheEnvironmentsTurn :
    (offered (.environment Turn.quiet)).phase = .idle ∧
    (offered (.environment Turn.quiet)).inputs = .environment Turn.quiet :: [] ∧ Turn.quiet.reset = none ∧
    (offered (.environment resetTurn)).phase = .idle ∧
    (offered (.environment resetTurn)).inputs = .environment resetTurn :: [] ∧
    resetTurn.reset = some .blockOnly := by decide

theorem witness_ResultIsReadAtTheResponsePort :
    (offered .readResult).phase = .idle ∧ (offered .readResult).inputs = .readResult :: [] ∧
    (offered .readResult).result = none ∧
    { offered .readResult with resultReg := .rejected, responded := true }.phase = .idle ∧
    { offered .readResult with resultReg := .rejected, responded := true }.inputs = .readResult :: [] ∧
    { offered .readResult with resultReg := .rejected, responded := true }.result = some .rejected := by decide

theorem witness_ResetAbandonsTheCommand :
    (withTurns [resetTurn]).cfg.WellFormed ∧ (turnAt (withTurns [resetTurn]).turns 0).reset = some .blockOnly ∧
    { withTurns [resetTurn] with phase := .busy }.phase = .busy ∧
    (turnAt { withTurns [resetTurn] with phase := .busy }.turns 0).reset = some .blockOnly := by decide

theorem witness_ResetAfterStepThreeLeavesThePullHalfDone :
    ∀ s, s = withTurns (List.replicate 5 Turn.quiet ++ [resetTurn]) →
      s.cfg.WellFormed ∧ (53 : Word).toNat ≤ s.cfg.maxPin.toNat ∧ (3 : Word).toNat ≤ fieldMask s.cfg.pudWidth.toNat ∧
      s.Undisturbed 5 ∧ s.Sole 5 ∧ (turnAt s.turns 5).reset = some .blockOnly ∧ (turnAt s.turns 5).writes = [] ∧
      s.cfg.AtDefaults := by
  rintro s rfl; decide

theorem witness_IllFormedConfigurationIsRefused :
    Config.exCfg.AtDefaults ∧ Config.exCfg.WellFormed ∧ otherParameters.cfg.WellFormed ∧
    ¬ { blank with cfg := { Config.exCfg with clrBase := 0x20200020 } }.cfg.WellFormed := by decide

theorem witness_StepKeepsTheInvariant :
    (offered (.request 2)).Inv ∧ step (offered (.request 2)) = .next (nextOf (step (offered (.request 2)))) :=
  ⟨by refine ⟨?_, fun _ => rfl, ?_, ?_, rfl, rfl, .inl rfl, ?_, ?_, ?_, ?_⟩ <;> decide, next_of (by decide)⟩

theorem witness_StepKeepsTheConfiguration :
    step (offered (.request 3)) = .next (nextOf (step (offered (.request 3)))) := next_of (by decide)

theorem witness_RequestsWaitWhileBusy :
    exec (.drive 0 0) blank = .next (nextOf (exec (.drive 0 0) blank)) ∧
    exec (.writeField 1 0 0x1002 1 53) blank =
      .fault (.busAccessStuck 0x1002 { blank with rmw := some ⟨0x1002, 1, 1, none⟩ }) ∧
    { withTurns [resetTurn] with phase := .busy }.phase = .busy ∧
    step { withTurns [resetTurn] with phase := .busy } =
      .next (nextOf (step { withTurns [resetTurn] with phase := .busy })) :=
  ⟨next_of (by decide), fault_of (by decide), rfl, next_of (by decide)⟩

theorem witness_WidthsThatDivideThirtyTwo :
    ¬ ValidWidth (0 : Word).toNat ∧ ¬ ValidWidth (3 : Word).toNat ∧ ¬ ValidWidth (33 : Word).toNat := by decide

theorem witness_FieldGeometry : ValidWidth 1 ∧ ValidWidth 32 := by decide

theorem witness_FieldWriteRejectsOutOfRange :
    ValidWidth (1 : Word).toNat ∧ ValidWidth (32 : Word).toNat ∧
    fieldWrite 54 0 0x1000 1 53 blank = .go (.rejected .index) blank ∧
    fieldWrite 53 2 0x1000 1 53 blank = .go (.rejected .value) blank ∧
    fieldWrite 0 0 0x1000 3 53 blank = .go (.rejected .width) blank :=
  ⟨by decide, by decide, rfl, rfl, rfl⟩

theorem witness_FieldInsertLaw :
    (ValidWidth 32 ∧ (0xFFFFFFFF : Word).toNat ≤ fieldMask 32) ∧ ValidWidth 1 ∧ (1 : Word).toNat ≤ fieldMask 1 := by
  decide

theorem witness_ReadModifyWriteIsOneReadOneWrite :
    (1 ≤ 1 ∧ 31 + 1 ≤ 32 ∧ (1 : Word).toNat ≤ fieldMask 1) ∧ (1 ≤ 32 ∧ 0 + 32 ≤ 32 ∧
      (0xFFFFFFFF : Word).toNat ≤ fieldMask 32) ∧ Aligned 0xFFFFFFFC ∧ (answering [5]).Undisturbed 2 ∧
    (turnAt (answering [5]).turns 0).answer = some 5 ∧ (5 : Word) = (answering [5]).nextAnswer 0xFFFFFFFC ∧
    readModifyWrite 0x1002 31 (maskWord 1) 1 blank =
      .stuck (.busAccessStuck 0x1002 { blank with rmw := some ⟨0x1002, 31, 1, none⟩ }) ∧
    readModifyWrite 0x1000 31 (maskWord 1) 1 (withTurns [answer 5, deniedTurn]) =
      .stuck (.busAccessStuck 0x1000 { blank with
        rmw := some ⟨0x1000, 31, 1, some 5⟩, stepNo := 1, trace := [.rd 0x1000 5] }) :=
  ⟨by decide, by decide, by decide, by decide, by decide, by decide, rfl, rfl⟩

theorem witness_UnusedFselBitsAreWrittenBack :
    Config.exCfg.WellFormed ∧ 53 ≤ Config.exCfg.maxPin.toNat ∧
    53 / Config.exCfg.fselPerReg = Config.exCfg.maxPin.toNat / Config.exCfg.fselPerReg ∧ Config.exCfg.AtDefaults ∧
    53 / 10 = 5 ∧ blank.cfg.WellFormed ∧
    (match fselWrite 53 7 blank with | .go .success _ => true | _ => false) = true ∧
    Config.exCfg.fselPerReg * Config.exCfg.fselWidth ≤ 30 ∧
    (Config.exCfg.maxPin.toNat % Config.exCfg.fselPerReg + 1) * Config.exCfg.fselWidth ≤ 12 := by decide

theorem witness_SpecialisationsAreFieldWrites : blank.cfg.AtDefaults := by decide

theorem witness_FunctionSelectPacking :
    Config.exCfg.AtDefaults ∧ Config.exCfg.FieldsFit ∧ otherParameters.cfg.FieldsFit := by decide

theorem witness_WidthThreeIsRejected :
    blank.cfg.WellFormed ∧ blank.NoReset 1 ∧ Config.exCfg.AtDefaults := by decide

theorem witness_WriteFieldRejects :
    blank.cfg.WellFormed ∧ blank.NoReset 1 ∧
    ¬ (ValidWidth (33 : Word).toNat ∧ (0 : Word).toNat ≤ (0 : Word).toNat ∧ (0 : Word).toNat ≤ fieldMask 33) ∧
    ¬ (ValidWidth (1 : Word).toNat ∧ (1 : Word).toNat ≤ (0 : Word).toNat ∧ (0 : Word).toNat ≤ fieldMask 1) ∧
    ¬ (ValidWidth (8 : Word).toNat ∧ (0 : Word).toNat ≤ (0 : Word).toNat ∧ (0x100 : Word).toNat ≤ fieldMask 8) := by
  decide

theorem witness_WriteFieldWritesTheField :
    blank.cfg.WellFormed ∧ blank.Undisturbed 3 ∧ ValidWidth (32 : Word).toNat ∧
    (0xFFFFFFFF : Word).toNat ≤ (0xFFFFFFFF : Word).toNat ∧ (0xFFFFFFFF : Word).toNat ≤ fieldMask 32 ∧
    (0xFFFFFFFC : Word).toNat % 4 = 0 ∧ (answering [5]).Undisturbed 3 ∧
    (turnAt (answering [5]).turns 0).answer = some 5 := by decide

theorem witness_WriteFieldLeavesTheRest :
    (∀ i, i = .writeField 53 1 0x1000 1 53 → exec i blank = .next (nextOf (exec i blank)) ∧
      (nextOf (exec i blank)).result = some .success) ∧
    (∀ i, i = .writeField 54 1 0x1000 1 53 → exec i blank = .next (nextOf (exec i blank)) ∧
      (nextOf (exec i blank)).result = some .rejected) ∧
    blank.Sole 3 ∧ blank.AnsweredByTarget 3 ∧ bankOf blank.cfg blank.cfg.setBase (regAddr 0x1000 53 1) = none ∧
    bankOf blank.cfg blank.cfg.clrBase (regAddr 0x1000 53 1) = none ∧
    bankOf blank.cfg blank.cfg.pudclkBase (regAddr 0x1000 53 1) = none ∧
    OutsideWord (regAddr 0x1000 53 1) 0x1003 ∧ OutsideWord (regAddr 0x1000 53 1) 0x1008 := by
  refine ⟨?_, ?_, by decide, by decide, by decide, by decide, by decide, by decide, by decide⟩ <;>
  · rintro i rfl
    exact ⟨next_of (by decide), by decide⟩

theorem witness_MisalignedWriteFieldIsStuck :
    blank.cfg.WellFormed ∧ blank.NoReset 1 ∧ ValidWidth (1 : Word).toNat ∧ (1 : Word).toNat ≤ (53 : Word).toNat ∧
    (0 : Word).toNat ≤ fieldMask 1 ∧ (0x1002 : Word).toNat % 4 ≠ 0 := by decide

theorem witness_NotAdmittedAccessIsStuck :
    (blank.NoReset 1 ∧ ¬ Admits (turnAt blank.turns 0) 0x1001) ∧
    ((withTurns [deniedTurn]).NoReset 1 ∧ ¬ Admits (turnAt (withTurns [deniedTurn]).turns 0) 0x1000) ∧
    exec (.writeField 1 0 0x1002 1 53) blank =
      .fault (.busAccessStuck 0x1002 { blank with rmw := some ⟨0x1002, 1, 1, none⟩ }) ∧
    stuckState.phase = .busy ∧ stuckState.NoReset 1 :=
  ⟨by decide, by decide, fault_of (by decide), by decide, by decide⟩

theorem witness_SetFunctionRejects :
    blank.cfg.WellFormed ∧ blank.NoReset 1 ∧ blank.cfg.maxPin.toNat < (54 : Word).toNat ∧
    fieldMask blank.cfg.fselWidth < (8 : Word).toNat ∧ blank.cfg.AtDefaults := by decide

theorem witness_SetFunctionSelectsTheFunction :
    blank.cfg.WellFormed ∧ blank.Undisturbed 3 ∧ (53 : Word).toNat ≤ blank.cfg.maxPin.toNat ∧
    (7 : Word).toNat ≤ fieldMask blank.cfg.fselWidth ∧ blank.cfg.AtDefaults ∧ (answering [5]).Undisturbed 3 ∧
    (turnAt (answering [5]).turns 0).answer = some 5 := by decide

theorem witness_SetFunctionChangesOnlyItsPin :
    (∀ i, i = .setFunction 53 7 → exec i blank = .next (nextOf (exec i blank)) ∧
      (nextOf (exec i blank)).result = some .success) ∧
    (∀ i, i = .setFunction 54 7 → exec i blank = .next (nextOf (exec i blank)) ∧
      (nextOf (exec i blank)).result = some .rejected) ∧
    blank.Sole 3 ∧ blank.AnsweredByTarget 3 ∧ 53 ≤ blank.cfg.maxPin.toNat := by
  refine ⟨?_, ?_, by decide, by decide, by decide⟩ <;>
  · rintro i rfl
    exact ⟨next_of (by decide), by decide⟩

theorem witness_WriteBetweenReadAndWriteIsLost :
    ∀ s, s = withTurns [Turn.quiet, writingTurn (fselAddr Config.exCfg 53) 0xFFFFFFFF] →
      s.cfg.WellFormed ∧ s.Undisturbed 3 ∧ s.AnsweredByTarget 1 ∧ (53 : Word).toNat ≤ s.cfg.maxPin.toNat ∧
      (7 : Word).toNat ≤ fieldMask s.cfg.fselWidth ∧ (turnAt s.turns 0).writes = [] ∧
      (turnAt s.turns 1).writes = [⟨fselAddr s.cfg 53, 0xFFFFFFFF⟩] ∧ (turnAt s.turns 2).writes = [] := by
  rintro s rfl; decide

theorem witness_DriveRejects :
    blank.cfg.WellFormed ∧ blank.NoReset 1 ∧ blank.cfg.maxPin.toNat < (54 : Word).toNat ∧ blank.cfg.AtDefaults := by
  decide

theorem witness_DriveWritesSetOrClear :
    blank.cfg.WellFormed ∧ blank.Undisturbed 3 ∧ (53 : Word).toNat ≤ blank.cfg.maxPin.toNat ∧ blank.cfg.AtDefaults ∧
    (turnAt blank.turns 0).answer = none ∧ (answering [5]).Undisturbed 3 ∧
    (turnAt (answering [5]).turns 0).answer = some 5 := by decide

theorem witness_LevelIsAssertedUnlessZero :
    (1 : Word) ≠ 0 ∧ (0xFFFFFFFF : Word) ≠ 0 ∧ blank.cfg.WellFormed ∧ (53 : Word).toNat ≤ blank.cfg.maxPin.toNat := by
  decide

theorem witness_DriveLeavesTheRest :
    (∀ i, i = .drive 53 7 ∨ i = .drive 53 0 → exec i blank = .next (nextOf (exec i blank)) ∧
      (nextOf (exec i blank)).result = some .success) ∧
    (∀ i, i = .drive 54 1 → exec i blank = .next (nextOf (exec i blank)) ∧
      (nextOf (exec i blank)).result = some .rejected) ∧ blank.Sole 3 ∧ 53 ≤ blank.cfg.maxPin.toNat ∧
    blank.cfg.AtDefaults := by
  refine ⟨?_, ?_, by decide, by decide, by decide⟩
  · rintro i (rfl | rfl) <;> exact ⟨next_of (by decide), by decide⟩
  · rintro i rfl
    exact ⟨next_of (by decide), by decide⟩

theorem witness_DriveAffectsOnlyItsPin :
    ∀ s, s = answering [0x200000] →
      exec (.drive 53 1) s = .next (nextOf (exec (.drive 53 1) s)) ∧ s.Sole 3 ∧
      (53 : Word).toNat ≤ s.cfg.maxPin.toNat ∧
      (nextOf (exec (.drive 53 1) s)).trace = s.trace ++ [.rd 0x20200020 0x200000, .wr 0x20200020 0x200000] ∧
      (0x200000 &&& ~~~(maskWord s.cfg.bitWidth.toNat <<< fieldShift (53 : Word).toNat s.cfg.bitWidth.toNat)) = 0 ∧
      s.cfg.AtDefaults := by
  rintro s rfl
  exact ⟨next_of (by decide), by decide⟩

theorem witness_DriveAndPullDoNotReadTheFunction :
    exec (.drive 53 1) blank = .next (nextOf (exec (.drive 53 1) blank)) ∧
    exec (.setPull 53 3) blank = .next (nextOf (exec (.setPull 53 3) blank)) ∧ 5 < fselCount blank.cfg :=
  ⟨next_of (by decide), next_of (by decide), by decide⟩

theorem witness_SetPullValidatesFirst :
    blank.cfg.WellFormed ∧ blank.NoReset 1 ∧ blank.Undisturbed 11 ∧ blank.cfg.maxPin.toNat < (54 : Word).toNat ∧
    fieldMask blank.cfg.pudWidth.toNat < (4 : Word).toNat ∧ (53 : Word).toNat ≤ blank.cfg.maxPin.toNat ∧
    (3 : Word).toNat ≤ fieldMask blank.cfg.pudWidth.toNat ∧ blank.cfg.AtDefaults := by decide

theorem witness_SetPullRunsTheSixSteps :
    ∀ s, s = answering [0, 0, 0, 5] →
      s.cfg.WellFormed ∧ s.cfg.pullClear = .wordWrite ∧ s.Undisturbed 9 ∧ (53 : Word).toNat ≤ s.cfg.maxPin.toNat ∧
      (3 : Word).toNat ≤ fieldMask s.cfg.pudWidth.toNat ∧ s.cfg.AtDefaults ∧
      (turnAt s.turns 3).answer = some 5 := by
  rintro s rfl; decide

theorem witness_SetPullClearsByFields :
    ∀ s, s = byFields (answering [0, 0, 0, 5, 0, 0, 6, 0, 7]) →
      s.cfg.WellFormed ∧ s.cfg.pullClear = .fieldRmw ∧ s.Undisturbed 11 ∧ (53 : Word).toNat ≤ s.cfg.maxPin.toNat ∧
      (3 : Word).toNat ≤ fieldMask s.cfg.pudWidth.toNat ∧ s.cfg.AtDefaults ∧ (turnAt s.turns 3).answer = some 5 ∧
      (turnAt s.turns 6).answer = some 6 ∧ (turnAt s.turns 8).answer = some 7 := by
  rintro s rfl; decide

/-- Whether a flow goes on. -/
def goesOn {α : Type} : Flow α → Bool
  | .go _ _ => true
  | .abandoned _ => false
  | .stuck _ => false

theorem witness_PullRegistersAreCleared :
    (∀ s, s = blank ∨ s = byFields blank → s.cfg.WellFormed ∧ (53 : Word).toNat ≤ s.cfg.maxPin.toNat ∧
      goesOn (clearPull 53 s) = true ∧ s.cfg.AtDefaults ∧
      ∀ k, k < 4 → ∀ w ∈ (turnAt s.turns k).writes, w.addr ≠ s.cfg.pudAddr) ∧
    blank.cfg.pullClear = .wordWrite ∧ (byFields blank).cfg.pullClear = .fieldRmw := by
  refine ⟨?_, rfl, rfl⟩
  rintro s (rfl | rfl) <;> decide

theorem witness_SetPullLatchesTheMode :
    ∀ s, s = blank ∨ s = byFields blank →
      exec (.setPull 53 3) s = .next (nextOf (exec (.setPull 53 3) s)) ∧ s.Sole 11 ∧ s.AnsweredByTarget 11 ∧
      (53 : Word).toNat ≤ s.cfg.maxPin.toNat ∧ (3 : Word).toNat ≤ fieldMask s.cfg.pudWidth.toNat ∧
      s.cfg.AtDefaults ∧ 2 < (3 : Word).toNat := by
  rintro s (rfl | rfl) <;> exact ⟨next_of (by decide), by decide⟩

theorem witness_SetPullLeavesTheRest :
    exec (.setPull 53 3) blank = .next (nextOf (exec (.setPull 53 3) blank)) ∧ blank.Sole 11 ∧
    exec (.setPull 54 3) blank = .next (nextOf (exec (.setPull 54 3) blank)) ∧
    (nextOf (exec (.setPull 54 3) blank)).result = some .rejected ∧ OutsideWord blank.cfg.pudAddr 0x20200093 ∧
    OutsideWord (regAddr blank.cfg.pudclkBase 53 blank.cfg.bitWidth.toNat) 0x20200093 ∧
    31 / fieldsPerReg blank.cfg.bitWidth.toNat ≠ 53 / fieldsPerReg blank.cfg.bitWidth.toNat ∧ blank.cfg.AtDefaults :=
  ⟨next_of (by decide), by decide, next_of (by decide), by decide, by decide, by decide, by decide, by decide⟩

theorem witness_EventCounts :
    (∀ i, i = .writeField 0 0 0x1000 1 0 ∨ i = .setFunction 54 0 ∨ i = .drive 0 0 ∨ i = .setPull 0 0 →
      exec i blank = .next (nextOf (exec i blank))) ∧ blank.NoReset 11 ∧
    rejectReserved blank = .next (nextOf (rejectReserved blank)) ∧ blank.NoReset 1 := by
  refine ⟨?_, by decide, next_of (by decide), by decide⟩
  rintro i (rfl | rfl | rfl | rfl) <;> exact next_of (by decide)

theorem witness_CommandsAreAllOrNothing :
    exec (.setPull 0 0) blank = .next (nextOf (exec (.setPull 0 0) blank)) ∧
    exec (.setPull 54 0) blank = .next (nextOf (exec (.setPull 54 0) blank)) ∧
    exec (.setPull 0 0) (withTurns [Turn.quiet, Turn.quiet, resetTurn]) =
      .next (nextOf (exec (.setPull 0 0) (withTurns [Turn.quiet, Turn.quiet, resetTurn]))) ∧
    exec (.writeField 1 0 0x1002 1 53) blank =
      .fault (.busAccessStuck 0x1002 { blank with rmw := some ⟨0x1002, 1, 1, none⟩ }) :=
  ⟨next_of (by decide), next_of (by decide), next_of (by decide), fault_of (by decide)⟩

theorem witness_PinCommandsReachOnlyTheirRegisters :
    (∀ a b c d e, Instr.setPull 53 3 ≠ .writeField a b c d e) ∧
    exec (.setPull 53 3) blank = .next (nextOf (exec (.setPull 53 3) blank)) :=
  ⟨fun _ _ _ _ _ h => (nomatch h), next_of (by decide)⟩

theorem witness_WritesDriveTheirPins :
    Config.exCfg.WellFormed ∧ 0 < bankCount Config.exCfg ∧ 1 < bankCount Config.exCfg ∧ Config.exCfg.AtDefaults ∧
    OutsideWord (member Config.exCfg.pudclkBase 1) 0x202000A0 ∧
    ∀ n, n < bankCount Config.exCfg → (0x20200094 : Word) ≠ member Config.exCfg.setBase n ∧
      (0x20200094 : Word) ≠ member Config.exCfg.clrBase n ∧ (0x20200094 : Word) ≠ member Config.exCfg.pudclkBase n := by
  decide

theorem witness_ReadsGiveTheLastWordWritten :
    Config.exCfg.WellFormed ∧ (5 < fselCount Config.exCfg ∧ (0x20200014 : Word) = member Config.exCfg.fselBase 5) ∧
    (1 < bankCount Config.exCfg ∧ (0x2020009C : Word) = member Config.exCfg.pudclkBase 1) ∧
    (1 < bankCount Config.exCfg ∧ (0x2020002C : Word) = member Config.exCfg.clrBase 1) ∧ Config.exCfg.AtDefaults := by
  decide

theorem witness_LiteralsOutOfRangeAreRefused :
    assemble (.writeField 0 1 2 3 0xFFFFFFFF) = some (.writeField 0 1 2 3 0xFFFFFFFF) ∧
    assemble (.setFunction 53 7) = some (.setFunction 53 7) ∧
    assemble (.drive 53 0xFFFFFFFF) = some (.drive 53 0xFFFFFFFF) ∧
    assemble (.setPull 53 3) = some (.setPull 53 3) := by decide

theorem witness_ReadsAreAnsweredByTheEnvironment :
    Aligned 0x20200020 ∧ Aligned 0x20200094 ∧ (answering [5]).Undisturbed 1 ∧
    (turnAt (answering [5]).turns 0).answer = some 5 ∧ blank.Undisturbed 1 ∧ (turnAt blank.turns 0).answer = none ∧
    blank.cfg.WellFormed ∧ 1 < bankCount blank.cfg ∧ (0x20200020 : Word) = member blank.cfg.setBase 1 ∧
    ∀ n, n < bankCount blank.cfg → (0x20200094 : Word) ≠ member blank.cfg.setBase n ∧
      (0x20200094 : Word) ≠ member blank.cfg.clrBase n := by decide

theorem witness_ParametersAndTheirDefaults : Config.exCfg.AtDefaults := by decide

end Sys2Proof.Tests
end

