-- ==== Sys2Proof/Proofs/Scope.lean ====
section
/-! PROOFS. The family of 00_scope.md: the parameters and their defaults, the configurations that have a meaning, what one
step is, and the two facts every step keeps: the configuration and the invariant of the machine. -/

namespace Sys2Proof.Machine

open Sys2Proof

/-! ### A step at an IDLE block with a request at its port -/

/-- The oldest offered request runs, gone from the port (R12, R46). -/
theorem step_of_request {s : State} {r : Req} {rest : List Input} (hp : s.phase = .idle)
    (hi : s.inputs = .request r :: rest) : step s = runRequest r { s with inputs := rest } := by
  rw [step, hp, hi]

/-- A request that decodes runs as its command in the state that has accepted it (R19, R57). -/
theorem runRequest_of_decode {r : Req} {i : Instr} (h : decode r = .ok i) (s : State) :
    runRequest r s = exec i (accept (decodeRequest r) s) := by
  rw [runRequest, h]

/-- Settles O6: the two equations above; what `accept` loads is its definition. -/
theorem stepRunsTheDecodedCommand : Obligations.StepRunsTheDecodedCommand := by
  unfold Obligations.StepRunsTheDecodedCommand
  refine ⟨fun s r rest i hp hi hd => ?_, fun _ _ => rfl⟩
  rw [step_of_request hp hi, runRequest_of_decode hd]

/-! ### The parameters and the well-formed configurations -/

theorem atDefaults_numPins {c : Config} (h : c.AtDefaults) : c.numPins = 54 := by
  rw [Config.numPins, atDefaults_maxPin h]

/-- Settles O60: the first part reads the defaults off the record; the second is the laws of the defaults. -/
theorem parametersAndTheirDefaults : Obligations.ParametersAndTheirDefaults := by
  unfold Obligations.ParametersAndTheirDefaults
  refine ⟨?_, fun c h => ⟨atDefaults_numPins h, atDefaults_fselCount h, atDefaults_bankCount h,
    atDefaults_pinsPerBank h, atDefaults_registers h⟩⟩
  rintro f s r p k c rfl
  exact ⟨⟨rfl, rfl, rfl, rfl, rfl, rfl, rfl⟩, rfl, rfl, rfl, rfl, rfl⟩

/-- The default fields lie in 32-bit registers: 10 fields of 3 bits, and the widths 1 and 2 divide 32 (R6, R62). -/
theorem atDefaults_fieldsFit {c : Config} (h : c.AtDefaults) : c.FieldsFit := by
  obtain ⟨-, hfsel, hper, hbit, hpud, -, -⟩ := h
  simp only [Config.FieldsFit, hfsel, hper, hbit, hpud]
  decide

theorem atDefaults_wordsFit {c : Config} (h : c.AtDefaults) : c.WordsFit := by
  obtain ⟨-, -, -, -, -, hword, haddr⟩ := h
  exact ⟨hword, haddr⟩

/-- A well-formed configuration meets the two conditions of R7. -/
theorem wellFormed_bases_registers {c : Config} (h : c.WellFormed) :
    (Aligned c.fselBase ∧ Aligned c.setBase ∧ Aligned c.clrBase ∧ Aligned c.pudAddr ∧ Aligned c.pudclkBase) ∧
      (registers c).Nodup := by
  obtain ⟨-, hfsel, hset, hclr, hpud, hclk, hregs, -⟩ := h
  exact ⟨⟨hfsel, hset, hclr, hpud, hclk⟩, hregs⟩

/-- At the defaults the two conditions of R7 are all that well-formedness asks. -/
theorem wellFormed_iff_of_atDefaults {c : Config} (h : c.AtDefaults) :
    c.WellFormed ↔
      (Aligned c.fselBase ∧ Aligned c.setBase ∧ Aligned c.clrBase ∧ Aligned c.pudAddr ∧ Aligned c.pudclkBase) ∧
        (registers c).Nodup := by
  refine ⟨wellFormed_bases_registers, ?_⟩
  rintro ⟨⟨hfsel, hset, hclr, hpud, hclk⟩, hregs⟩
  exact ⟨atDefaults_fieldsFit h, hfsel, hset, hclr, hpud, hclk, hregs, atDefaults_wordsFit h⟩

/-- No pseudocode has a meaning under an ill-formed configuration (R7, U9). -/
theorem command_of_illFormed {s : State} (h : ¬ s.cfg.WellFormed) (f : State → Flow Unit) :
    command f s = .refused .illFormedConfiguration := if_neg h

/-- Settles O15: at the defaults the fields and words fit, which leaves R7's two conditions over the thirteen registers;
commands and reserved opcodes alike run through `command`. -/
theorem illFormedConfigurationIsRefused : Obligations.IllFormedConfigurationIsRefused := by
  unfold Obligations.IllFormedConfigurationIsRefused
  refine ⟨fun c hd => ?_, fun c h => wellFormed_bases_registers h, fun i s h => ?_, fun s h => command_of_illFormed h _⟩
  · rw [← atDefaults_registers hd]
    exact wellFormed_iff_of_atDefaults hd
  · rw [exec_eq, command_of_illFormed h]

/-! ### Every step keeps the configuration (R6, R102) -/

theorem Answered.cfg {s t : State} {v : Verdict} {es : List Event} (h : Answered s t v es) : t.cfg = s.cfg := by
  obtain ⟨-, -, -, hcfg, -⟩ := h.facts
  exact hcfg

theorem Abandoned.cfg {s t : State} {es : List Event} (h : Abandoned s t es) : t.cfg = s.cfg := by
  obtain ⟨m, k, hm, -, rfl⟩ := h
  exact hm.cfg

theorem exec_next_cfg {i : Instr} {s t : State} (h : exec i s = .next t) : t.cfg = s.cfg := by
  obtain ⟨-, ⟨c, h⟩ | ⟨es, -, h⟩ | h | ⟨tr, es, -, -, h⟩⟩ := exec_next h
  · exact h.answered.cfg
  · exact h.cfg
  · exact h.cfg
  · exact h.cfg

@[simp] theorem idleTurn_cfg (u : Turn) (s : State) : (idleTurn u s).cfg = s.cfg := by
  unfold idleTurn
  split <;> rfl

/-- Settles O18, by the cases of a step. -/
theorem stepKeepsTheConfiguration : Obligations.StepKeepsTheConfiguration := by
  unfold Obligations.StepKeepsTheConfiguration
  intro s t h
  obtain ⟨-, h⟩ | ⟨-, -, rfl⟩ | ⟨r, rest, i, -, -, -, h⟩ | ⟨r, rest, -, -, h | h⟩ | ⟨rest, r, -, -, -, rfl⟩ |
    ⟨u, rest, -, -, rfl⟩ := step_next h
  · exact h.cfg
  · rfl
  · have hcfg := exec_next_cfg h
    exact hcfg
  · exact h.answered.cfg
  · exact h.cfg
  · rfl
  · exact idleTurn_cfg u _

/-! ### Every step keeps the invariant -/

theorem State.Inv.sound {s : State} (h : s.Inv) : s.target.Sound s.cfg :=
  ⟨h.memory, h.wholeWords, h.levels, h.pulls⟩

/-- The bus target may move freely as long as it stays sound. -/
theorem State.Inv.withTarget {s : State} (h : s.Inv) {tg : Target} (ht : tg.Sound s.cfg) : (s.withTarget tg).Inv :=
  { h with memory := ht.memory, wholeWords := ht.wholeWords, levels := ht.levels, pulls := ht.pulls }

/-- What the ports offer and the requester has read has no part in the invariant. -/
theorem State.Inv.withPorts {s : State} (h : s.Inv) (inputs : List Input) (received : Option Result) :
    { s with inputs := inputs, received := received }.Inv := { h with }

/-- A reset establishes the block's part of the invariant by itself; the target stays sound, and the trace, which a reset
keeps, needs its bound beforehand (R99, R101). -/
theorem resetBlock_inv (k : ResetKind) {s : State} (hs : s.target.Sound s.cfg) (ht : s.trace.length ≤ 10) :
    (resetBlock k s).Inv where
  memory := (hs.reset k).memory
  wholeWords := (hs.reset k).wholeWords
  levels := (hs.reset k).levels
  pulls := (hs.reset k).pulls
  idle := rfl
  latches := rfl
  steps := .inl rfl
  events := ht
  rejected h := by simp at h
  success h := by simp at h
  caused := by simp

/-- The environment's turn at an IDLE block: sound writes, then perhaps a reset. -/
theorem idleTurn_inv {s : State} (h : s.Inv) (u : Turn) : (idleTurn u s).Inv := by
  have hw := h.withTarget (h.sound.foreignWrites u.writes)
  unfold idleTurn
  split
  · exact resetBlock_inv _ hw.sound hw.events
  · exact hw

/-- What the invariant leaves of the state in which a command has been accepted (R13, R19, R20). -/
structure Fresh (s : State) : Prop where
  sound : s.target.Sound s.cfg
  latches : s.rmw = none
  stepNo : s.stepNo = 0
  trace : s.trace = []

theorem State.Inv.fresh_accept {s : State} (h : s.Inv) (q : Request) (rest : List Input) :
    Fresh (accept q { s with inputs := rest }) := ⟨h.sound, h.latches, rfl, rfl⟩

theorem Verdict.cause_isSome_iff (v : Verdict) : v.cause.isSome = true ↔ v.result = .rejected := by
  cases v <;> simp [Verdict.cause, Verdict.result]

/-- A response establishes the invariant when the command is rejected exactly if it has no event (R84, R87, R89). -/
theorem Fresh.inv_of_answered {s t : State} {v : Verdict} {es : List Event} (hs : Fresh s) (h : Answered s t v es)
    (hl : es.length ≤ 10) (hv : v.result = .rejected ↔ es = []) : t.Inv := by
  obtain ⟨m, hm, hrmw, -, rfl⟩ := h
  have hsound : (afterTurn m).target.Sound m.cfg := afterTurn_sound (hm.cfg ▸ hm.sound hs.sound)
  have htrace : m.trace = es := by rw [hm.trace, hs.trace, List.nil_append]
  exact {
    memory := hsound.memory
    wholeWords := hsound.wholeWords
    levels := hsound.levels
    pulls := hsound.pulls
    idle := rfl
    latches := by
      show m.rmw = none
      rcases hrmw with e | e
      · rw [e, hs.latches]
      · exact e
    steps := .inr (by
      show m.stepNo = m.trace.length
      rw [hm.stepNo, hs.stepNo, htrace, Nat.zero_add])
    events := by simpa [htrace] using hl
    rejected := fun h => by simpa [htrace] using hv.1 (by simpa using h)
    success := fun h => by
      have hr : v.result = .success := by simpa using h
      have hne : es ≠ [] := fun e => by simp [hv.2 e] at hr
      simpa [htrace] using hne
    caused := by simpa using v.cause_isSome_iff }

theorem Fresh.inv_of_rejected {s t : State} {c : RejectCause} (hs : Fresh s) (h : Rejected s t c) : t.Inv :=
  hs.inv_of_answered h.answered (Nat.zero_le _) ⟨fun _ => rfl, fun _ => rfl⟩

/-- The invariant holds after a reset that abandons a command within its ten events (R84, R100). -/
theorem Fresh.inv_of_abandoned {s t : State} {es : List Event} (hs : Fresh s) (h : Abandoned s t es)
    (hl : es.length ≤ 10) : t.Inv := by
  obtain ⟨m, k, hm, -, rfl⟩ := h
  have hsound : m.target.Sound m.cfg := hm.cfg ▸ hm.sound hs.sound
  have htrace : m.trace = es := by rw [hm.trace, hs.trace, List.nil_append]
  exact resetBlock_inv k (afterTurn_sound hsound) (by simpa [htrace] using hl)

/-- However a command ends, the invariant holds again. -/
theorem Fresh.inv_of_exec {i : Instr} {s t : State} (hs : Fresh s) (h : exec i s = .next t) : t.Inv := by
  obtain ⟨-, ⟨c, h⟩ | ⟨es, htr, h⟩ | h | ⟨tr, es, htr, hpre, h⟩⟩ := exec_next h
  · exact hs.inv_of_rejected h
  · obtain ⟨htwo, hten⟩ := htr.length
    have hne : es ≠ [] := List.ne_nil_of_length_pos (by omega)
    exact hs.inv_of_answered h hten ⟨nofun, fun e => (hne e).elim⟩
  · exact hs.inv_of_abandoned h (Nat.zero_le _)
  · exact hs.inv_of_abandoned h (Nat.le_trans hpre.length_le htr.length.2)

/-- Settles O17, by the cases of a step: what the ports take leaves the block as it was, a request runs from the fresh state
its acceptance makes, and a BUSY state does not meet the invariant. -/
theorem stepKeepsTheInvariant : Obligations.StepKeepsTheInvariant := by
  unfold Obligations.StepKeepsTheInvariant
  intro s t hs h
  obtain ⟨hbusy, -⟩ | ⟨-, -, rfl⟩ | ⟨r, rest, i, -, -, -, h⟩ | ⟨r, rest, -, -, h | h⟩ | ⟨rest, r, -, -, -, rfl⟩ |
    ⟨u, rest, -, -, rfl⟩ := step_next h
  · rw [hs.idle] at hbusy
    cases hbusy
  · exact hs
  · exact (hs.fresh_accept _ rest).inv_of_exec h
  · exact (hs.fresh_accept _ rest).inv_of_rejected h
  · exact (hs.fresh_accept _ rest).inv_of_abandoned h (Nat.zero_le _)
  · exact hs.withPorts rest (some r)
  · exact idleTurn_inv (hs.withPorts rest s.received) u

end Sys2Proof.Machine
end

/-! PROOFS. The family of 10_state.md: the ports and reset, reads and writes at the bus target, the read-modify-write, and
what SET_FUNCTION, DRIVE and SET_PULL leave in the pins. -/

namespace Sys2Proof.Machine

open Sys2Proof

/-! ### The ports (R18, R19) -/

theorem decodeTableWord_eq_some_iff {n w : Nat} {i : Instr} :
    decodeTableWord n w = some i ↔ decode (tableReq n w) = .ok i := by
  unfold decodeTableWord
  cases decode (tableReq n w) <;> simp

/-- Settles O7: the request placed is the oldest at the port of an IDLE block. -/
theorem offeredRequestRunsNext : Obligations.OfferedRequestRunsNext := by
  unfold Obligations.OfferedRequestRunsNext
  intro s nbits w i hd
  have hrun : step (s.withFetchWord nbits w) = runRequest (tableReq nbits w) { s with phase := .idle } :=
    step_of_request rfl rfl
  rw [hrun, runRequest_of_decode (decodeTableWord_eq_some_iff.1 hd)]

/-- The oldest thing at the ports is a read of RESULT. -/
theorem step_of_readResult {s : State} {rest : List Input} (hp : s.phase = .idle)
    (hi : s.inputs = .readResult :: rest) : step s = readResult { s with inputs := rest } := by
  rw [step, hp, hi]

/-- Settles O11: the two answers of `readResult`, and the window of R18 as reset and response leave it. -/
theorem resultIsReadAtTheResponsePort : Obligations.ResultIsReadAtTheResponsePort := by
  unfold Obligations.ResultIsReadAtTheResponsePort
  refine ⟨rfl, rfl, rfl, resetBlock_result, State.answered_result, fun s rest hp hi => ?_⟩
  rw [step_of_readResult hp hi]
  exact ⟨fun r hr => readResult_some hr, fun hr => readResult_none hr⟩

/-! ### Power-up and reset (R31, R32, R99, R101) -/

@[simp] theorem Target.byteAt_powerUp (e d x : Nat) : (Target.powerUp e d).byteAt x = Config.periphReset e x := rfl

@[simp] theorem pinLevel_powerUp (e d p : Nat) : pinLevel (Target.powerUp e d) p = Config.levelReset e p := rfl

@[simp] theorem pinPull_powerUp (c : Config) (e d p : Nat) :
    pinPull c (Target.powerUp e d) p = Config.pullReset e p &&& maskWord c.pudWidth.toNat := rfl

/-- Settles O12: the target at reset is that of power-up 0, and `EXCFG` has pull fields of two bits. -/
theorem resetLeavesTheBlockIdle : Obligations.ResetLeavesTheBlockIdle := by
  unfold Obligations.ResetLeavesTheBlockIdle
  exact ⟨rfl, rfl, rfl, rfl, rfl, rfl, rfl, rfl, Target.byteAt_powerUp 0 0,
    fun p => ⟨pinLevel_powerUp 0 0 p, pinPull_powerUp Config.exCfg 0 0 p⟩⟩

/-- Settles O16: the state right after reset is what a reset of the block makes of it, over a sound target. -/
theorem resetStateMeetsTheInvariant : Obligations.ResetStateMeetsTheInvariant := by
  unfold Obligations.ResetStateMeetsTheInvariant
  have hinv : (resetBlock .blockOnly State.reset).Inv :=
    resetBlock_inv .blockOnly (Target.Sound.powerUp _ 0 0) (Nat.zero_le 10)
  exact ⟨hinv, rfl, rfl, rfl⟩

/-- Settles O59: the one kind of reset is the identity at the target, the other a new power-up. -/
theorem resetOfThePinController : Obligations.ResetOfThePinController := by
  unfold Obligations.ResetOfThePinController
  refine fun t => ⟨rfl, ?_⟩
  rintro u rfl
  exact ⟨rfl, rfl, Target.byteAt_powerUp _ _, pinLevel_powerUp _ _, fun c => pinPull_powerUp c _ _⟩

/-! ### Reads (R24, R25, R39, R51) -/

theorem writeOnly_eq_false_iff {c : Config} {a : Word} :
    writeOnly c a = false ↔ bankOf c c.setBase a = none ∧ bankOf c c.clrBase a = none := by
  simp [writeOnly]

theorem writeOnly_setOrClr {c : Config} (h : c.WellFormed) {a : Word} {n : Nat} (hn : n < bankCount c)
    (ha : a = member c.setBase n ∨ a = member c.clrBase n) : writeOnly c a = true := by
  rcases ha with rfl | rfl
  · exact writeOnly_set h hn
  · exact writeOnly_clr h hn

/-- The registers that can be read: function-select, PUD and clock-enable. -/
theorem writeOnly_readable {c : Config} (h : c.WellFormed) {a : Word} {n : Nat}
    (ha : n < fselCount c ∧ a = member c.fselBase n ∨ a = c.pudAddr ∨ n < bankCount c ∧ a = member c.pudclkBase n) :
    writeOnly c a = false := by
  obtain ⟨hn, rfl⟩ | rfl | ⟨hn, rfl⟩ := ha
  · exact writeOnly_fsel h hn
  · exact writeOnly_pud h
  · exact writeOnly_clk h hn

theorem Target.read_draw {c : Config} {a : Word} (t : Target) (h : writeOnly c a = true) :
    t.read c a = (Config.readDraw t.draws, { t with draws := t.draws + 1 }) := by simp [Target.read, h]

/-- Read after write, at every address that is not write-only (R38, R51). -/
theorem Target.read_write_same {c : Config} {a : Word} (t : Target) (v : Word) (h : writeOnly c a = false) :
    (t.write c a v).read c a = (v, t.write c a v) := by
  obtain ⟨hs, hc⟩ := writeOnly_eq_false_iff.1 h
  rw [Target.read_plain _ h, Target.wordAt_write_same v t hs hc]

/-- Settles O54, by which registers are write-only. -/
theorem readsGiveTheLastWordWritten : Obligations.ReadsGiveTheLastWordWritten := by
  unfold Obligations.ReadsGiveTheLastWordWritten
  refine fun c t a v n hw => ⟨fun ha => t.read_write_same v (writeOnly_readable hw ha), ?_,
    fun hd => ⟨atDefaults_fselCount hd, atDefaults_bankCount hd⟩⟩
  rintro ⟨hn, ha⟩
  rw [t.read_draw (writeOnly_setOrClr hw hn ha)]
  exact ⟨rfl, rfl⟩

theorem answerRead_of_answer {c : Config} {u : Turn} {a x : Word} (t : Target) (h : u.answer = some x) :
    answerRead c u a t = (x, t) := by simp [answerRead, h]

theorem answerRead_draw {c : Config} {u : Turn} {a : Word} (t : Target) (hu : u.answer = none)
    (h : writeOnly c a = true) :
    answerRead c u a t = (Config.readDraw t.draws, { t with draws := t.draws + 1 }) := by
  simp [answerRead, hu, Target.read_draw t h]

/-- Settles O58: an undisturbed read is the answer to it, and that is one of three. -/
theorem readsAreAnsweredByTheEnvironment : Obligations.ReadsAreAnsweredByTheEnvironment := by
  unfold Obligations.ReadsAreAnsweredByTheEnvironment
  intro a s ha hu
  obtain ⟨hr, hd⟩ := hu 0 (by omega)
  refine ⟨_, _, memRead_go hr hd ha, rfl, rfl, rfl, fun x hx => ?_, fun hx hw => ⟨fun n hn hm => ?_, fun hm => ?_⟩⟩
  · simp [answerRead_of_answer _ hx]
  · simp [answerRead_draw _ hx (writeOnly_setOrClr hw hn hm)]
  · have hplain : writeOnly s.cfg a = false := writeOnly_false (fun n hn => (hm n hn).1) fun n hn => (hm n hn).2
    simp [answerRead_plain _ hx hplain]

/-! ### Writes (R24 to R27, R40, R51) -/

/-- A word stored in a clock-enable register leaves PUD. -/
theorem Target.pud_putWord_clk {c : Config} (h : c.WellFormed) {n : Nat} (hn : n < bankCount c) (t : Target) (v : Word) :
    (t.putWord (member c.pudclkBase n) v).wordAt c.pudAddr = t.wordAt c.pudAddr :=
  have ⟨_, _, _, _, hpud, hclk, _⟩ := h
  t.wordAt_putWord_other v (member_aligned hclk n) hpud ((groups_of_wellFormed h).pudClk n hn)

/-- So the mode latched is the one PUD held before the write. -/
theorem pinPull_write_member_clk {c : Config} (h : c.WellFormed) {n : Nat} (hn : n < bankCount c) (t : Target) (v : Word)
    (q : Nat) : pinPull c (t.write c (member c.pudclkBase n) v) q =
      if q ≤ c.maxPin.toNat ∧ q / pinsPerBank c = n ∧ v.getLsbD (fieldShift q c.bitWidth.toNat) = true then t.pudMode c
      else pinPull c t q := by
  have hmode : (t.putWord (member c.pudclkBase n) v).pudMode c = t.pudMode c := by
    rw [Target.pudMode, Target.pudMode, Target.pud_putWord_clk h hn]
  rw [Target.write_clk h t v hn, pinPull_latchPulls h, hmode, pinPull_putWord]

theorem atDefaults_fieldShift {c : Config} (h : c.AtDefaults) (q : Nat) : fieldShift q c.bitWidth.toNat = q % 32 := by
  obtain ⟨-, hshift, -⟩ := atDefaults_bit h 0 q
  exact hshift

/-- Settles O53: a write at each group of registers is one update of the target, and the update's laws say the rest. -/
theorem writesDriveTheirPins : Obligations.WritesDriveTheirPins := by
  unfold Obligations.WritesDriveTheirPins
  constructor
  · rintro c t v n q b hw hn rfl
    simp only [decide_eq_true_eq]
    refine ⟨?_, ?_, ?_, fun hd => ?_⟩
    · rintro u rfl
      rw [Target.write_set hw t v hn]
      exact ⟨rfl, rfl, rfl, pinLevel_setLevels hw n v t q⟩
    · rintro u rfl
      rw [Target.write_clr hw t v hn]
      exact ⟨rfl, rfl, rfl, pinLevel_clearLevels hw n v t q⟩
    · rintro u rfl
      have hpull := pinPull_write_member_clk hw hn t v q
      rw [pudMode_eq] at hpull
      refine ⟨?_, Target.write_epoch .., ?_, fun x hx => Target.byteAt_write_outside c v t hx, ?_, hpull⟩ <;>
        rw [Target.write_clk hw t v hn]
      · rfl
      · rw [Target.wordAt_latchPulls, Target.wordAt_putWord_same]
      · rw [Target.wordAt_latchPulls, Target.pud_putWord_clk hw hn]
    · obtain ⟨-, -, -, hpud⟩ := atDefaults_bit hd 0 q
      exact ⟨atDefaults_pinsPerBank hd, atDefaults_fieldShift hd q, hpud⟩
  · rintro c t u a v hne rfl
    rw [t.write_plain v (bankOf_none fun n hn => (hne n hn).1) (bankOf_none fun n hn => (hne n hn).2.1)
      (bankOf_none fun n hn => (hne n hn).2.2)]
    exact ⟨rfl, rfl, rfl, t.wordAt_putWord_same a v, fun x hx => t.byteAt_putWord_outside v hx⟩

/-! ### The read-modify-write (R20, R65) -/

theorem lt_two_pow_of_le_fieldMask {v : Word} {w : Nat} (h : v.toNat ≤ fieldMask w) : v.toNat < 2 ^ w := by
  have := Nat.two_pow_pos w
  simp only [fieldMask] at h
  omega

/-- Every bit outside the field is as read (R65, R69). -/
theorem insertField_outside {sh w : Nat} (hw : sh + w ≤ 32) (d : Word) {v : Word} (hv : v.toNat ≤ fieldMask w) :
    insertField d sh (maskWord w) v &&& ~~~(maskWord w <<< sh) = d &&& ~~~(maskWord w <<< sh) := by
  apply BitVec.eq_of_getLsbD_eq
  intro j hj
  rw [BitVec.getLsbD_and, BitVec.getLsbD_and, getLsbD_insertField hw (lt_two_pow_of_le_fieldMask hv)]
  split
  · rename_i hin
    have hmask : (~~~(maskWord w <<< sh)).getLsbD j = false := by
      simp [hj, Nat.not_lt.2 hin.1, getLsbD_maskWord (show w ≤ 32 by omega), show j - sh < w by omega]
    rw [hmask, Bool.and_false, Bool.and_false]
  · rfl

/-- Settles O24: the closed form of an undisturbed read-modify-write, and what one that is stuck holds. -/
theorem readModifyWriteIsOneReadOneWrite : Obligations.ReadModifyWriteIsOneReadOneWrite := by
  unfold Obligations.ReadModifyWriteIsOneReadOneWrite
  rintro a v sh w s - hsw hv d rfl
  exact ⟨fun x hx => nextAnswer_of_answer a hx,
    fun ha hu => ⟨_, _, readModifyWrite_go sh (maskWord w) v ha hu, rfl, rfl, rfl, rfl, insertField_outside hsw _ hv,
      rmwTarget_eq s a sh (maskWord w) v⟩,
    fun f hf => readModifyWrite_stuck hf⟩

/-! ### The widths of the bit-fields (R6, R62) -/

theorem wellFormed_bitWidth {c : Config} (h : c.WellFormed) : ValidWidth c.bitWidth.toNat := by
  obtain ⟨⟨-, -, -, hbit, -⟩, -⟩ := h
  exact hbit

theorem wellFormed_pudWidth {c : Config} (h : c.WellFormed) : ValidWidth c.pudWidth.toNat := by
  obtain ⟨⟨-, -, -, -, hpud⟩, -⟩ := h
  exact hpud

/-! ### SET_FUNCTION with no other master (R30, R76) -/

theorem Rejected.not_success {s t : State} {c : RejectCause} (h : Rejected s t c) : t.result ≠ some .success := by
  obtain ⟨-, rfl⟩ := h
  simp [Verdict.result]

/-- A SET_FUNCTION that has succeeded had a code that fits. -/
theorem setFunction_success_code {p f : Word} {s t : State} (h : exec (.setFunction p f) s = .next t)
    (hn : s.NoReset 1) (hp : p.toNat ≤ s.cfg.maxPin.toNat) (hr : t.result = some .success) :
    f.toNat ≤ fieldMask s.cfg.fselWidth := by
  by_contra hf
  have hbody : body (.setFunction p f) s = respond (.rejected .value) s := by
    rw [body, fselWrite_badCode s hp (Nat.not_le.1 hf), Flow.andThen_go]
  obtain ⟨hw, -⟩ := exec_next h
  rw [exec_rejected hw hn hbody] at h
  cases h
  cases hr

theorem Target.write_fselAddr {c : Config} (hw : c.WellFormed) {p : Nat} (hp : p ≤ c.maxPin.toNat) (t : Target)
    (v : Word) : t.write c (fselAddr c p) v = t.putWord (fselAddr c p) v := by
  rw [fselAddr_eq]
  exact t.write_fsel hw v (fselBank_lt c hp)

/-- The pins' functions are read from memory and the power-up in force alone. -/
theorem pinFunction_withDraws (c : Config) (t : Target) (n q : Nat) :
    pinFunction c { t with draws := n } q = pinFunction c t q := rfl

/-- Settles O35: a rejection leaves the target; a success is one plain write of the pin's function-select register. -/
theorem setFunctionChangesOnlyItsPin : Obligations.SetFunctionChangesOnlyItsPin := by
  unfold Obligations.SetFunctionChangesOnlyItsPin
  intro p f s t h hs
  obtain ⟨hw, -⟩ := exec_next h
  rcases exec_next_noReset h (sole_noReset hs) (by omega) (by rintro es ⟨-, d, rfl⟩; simp [rmwEvents]) with
    ⟨c, hrej⟩ | ⟨es, ⟨hp, d, rfl⟩, hans⟩
  · obtain ⟨htarget, hset, hres⟩ := hrej.sole (sole_mono hs (by omega))
    rw [htarget]
    exact ⟨hset, fun _ _ => rfl, rfl, rfl, fun _ => rfl, fun hr => (hrej.not_success hr).elim,
      fun hr => (hrej.not_success hr).elim⟩
  · have hsole := hans.sole hs
    have htarget := hsole.target
    simp only [rmwEvents, playEvents, Target.write_fselAddr hw hp] at htarget
    rw [htarget]
    refine ⟨hsole.setting, fun x hx => Target.byteAt_putWord_outside _ _ hx, rfl, rfl, fun hr => ?_, fun _ => ?_,
      fun hr ha q hq => ?_⟩
    · rw [hsole.result] at hr; cases hr
    · exact ⟨d, _, hsole.trace, Target.wordAt_putWord_same _ _ _⟩
    · have hd : d = s.target.wordAt (fselAddr s.cfg p.toNat) :=
        hsole.reads (answered_mono ha (by simp [rmwEvents])) [] _ d _ rfl (writeOnly_fsel hw (fselBank_lt _ hp))
      rw [pinFunction_withDraws, hd]
      exact pinFunction_write hw s.target hp hq (setFunction_success_code h (sole_noReset (sole_mono hs (by omega))) hp hr)

/-! ### DRIVE (R77, R78) -/

theorem driveAddr_aligned {c : Config} (hw : c.WellFormed) (p l : Word) : Aligned (driveAddr c p l) := by
  obtain ⟨-, -, hset, hclr, -⟩ := hw
  unfold driveAddr
  split
  · exact regAddr_aligned hset _ _
  · exact regAddr_aligned hclr _ _

theorem writeOnly_driveAddr {c : Config} (hw : c.WellFormed) {p : Word} (hp : p.toNat ≤ c.maxPin.toNat) (l : Word) :
    writeOnly c (driveAddr c p l) = true := by
  refine writeOnly_setOrClr hw (bank_lt c hp) ?_
  unfold driveAddr
  split
  · exact .inl (regAddr_eq ..)
  · exact .inr (regAddr_eq ..)

/-- At the defaults the register and the word a DRIVE writes (R73, R77). -/
theorem driveAddr_word_atDefaults {c : Config} (hd : c.AtDefaults) (p l d : Word) :
    driveAddr c p l = BitVec.ofNat 32 ((if l ≠ 0 then c.setBase else c.clrBase).toNat + p.toNat / 32 * 4) ∧
      insertField d (fieldShift p.toNat c.bitWidth.toNat) (maskWord c.bitWidth.toNat) 1 =
        d ||| ((1 : Word) <<< (p.toNat % 32)) := by
  obtain ⟨haddr, hshift, hmask, -⟩ := atDefaults_bit hd (if l ≠ 0 then c.setBase else c.clrBase) p.toNat
  rw [hshift, hmask, insertField_one]
  exact ⟨haddr, rfl⟩

/-- Settles O39: an undisturbed DRIVE is one read-modify-write of a write-only register. -/
theorem driveWritesSetOrClear : Obligations.DriveWritesSetOrClear := by
  unfold Obligations.DriveWritesSetOrClear
  rintro p l s hw hu hp sh m rfl rfl
  have hbody : body (.drive p l) s = (rmwSuccess (driveAddr s.cfg p l) (fieldShift p.toNat s.cfg.bitWidth.toNat)
      (maskWord s.cfg.bitWidth.toNat) 1 s).andThen respond := by rw [body, driveWrite_inRange l hw hp]
  refine ⟨driveAddr s.cfg p l, s.nextAnswer (driveAddr s.cfg p l), _, _, rfl, fun x hx => nextAnswer_of_answer _ hx,
    fun hx => nextAnswer_draw hx (writeOnly_driveAddr hw hp l), rfl,
    exec_readModifyWrite hw hu (driveAddr_aligned hw p l) hbody, ⟨rfl, rfl, rfl⟩, rfl, rfl, rfl,
    ⟨rfl, rfl, rfl, rfl, ?_⟩, fun hd => driveAddr_word_atDefaults hd p l _⟩
  simp [rmwState]

/-- What the write of a DRIVE does at the target: its bank's level latches, nothing else (R24, R25). -/
theorem Target.write_driveAddr {c : Config} (hw : c.WellFormed) {p : Word} (hp : p.toNat ≤ c.maxPin.toNat) (l v : Word)
    (t : Target) : t.write c (driveAddr c p l) v =
      { t with levels := latchPins c (p.toNat / pinsPerBank c) v (decide (l ≠ 0)) t.levels } := by
  have hbank : p.toNat / pinsPerBank c < bankCount c := bank_lt c hp
  by_cases hl : l = 0
  · subst hl; exact Target.write_clr hw t v hbank
  · have haddr : driveAddr c p l = member c.setBase (p.toNat / pinsPerBank c) := by rw [driveAddr, if_pos hl]; rfl
    rw [haddr, Target.write_set hw t v hbank, decide_eq_true hl]
    rfl

theorem pinLevel_write_driveAddr {c : Config} (hw : c.WellFormed) {p : Word} (hp : p.toNat ≤ c.maxPin.toNat)
    (l v : Word) (t : Target) {q : Nat} (hq : q ≤ c.maxPin.toNat) :
    pinLevel (t.write c (driveAddr c p l) v) q =
      if q / pinsPerBank c = p.toNat / pinsPerBank c ∧ v.getLsbD (fieldShift q c.bitWidth.toNat) = true
      then decide (l ≠ 0) else pinLevel t q := by
  rw [Target.write_driveAddr hw hp, pinLevel, get?_latchPins hw]
  simp only [hq, true_and]
  split <;> rfl

/-- Settles O41: a rejection leaves the target; a success is one write that moves level latches alone. -/
theorem driveLeavesTheRest : Obligations.DriveLeavesTheRest := by
  unfold Obligations.DriveLeavesTheRest
  rintro p l s t h hs bw rfl
  obtain ⟨hw, -⟩ := exec_next h
  have hdef : s.cfg.AtDefaults → fieldsPerReg s.cfg.bitWidth.toNat = 32 ∧
      ∀ q, fieldShift q s.cfg.bitWidth.toNat = q % 32 := fun hd =>
    ⟨atDefaults_pinsPerBank hd, atDefaults_fieldShift hd⟩
  rcases exec_next_noReset h (sole_noReset hs) (by omega)
    (by rintro es ⟨-, d, rfl⟩; simp [driveEvents, rmwEvents]) with ⟨c, hrej⟩ | ⟨es, ⟨hp, d, rfl⟩, hans⟩
  · obtain ⟨htarget, hset, -⟩ := hrej.sole (sole_mono hs (by omega))
    rw [htarget]
    exact ⟨hset, fun _ => rfl, rfl, fun _ => rfl, fun hr => (hrej.not_success hr).elim, hdef⟩
  · have hsole := hans.sole hs
    have htarget := hsole.target
    simp only [driveEvents, rmwEvents, playEvents] at htarget
    refine ⟨hsole.setting, fun x => ?_, ?_, fun hr => ?_, fun _ => ⟨_, d, _, hsole.trace, fun q hq => ?_⟩, hdef⟩
    · rw [htarget, Target.write_driveAddr hw hp]; rfl
    · rw [htarget, Target.write_driveAddr hw hp]
    · rw [hsole.result] at hr; cases hr
    · rw [htarget]
      exact pinLevel_write_driveAddr hw hp l _ s.target hq

/-! ### SET_PULL with no other master (R27, R81 to R83) -/

/-- A SET_PULL of a valid pin and mode that ends, with no reset in its turns, has run its six steps and succeeded. -/
theorem setPull_succeeds {p m : Word} {s t : State} (h : exec (.setPull p m) s = .next t) (hn : s.NoReset 11)
    (hp : p.toNat ≤ s.cfg.maxPin.toNat) (hm : m.toNat ≤ fieldMask s.cfg.pudWidth.toNat) :
    ∃ d, Answered s t .success (pullEvents s.cfg p m d) := by
  obtain ⟨hw, -⟩ := exec_next h
  have hlen : ∀ d, (pullEvents s.cfg p m d).length < 11 := fun d => by rw [pullEvents_length]; split <;> omega
  have hpost : (body (.setPull p m) s).Post (fun _ t => ∃ d, Answered s t .success (pullEvents s.cfg p m d))
      (fun t => ∃ es, es.length < 11 ∧ Abandoned s t es) (fun _ => True) := by
    simp only [body]
    rw [if_neg (Nat.not_lt.2 hp), if_neg (Nat.not_lt.2 hm), Flow.post_andThen]
    refine (pullSequence_post hw hp hm).mono ?_ ?_ fun _ _ => trivial
    · rintro - u ⟨hr, d, hu⟩
      exact (respond_answered .success hu (.inr hr)).mono (fun _ _ ha => ⟨d, ha⟩) (fun _ ha => ⟨_, hlen d, ha⟩)
        fun _ hf => hf.elim
    · rintro u ⟨d, es, e, rest, htr, ha⟩
      refine ⟨es, ?_, ha⟩
      have := hlen d
      rw [htr, List.length_append] at this
      omega
  rw [exec_of_wellFormed hw] at h
  rcases hpost.outcome h with hans | ⟨es, hl, m', k, hm', hk, -⟩
  · exact hans
  · rw [hm'.turns, turnAt_drop, Nat.add_zero, hn _ hl] at hk
    cases hk

/-- What a step of the sequence at PUD leaves: the mode in PUD, whatever its read answered; every clock-enable register and
every pull latch as before. -/
structure PudStep (c : Config) (v : Word) (t u : Target) : Prop where
  mode : u.pudMode c = v
  clk : ∀ p, p ≤ c.maxPin.toNat → u.wordAt (pudclkAddr c p) = t.wordAt (pudclkAddr c p)
  pull : ∀ q, pinPull c u q = pinPull c t q

theorem pudStep_write {c : Config} (hw : c.WellFormed) (t : Target) {v w : Word}
    (hv : fieldValue w 0 c.pudWidth.toNat = v) : PudStep c v t (t.write c c.pudAddr w) where
  mode := by rw [Target.pudMode, Target.pud_write_pud hw, hv]
  clk _ hp := Target.clk_write_pud hw hp t w
  pull q := by rw [Target.write_pud hw, pinPull_putWord]

theorem pudStep_events {c : Config} (hw : c.WellFormed) (t : Target) {v : Word} (d : Word)
    (hv : v.toNat ≤ fieldMask c.pudWidth.toNat) : PudStep c v t (playEvents c (pudEvents c v d) t) := by
  obtain ⟨-, hle, -⟩ := wellFormed_pudWidth hw
  exact pudStep_write hw t (fieldValue_insertField (by omega) d v hv)

/-- A pin's pull latch after a word is written to the clock-enable register of pin `p`. -/
theorem pinPull_write_clk {c : Config} (hw : c.WellFormed) {p q : Nat} (hp : p ≤ c.maxPin.toNat)
    (hq : q ≤ c.maxPin.toNat) (t : Target) (v : Word) : pinPull c (t.write c (pudclkAddr c p) v) q =
      if q / pinsPerBank c = p / pinsPerBank c ∧ v.getLsbD (fieldShift q c.bitWidth.toNat) = true then t.pudMode c
      else pinPull c t q := by
  have hpull := pinPull_write_member_clk hw (bank_lt c hp) t v q
  simp only [hq, true_and] at hpull
  exact hpull

/-- What a step of the sequence at pin `p`'s clock-enable register leaves that writes the word `w` there. -/
structure ClkStep (c : Config) (p : Nat) (w : Word) (t u : Target) : Prop where
  mode : u.pudMode c = t.pudMode c
  clk : u.wordAt (pudclkAddr c p) = w
  pull : ∀ q, q ≤ c.maxPin.toNat → pinPull c u q =
    if q / pinsPerBank c = p / pinsPerBank c ∧ w.getLsbD (fieldShift q c.bitWidth.toNat) = true then t.pudMode c
    else pinPull c t q

theorem clkStep_write {c : Config} (hw : c.WellFormed) {p : Nat} (hp : p ≤ c.maxPin.toNat) (t : Target) (w : Word) :
    ClkStep c p w t (t.write c (pudclkAddr c p) w) where
  mode := by rw [Target.pudMode, Target.pud_write_clk hw hp, Target.pudMode]
  clk := Target.clk_write_clk hw hp t w
  pull q hq := pinPull_write_clk hw hp hq t w

/-- Each read of `es` that is not of a write-only register gave the word there, the writes before it made at `t`. -/
def ReadsFrom (c : Config) (es : List Event) (t : Target) : Prop :=
  ∀ before a d after, es = before ++ .rd a d :: after → writeOnly c a = false → d = (playEvents c before t).wordAt a

/-- The lowest bit of every pin's field in a bank, after pin `p`'s field has been written: the pins of the bank are told
apart by their slots. -/
theorem bank_lowBit_insertField {c : Config} (hw : c.WellFormed) (d : Word) {v : Word} (hv : v.toNat ≤ 1) (p q : Nat) :
    (q / pinsPerBank c = p / pinsPerBank c ∧ (insertField d (fieldShift p c.bitWidth.toNat)
      (maskWord c.bitWidth.toNat) v).getLsbD (fieldShift q c.bitWidth.toNat) = true) ↔
    if q = p then v.getLsbD 0 = true
    else q / pinsPerBank c = p / pinsPerBank c ∧ d.getLsbD (fieldShift q c.bitWidth.toNat) = true := by
  have hbit := wellFormed_bitWidth hw
  rw [lowBit_insertField hbit d v (Nat.le_trans hv (one_le_fieldMask hbit)), ← pinsPerBank_eq]
  by_cases he : q = p
  · simp [he]
  · have hslot : q / pinsPerBank c = p / pinsPerBank c → q % pinsPerBank c ≠ p % pinsPerBank c :=
      fun hb hs => he (slot_inj.1 ⟨hb, hs⟩)
    rw [if_neg he]
    exact and_congr_right fun hb => by rw [if_neg (hslot hb)]

/-- The events of the first four steps (R81), which latch the mode; `d1` and `d2` are what their reads answer. -/
def latchEvents (c : Config) (p m d1 d2 : Word) : List Event :=
  pudEvents c (pullStep1Value c m) d1 ++ ([.wt c.pullSettle] ++ (clkEvents c p 1 d2 ++ [.wt c.pullSettle]))

theorem pullEvents_eq (c : Config) (p m : Word) (d : Word × Word × Word × Word) :
    pullEvents c p m d = latchEvents c p m d.1 d.2.1 ++ clearEvents c p d.2.2.1 d.2.2.2 := by
  simp only [pullEvents, latchEvents, List.append_assoc]

theorem pullStep1Value_le {c : Config} {m : Word} (hm : m.toNat ≤ fieldMask c.pudWidth.toNat) :
    (pullStep1Value c m).toNat ≤ fieldMask c.pudWidth.toNat := by
  unfold pullStep1Value
  split
  · exact hm
  · exact Nat.zero_le _

section
variable {c : Config} (hw : c.WellFormed) {p m : Word} (hp : p.toNat ≤ c.maxPin.toNat)
include hw hp

/-- At step 3 the pin and the pins of its bank whose bits were left asserted latch the mode of step 1 (R82). -/
theorem pinPull_latchEvents (hm : m.toNat ≤ fieldMask c.pudWidth.toNat) (d1 d2 : Word) (t : Target) {q : Nat}
    (hq : q ≤ c.maxPin.toNat) : pinPull c (playEvents c (latchEvents c p m d1 d2) t) q =
      if q = p.toNat ∨ q / pinsPerBank c = p.toNat / pinsPerBank c ∧
        d2.getLsbD (fieldShift q c.bitWidth.toNat) = true then pullStep1Value c m
      else pinPull c t q := by
  have h1 := pudStep_events hw t d1 (pullStep1Value_le hm)
  have h3 := (clkStep_write hw hp (playEvents c (pudEvents c (pullStep1Value c m) d1) t)
    (insertField d2 (fieldShift p.toNat c.bitWidth.toNat) (maskWord c.bitWidth.toNat) 1)).pull q hq
  rw [h1.mode, h1.pull] at h3
  simp only [bank_lowBit_insertField hw d2 (show (1 : Word).toNat ≤ 1 by decide)] at h3
  refine h3.trans ?_
  by_cases he : q = p.toNat
  · simp [he]
  · simp only [he, if_false, false_or]

/-- `WORD_WRITE` asserts no clock-enable bit, so nothing latches again (R83). -/
theorem pinPull_clearEvents_wordWrite (hc : c.pullClear = .wordWrite) (d3 d4 : Word) (t : Target) {q : Nat}
    (hq : q ≤ c.maxPin.toNat) : pinPull c (playEvents c (clearEvents c p d3 d4) t) q = pinPull c t q := by
  have h5 : PudStep c 0 t (t.write c c.pudAddr 0) := pudStep_write hw t (by simp [fieldValue])
  have h6 := (clkStep_write hw hp (t.write c c.pudAddr 0) 0).pull q hq
  rw [h5.pull] at h6
  simp only [clearEvents, hc, playEvents]
  simpa using h6

/-- `FIELD_RMW` writes the other bits of the bank back as read, so their pins latch the 0 of step 5 (R83). -/
theorem pinPull_clearEvents_fieldRmw (hc : c.pullClear = .fieldRmw) (d3 d4 : Word) (t : Target) {q : Nat}
    (hq : q ≤ c.maxPin.toNat) : pinPull c (playEvents c (clearEvents c p d3 d4) t) q =
      if q ≠ p.toNat ∧ q / pinsPerBank c = p.toNat / pinsPerBank c ∧
        d4.getLsbD (fieldShift q c.bitWidth.toNat) = true then 0
      else pinPull c t q := by
  have h5 := pudStep_events hw t d3 (v := 0) (Nat.zero_le _)
  have h6 := (clkStep_write hw hp (playEvents c (pudEvents c 0 d3) t)
    (insertField d4 (fieldShift p.toNat c.bitWidth.toNat) (maskWord c.bitWidth.toNat) 0)).pull q hq
  rw [h5.mode, h5.pull] at h6
  simp only [bank_lowBit_insertField hw d4 (show (0 : Word).toNat ≤ 1 by decide)] at h6
  simp only [clearEvents, hc, playEvents_append]
  refine h6.trans ?_
  by_cases he : q = p.toNat
  · simp [he]
  · simp only [he, if_false, ne_eq, not_false_eq_true, true_and]

/-- Step 3 reads the word that the pin's clock-enable register held at the start. -/
theorem ReadsFrom.step3 (hm : m.toNat ≤ fieldMask c.pudWidth.toNat) {d : Word × Word × Word × Word} {t : Target}
    (h : ReadsFrom c (pullEvents c p m d) t) : d.2.1 = t.wordAt (pudclkAddr c p.toNat) := by
  have hread := h (pudEvents c (pullStep1Value c m) d.1 ++ [.wt c.pullSettle]) (pudclkAddr c p.toNat) d.2.1 _ rfl
    (writeOnly_clk hw (bank_lt c hp))
  exact hread.trans ((pudStep_events hw t d.1 (pullStep1Value_le hm)).clk _ hp)

/-- Step 6, where it reads, reads the word that step 3 wrote. -/
theorem ReadsFrom.step6 (hc : c.pullClear = .fieldRmw) {d : Word × Word × Word × Word} {t : Target}
    (h : ReadsFrom c (pullEvents c p m d) t) : d.2.2.2 =
      insertField d.2.1 (fieldShift p.toNat c.bitWidth.toNat) (maskWord c.bitWidth.toNat) 1 := by
  have hsplit : pullEvents c p m d =
      (latchEvents c p m d.1 d.2.1 ++ pudEvents c 0 d.2.2.1) ++ clkEvents c p 0 d.2.2.2 := by
    simp only [pullEvents_eq, clearEvents, hc, List.append_assoc]
  have hread := h _ (pudclkAddr c p.toNat) d.2.2.2 _ hsplit (writeOnly_clk hw (bank_lt c hp))
  rw [playEvents_append, (pudStep_events hw _ d.2.2.1 (Nat.zero_le _)).clk _ hp] at hread
  exact hread.trans (Target.clk_write_clk hw hp _ _)

/-- The pull latches after the whole sequence, whose reads the target answered (R81 to R83). -/
theorem pinPull_pullEvents (hm : m.toNat ≤ fieldMask c.pudWidth.toNat) {d : Word × Word × Word × Word} {t : Target}
    (h : ReadsFrom c (pullEvents c p m d) t) {q : Nat} (hq : q ≤ c.maxPin.toNat) :
    pinPull c (playEvents c (pullEvents c p m d) t) q =
      if q = p.toNat then pullStep1Value c m
      else if q / pinsPerBank c = p.toNat / pinsPerBank c ∧
        (t.wordAt (pudclkAddr c p.toNat)).getLsbD (fieldShift q c.bitWidth.toNat) = true then
        (if c.pullClear = .wordWrite then pullStep1Value c m else 0)
      else pinPull c t q := by
  have hlatch := pinPull_latchEvents hw hp hm d.1 d.2.1 t hq
  rw [pullEvents_eq, playEvents_append, ← h.step3 hw hp hm]
  cases hc : c.pullClear with
  | wordWrite =>
    rw [pinPull_clearEvents_wordWrite hw hp hc _ _ _ hq, hlatch, ite_or, if_pos rfl]
  | fieldRmw =>
    rw [pinPull_clearEvents_fieldRmw hw hp hc _ _ _ hq, h.step6 hw hp hc, hlatch]
    by_cases he : q = p.toNat
    · simp [he]
    · have hbit := bank_lowBit_insertField hw d.2.1 (show (1 : Word).toNat ≤ 1 by decide) p.toNat q
      rw [if_neg he] at hbit
      simp only [hbit, he, ne_eq, not_false_eq_true, true_and, if_false, false_or, reduceCtorEq]
      split <;> rfl

end

theorem pullModeOf_above {k : Word} (h : 2 < k.toNat) : pullModeOf k = Config.pullOther k := by
  unfold pullModeOf
  split
  · omega
  · omega
  · omega
  · rfl

/-- Settles O48: the sequence runs whole, each of its reads gives what its target holds, and the latches follow its two
writes at the clock-enable register. -/
theorem setPullLatchesTheMode : Obligations.SetPullLatchesTheMode := by
  unfold Obligations.SetPullLatchesTheMode
  refine ⟨⟨rfl, rfl, rfl, fun k hk => pullModeOf_above hk⟩, ?_⟩
  rintro p m s t h hs ha hp hm bw rfl
  refine ⟨fun q hq => ?_, fun hd => ⟨atDefaults_pinsPerBank hd, atDefaults_fieldShift hd⟩⟩
  obtain ⟨hw, -⟩ := exec_next h
  obtain ⟨d, hans⟩ := setPull_succeeds h (sole_noReset hs) hp hm
  have hlen : (pullEvents s.cfg p m d).length ≤ 10 := by rw [pullEvents_length]; split <;> omega
  have hsole := hans.sole (sole_mono hs (by omega))
  have hreads : ReadsFrom s.cfg (pullEvents s.cfg p m d) s.target := hsole.reads (answered_mono ha (by omega))
  have hmode : pullStep1Value s.cfg m = step1Mode s.cfg m := pullStep1Value_eq s.cfg m
  rw [hsole.target, ← hmode]
  exact pinPull_pullEvents hw hp hm hreads hq

end Sys2Proof.Machine

/-! PROOFS. The family of 20_memory.md: what waits at the ports and what other masters write, the events of the commands
and the addresses they reach, the read-modify-writes of WRITE_FIELD and SET_FUNCTION, and the steps of SET_PULL. -/

namespace Sys2Proof.Machine

open Sys2Proof

/-! ### The environment at the bus and at an IDLE block (R36, R39, R99) -/

/-- Settles O57: the fold of the writes, and the branch of each on its alignment. -/
theorem otherMastersWritesReachTheTarget : Obligations.OtherMastersWritesReachTheTarget := by
  unfold Obligations.OtherMastersWritesReachTheTarget
  exact fun c t => ⟨t.foreignWrites_nil c, fun w ws => t.foreignWrites_cons c w ws⟩

/-- The oldest thing at the ports is a turn of the environment. -/
theorem step_of_environment {s : State} {u : Turn} {rest : List Input} (hp : s.phase = .idle)
    (hi : s.inputs = .environment u :: rest) : step s = .next (idleTurn u { s with inputs := rest }) := by
  rw [step, hp, hi]

theorem idleTurn_of_noReset {u : Turn} (h : u.reset = none) (s : State) :
    idleTurn u s = { s with target := s.target.foreignWrites s.cfg u.writes } := by
  simp only [idleTurn, h]

theorem idleTurn_of_reset {u : Turn} {k : ResetKind} (h : u.reset = some k) (s : State) :
    idleTurn u s = resetBlock k { s with target := s.target.foreignWrites s.cfg u.writes } := by
  simp only [idleTurn, h]

/-- Settles O10: the step is the turn, whose writes come first and whose reset, if any, last. -/
theorem idleBlockTakesTheEnvironmentsTurn : Obligations.IdleBlockTakesTheEnvironmentsTurn := by
  unfold Obligations.IdleBlockTakesTheEnvironmentsTurn
  intro s u rest hp hi
  rw [step_of_environment hp hi]
  exact ⟨fun hr => by rw [idleTurn_of_noReset hr], fun k hr => by rw [idleTurn_of_reset hr]⟩

/-! ### What a command that is abandoned or stuck leaves (R36, R46, R100) -/

theorem Abandoned.inputs {s t : State} {es : List Event} (h : Abandoned s t es) : t.inputs = s.inputs := by
  obtain ⟨m, k, hm, -, rfl⟩ := h
  exact hm.inputs

theorem Abandoned.trace {s t : State} {es : List Event} (h : Abandoned s t es) : t.trace = s.trace ++ es := by
  obtain ⟨m, k, hm, -, rfl⟩ := h
  exact hm.trace

/-- The block is as at reset. -/
theorem Abandoned.block {s t : State} {es : List Event} (h : Abandoned s t es) :
    t.result = none ∧ t.phase = .idle ∧ t.stepNo = 0 := by
  obtain ⟨m, k, -, -, rfl⟩ := h
  exact ⟨resetBlock_result .., rfl, rfl⟩

/-- The reset came in the turn after the events, and none came before (log entry 1). -/
theorem Abandoned.firstReset {s t : State} {es : List Event} (h : Abandoned s t es) :
    (turnAt s.turns es.length).reset ≠ none ∧ ∀ k, k < es.length → (turnAt s.turns k).reset = none := by
  obtain ⟨m, k, hm, hk, -⟩ := h
  rw [hm.turns, turnAt_drop, Nat.add_zero] at hk
  exact ⟨by rw [hk]; exact nofun, hm.noReset⟩

/-- A command that faults is stuck at an access, with the ports as they were. -/
theorem exec_fault_stuck {i : Instr} {s : State} {f : Fault} (h : exec i s = .fault f) :
    ∃ a m, f = .busAccessStuck a m ∧ m.inputs = s.inputs := by
  obtain ⟨tr, -, es, e, rest, -, m, a, -, hm, -, -, rfl⟩ := exec_fault h
  exact ⟨a, afterTurn m, rfl, hm.inputs⟩

/-- Every way a command ends in a next state: it has responded, with no event when it rejects, or a reset has abandoned it
after at most ten of its events (R84, R85). -/
theorem exec_next_cases {i : Instr} {s t : State} (h : exec i s = .next t) :
    (∃ c, Answered s t (.rejected c) []) ∨ (∃ es, CommandTrace s.cfg i es ∧ Answered s t .success es) ∨
      ∃ es, (es = [] ∨ ∃ tr, CommandTrace s.cfg i tr ∧ es <+: tr) ∧ Abandoned s t es := by
  obtain ⟨-, ⟨c, h⟩ | h | h | ⟨tr, es, htr, hpre, h⟩⟩ := exec_next h
  · exact .inl ⟨c, h.answered⟩
  · exact .inr (.inl h)
  · exact .inr (.inr ⟨[], .inl rfl, h⟩)
  · exact .inr (.inr ⟨es, .inr ⟨tr, htr, hpre⟩, h⟩)

theorem Answered.inputs {s t : State} {v : Verdict} {es : List Event} (h : Answered s t v es) : t.inputs = s.inputs := by
  obtain ⟨-, -, -, -, -, hinputs, -⟩ := h.facts
  exact hinputs

theorem Answered.trace {s t : State} {v : Verdict} {es : List Event} (h : Answered s t v es) :
    t.trace = s.trace ++ es := by
  obtain ⟨htrace, -⟩ := h.facts
  exact htrace

theorem exec_next_inputs {i : Instr} {s t : State} (h : exec i s = .next t) : t.inputs = s.inputs := by
  obtain ⟨c, h⟩ | ⟨es, -, h⟩ | ⟨es, -, h⟩ := exec_next_cases h
  · exact h.inputs
  · exact h.inputs
  · exact h.inputs

/-- A step of a BUSY block is the reset that ends its stuck command. -/
theorem step_busy {s t : State} (hb : s.phase = .busy) (h : step s = .next t) : Abandoned s t [] :=
  stuckTurn_next (by rwa [step, hb] at h)

/-- Settles O19, by the ways a command ends and the one step of a BUSY block. -/
theorem requestsWaitWhileBusy : Obligations.RequestsWaitWhileBusy := by
  unfold Obligations.RequestsWaitWhileBusy
  refine ⟨fun i s t h => exec_next_inputs h, fun i s m a h => ?_, fun s t hb h => (step_busy hb h).inputs⟩
  obtain ⟨b, u, hu, hinputs⟩ := exec_fault_stuck h
  cases hu
  exact hinputs

/-- Settles O51: a rejection has no event, a success has one of the command's traces, and a reset that abandons the command
comes after at most ten events, as many as turns. -/
theorem commandsAreAllOrNothing : Obligations.CommandsAreAllOrNothing := by
  unfold Obligations.CommandsAreAllOrNothing
  refine ⟨fun i s t h => ?_, fun i s f h => ?_⟩
  · obtain ⟨c, h⟩ | ⟨es, htr, h⟩ | ⟨es, hes, h⟩ := exec_next_cases h
    · obtain ⟨htrace, hstep, ⟨hres, -, hphase⟩, -⟩ := h.facts
      exact .inl ⟨hres, hphase, by rw [htrace, List.append_nil], hstep⟩
    · obtain ⟨htrace, hstep, ⟨hres, -, hphase⟩, -⟩ := h.facts
      exact .inr (.inl ⟨hres, hphase, es, htrace, hstep, htr.kinds⟩)
    · obtain ⟨hres, hphase, hstep⟩ := h.block
      obtain ⟨hreset, hno⟩ := h.firstReset
      have hten : es.length ≤ 10 := by
        rcases hes with rfl | ⟨tr, htr, hpre⟩
        · exact Nat.zero_le _
        · exact Nat.le_trans hpre.length_le htr.length.2
      exact .inr (.inr ⟨hres, hphase, hstep, es.length, hten, hreset, hno, by rw [h.trace, List.length_append]⟩)
  · obtain ⟨a, m, hf, -⟩ := exec_fault_stuck h
    exact ⟨a, m, hf⟩

/-! ### The addresses the pin commands reach (R42) -/

/-- A read-modify-write accesses its register alone. -/
theorem addr_of_mem_rmwEvents {a m v d b : Word} {sh : Nat} {e : Event} (he : e ∈ rmwEvents a sh m v d)
    (hb : e.addr? = some b) : b = a := by
  simp only [rmwEvents, List.mem_cons, List.not_mem_nil, or_false] at he
  rcases he with rfl | rfl <;> exact (Option.some.inj hb).symm

/-- The pull sequence accesses PUD and the pin's clock-enable register alone. -/
theorem addr_of_mem_pullEvents {c : Config} {p m : Word} {d : Word × Word × Word × Word} {e : Event} {b : Word}
    (he : e ∈ pullEvents c p m d) (hb : e.addr? = some b) : b = c.pudAddr ∨ b = pudclkAddr c p.toNat := by
  have hclear : ∀ d3 d4, e ∈ clearEvents c p d3 d4 → b = c.pudAddr ∨ b = pudclkAddr c p.toNat := by
    intro d3 d4 he
    unfold clearEvents at he
    split at he
    · simp only [List.mem_cons, List.not_mem_nil, or_false] at he
      rcases he with rfl | rfl
      · exact .inl (Option.some.inj hb).symm
      · exact .inr (Option.some.inj hb).symm
    · exact (List.mem_append.1 he).imp (addr_of_mem_rmwEvents · hb) (addr_of_mem_rmwEvents · hb)
  simp only [pullEvents, List.mem_append, List.mem_singleton] at he
  rcases he with he | rfl | he | rfl | he
  · exact .inl (addr_of_mem_rmwEvents he hb)
  · cases hb
  · exact .inr (addr_of_mem_rmwEvents he hb)
  · cases hb
  · exact hclear _ _ he

/-- The traces of the pin commands are at the pin controller's registers (R8, R42). -/
theorem CommandTrace.addr_mem_registers {c : Config} {i : Instr} {tr : List Event} (h : CommandTrace c i tr)
    (hi : ∀ x v b w m, i ≠ .writeField x v b w m) {e : Event} (he : e ∈ tr) {a : Word} (ha : e.addr? = some a) :
    a ∈ registers c := by
  cases i with
  | writeField x v b w m => exact (hi x v b w m rfl).elim
  | setFunction p f =>
    obtain ⟨hp, d, rfl⟩ := h
    obtain ⟨hfsel, -⟩ := mem_registers hp
    rwa [addr_of_mem_rmwEvents he ha]
  | drive p l =>
    obtain ⟨hp, d, rfl⟩ := h
    obtain ⟨-, hdrive, -⟩ := mem_registers hp
    rw [addr_of_mem_rmwEvents he ha]
    exact hdrive l
  | setPull p m =>
    obtain ⟨hp, -, d, rfl⟩ := h
    obtain ⟨-, -, hclk, hpud⟩ := mem_registers hp
    rcases addr_of_mem_pullEvents he ha with rfl | rfl
    · exact hpud
    · exact hclk

/-- Settles O52: however the command ends, its events begin one of its traces. -/
theorem pinCommandsReachOnlyTheirRegisters : Obligations.PinCommandsReachOnlyTheirRegisters := by
  unfold Obligations.PinCommandsReachOnlyTheirRegisters
  intro i s t hi h
  obtain ⟨c, h⟩ | ⟨es, htr, h⟩ | ⟨es, hes, h⟩ := exec_next_cases h
  · exact ⟨[], h.trace, nofun⟩
  · exact ⟨es, h.trace, fun e he a ha => htr.addr_mem_registers hi he ha⟩
  · refine ⟨es, h.trace, fun e he a ha => ?_⟩
    rcases hes with rfl | ⟨tr, htr, hpre⟩
    · cases he
    · exact htr.addr_mem_registers hi (hpre.subset he) ha

/-! ### Commands of one read-modify-write (R51, R65 to R67, R76) -/

/-- A command that is one read-modify-write at an aligned address completes in turns that disturb nothing. -/
theorem exec_rmw_completes {i : Instr} {s : State} {a : Word} {sh : Nat} {m v : Word} (hw : s.cfg.WellFormed)
    (hu : s.Undisturbed 3) (ha : Aligned a) (hb : body i s = (rmwSuccess a sh m v s).andThen respond) :
    ∃ t, exec i s = .next t ∧ Responded .success t ∧ t.trace = s.trace ++ rmwEvents a sh m v (s.nextAnswer a) ∧
      t.stepNo = s.stepNo + 2 ∧ t.rmw = none ∧ SameSetting s t :=
  ⟨_, exec_readModifyWrite hw hu ha hb, ⟨rfl, rfl, rfl⟩, rfl, rfl, rfl, rfl, rfl, rfl, rfl, by simp [rmwState]⟩

/-- WRITE_FIELD in range is the read-modify-write of its field (R67). -/
theorem body_writeField_inRange {i v b w max : Word} (s : State) (hw : ValidWidth w.toNat) (hi : i.toNat ≤ max.toNat)
    (hv : v.toNat ≤ fieldMask w.toNat) : body (.writeField i v b w max) s =
      (rmwSuccess (regAddr b i.toNat w.toNat) (fieldShift i.toNat w.toNat) (maskWord w.toNat) v s).andThen respond := by
  rw [body, fieldWrite_inRange s hw hi hv, rmwSuccess]

/-- SET_FUNCTION in range is the read-modify-write of its pin's function field (R76). -/
theorem body_setFunction_inRange {p f : Word} (s : State) (hp : p.toNat ≤ s.cfg.maxPin.toNat)
    (hf : f.toNat ≤ fieldMask s.cfg.fselWidth) : body (.setFunction p f) s =
      (rmwSuccess (fselAddr s.cfg p.toNat) (fselShift s.cfg p.toNat) (fselMask s.cfg) f s).andThen respond := by
  rw [body, fselWrite_inRange s hp hf, rmwSuccess]

theorem wellFormed_fselAddr_aligned {c : Config} (hw : c.WellFormed) (p : Nat) : Aligned (fselAddr c p) := by
  obtain ⟨-, hfsel, -⟩ := hw
  exact fselAddr_aligned hfsel p

theorem writeOnly_fselAddr {c : Config} (hw : c.WellFormed) {p : Nat} (hp : p ≤ c.maxPin.toNat) :
    writeOnly c (fselAddr c p) = false := writeOnly_fsel hw (fselBank_lt c hp)

/-- Settles O29: one read-modify-write of the field's register. -/
theorem writeFieldWritesTheField : Obligations.WriteFieldWritesTheField := by
  unfold Obligations.WriteFieldWritesTheField
  intro i v b w max s hc hu hw hi hv hb
  obtain ⟨t, hexec, hres, htrace, hstep, hrmw, hset⟩ :=
    exec_rmw_completes hc hu (regAddr_aligned hb i.toNat w.toNat) (body_writeField_inRange s hw hi hv)
  exact ⟨_, _, t, rfl, rfl, fun x hx => nextAnswer_of_answer _ hx, hexec, hres, htrace, hstep, hrmw, hset⟩

/-- Settles O34: one read-modify-write of the pin's function-select register. -/
theorem setFunctionSelectsTheFunction : Obligations.SetFunctionSelectsTheFunction := by
  unfold Obligations.SetFunctionSelectsTheFunction
  rintro p f s hc hu hp hf sh m rfl rfl
  obtain ⟨t, hexec, hres, htrace, hstep, hrmw, hset⟩ :=
    exec_rmw_completes hc hu (wellFormed_fselAddr_aligned hc p.toNat) (body_setFunction_inRange s hp hf)
  exact ⟨⟨_, _, t, rfl, rfl, fun x hx => nextAnswer_of_answer _ hx, hexec, hres, htrace, hstep, hrmw, hset⟩,
    fun hd => ⟨atDefaults_fselShift hd _, atDefaults_fselMask hd⟩⟩

/-- Settles O37: the word written is made of the word read, so the write in between leaves no mark on it. -/
theorem writeBetweenReadAndWriteIsLost : Obligations.WriteBetweenReadAndWriteIsLost := by
  unfold Obligations.WriteBetweenReadAndWriteIsLost
  intro p f w s hc hu ha hp hf h0 h1 h2
  refine ⟨_, exec_readModifyWrite hc hu (wellFormed_fselAddr_aligned hc p.toNat) (body_setFunction_inRange s hp hf), ?_⟩
  have hread : s.nextAnswer (fselAddr s.cfg p.toNat) = s.target.wordAt (fselAddr s.cfg p.toNat) := by
    rw [nextAnswer_cell (ha 0 Nat.one_pos) (writeOnly_fselAddr hc hp), h0, Target.foreignWrites_nil]
  have htarget : ∀ sh m v, ((afterTurn (rmwState s (fselAddr s.cfg p.toNat) sh m v)).answered .success).target =
      rmwTarget s (fselAddr s.cfg p.toNat) sh m v := fun sh m v => by simp [rmwState, h2]
  rw [htarget, rmwTarget, Target.write_fselAddr hc hp, Target.wordAt_putWord_same, rmwAnswer_word, hread]

/-- A read-modify-write at a misaligned address is stuck before its read (R36). -/
theorem readModifyWrite_misaligned {a : Word} {s : State} (sh : Nat) (m v : Word) (hr : s.NoReset 1)
    (ha : ¬ Aligned a) : readModifyWrite a sh m v s =
      .stuck (.busAccessStuck a (afterTurn (s.withLatches (some ⟨a, BitVec.ofNat 5 sh, m, none⟩)))) := by
  have hread := memRead_stuck (s := s.withLatches (some ⟨a, BitVec.ofNat 5 sh, m, none⟩)) (hr 0 Nat.one_pos)
    fun h => ha h.1
  rw [readModifyWrite, hread, Flow.andThen_stuck]

/-- Settles O31: the register is misaligned with its base, so the read-modify-write is stuck. -/
theorem misalignedWriteFieldIsStuck : Obligations.MisalignedWriteFieldIsStuck := by
  unfold Obligations.MisalignedWriteFieldIsStuck
  intro i v b w max s hc hr hw hi hv hb
  have ha : ¬ Aligned (regAddr b i.toNat w.toNat) := fun h => hb ((regAddr_aligned_iff b _ _).1 h)
  rw [exec_of_wellFormed hc, body_writeField_inRange s hw hi hv, rmwSuccess, readModifyWrite_misaligned _ _ _ hr ha]
  exact ⟨_, rfl, rfl, rfl, rfl, rfl, rfl, rfl⟩

/-! ### WRITE_FIELD with no other master (R33, R34, R40, R43) -/

theorem Target.levels_write {c : Config} {a : Word} (v : Word) (t : Target) (hs : bankOf c c.setBase a = none)
    (hc : bankOf c c.clrBase a = none) : (t.write c a v).levels = t.levels := by
  cases hk : bankOf c c.pudclkBase a <;> simp only [Target.write, hs, hc, hk] <;> rfl

theorem Target.pulls_write {c : Config} {a : Word} (v : Word) (t : Target) (hk : bankOf c c.pudclkBase a = none) :
    (t.write c a v).pulls = t.pulls := by
  cases hs : bankOf c c.setBase a <;> cases hc : bankOf c c.clrBase a <;>
    simp only [Target.write, hs, hc, hk] <;> rfl

/-- Settles O30: a rejection leaves the target; a success is one write at the field's register. -/
theorem writeFieldLeavesTheRest : Obligations.WriteFieldLeavesTheRest := by
  unfold Obligations.WriteFieldLeavesTheRest
  rintro i v b w max s t h hs a rfl
  rcases exec_next_noReset h (sole_noReset hs) (by omega) (by rintro es ⟨d, rfl⟩; simp [rmwEvents]) with
    ⟨c, hrej⟩ | ⟨es, ⟨d, rfl⟩, hans⟩
  · obtain ⟨htarget, hset, -⟩ := hrej.sole (sole_mono hs (by omega))
    rw [htarget]
    exact ⟨hset, fun _ _ => rfl, fun _ _ => rfl, fun _ => rfl, fun _ => rfl, fun hr => (hrej.not_success hr).elim⟩
  · have hsole := hans.sole hs
    have htarget := hsole.target
    simp only [rmwEvents, playEvents] at htarget
    refine ⟨hsole.setting, fun x hx => ?_, fun hset hclr => ?_, fun hclk => ?_, fun hr => ?_, fun _ =>
      ⟨d, _, hsole.trace, rfl, htarget, fun hset hclr => ⟨?_, fun ha => ?_⟩⟩⟩
    · rw [htarget, withDraws_byteAt, Target.byteAt_write_outside _ _ _ hx]
    · rw [htarget]
      exact s.target.levels_write _ hset hclr
    · rw [htarget]
      exact s.target.pulls_write _ hclk
    · rw [hsole.result] at hr; cases hr
    · rw [htarget, withDraws_wordAt, Target.wordAt_write_same _ _ hset hclr]
    · exact hsole.reads (answered_mono ha (by simp [rmwEvents])) [] _ d _ rfl (writeOnly_eq_false_iff.2 ⟨hset, hclr⟩)

/-! ### The steps of SET_PULL (R81 to R84) -/

/-- The read that is the `n`-th event of a command gave the answer of the `n`-th turn, where that has one (R51). -/
theorem Answered.answer_at {s t : State} {v : Verdict} {es : List Event} (h : Answered s t v es) {n : Nat} {a d x : Word}
    (he : es[n]? = some (.rd a d)) (hx : (turnAt s.turns n).answer = some x) : d = x := by
  obtain ⟨hn, hget⟩ := List.getElem?_eq_some_iff.1 he
  have hsplit : es = es.take n ++ .rd a d :: es.drop (n + 1) := by
    rw [← hget, ← List.drop_eq_getElem_cons hn, List.take_append_drop]
  obtain ⟨-, hanswers⟩ := h.reads
  refine hanswers _ a d _ x hsplit ?_
  rwa [List.length_take_of_le (Nat.le_of_lt hn)]

/-- Step 1 writes the mode of R82 into PUD's field, step 3 a 1 into the pin's clock-enable field. -/
theorem latchEvents_words (c : Config) (p m d1 d2 : Word) : latchEvents c p m d1 d2 =
    [.rd c.pudAddr d1, .wr c.pudAddr ((d1 &&& ~~~maskWord c.pudWidth.toNat) ||| step1Mode c m), .wt c.pullSettle,
      .rd (pudclkAddr c p.toNat) d2, .wr (pudclkAddr c p.toNat)
        ((d2 &&& ~~~(maskWord c.bitWidth.toNat <<< fieldShift p.toNat c.bitWidth.toNat)) |||
          ((1 : Word) <<< fieldShift p.toNat c.bitWidth.toNat)), .wt c.pullSettle] := by
  have hmode : pullStep1Value c m = step1Mode c m := pullStep1Value_eq c m
  simp only [latchEvents, pudEvents, clkEvents, rmwEvents, insertField_noShift, hmode]
  rfl

theorem clearEvents_wordWrite {c : Config} (hc : c.pullClear = .wordWrite) (p d3 d4 : Word) :
    clearEvents c p d3 d4 = [.wr c.pudAddr 0, .wr (pudclkAddr c p.toNat) 0] := by
  rw [clearEvents, hc]

/-- Steps 5 and 6 by their fields write every other bit back as read (R83). -/
theorem clearEvents_fieldRmw {c : Config} (hc : c.pullClear = .fieldRmw) (p d3 d4 : Word) :
    clearEvents c p d3 d4 =
      [.rd c.pudAddr d3, .wr c.pudAddr (d3 &&& ~~~maskWord c.pudWidth.toNat), .rd (pudclkAddr c p.toNat) d4,
        .wr (pudclkAddr c p.toNat)
          (d4 &&& ~~~(maskWord c.bitWidth.toNat <<< fieldShift p.toNat c.bitWidth.toNat))] := by
  simp only [clearEvents, hc, pudEvents, clkEvents, rmwEvents, insertField_zero, BitVec.shiftLeft_zero]
  rfl

/-- The pin's clock-enable field and PUD's at the defaults. -/
theorem atDefaults_pull {c : Config} (hd : c.AtDefaults) (p : Nat) :
    pudclkAddr c p = BitVec.ofNat 32 (c.pudclkBase.toNat + p / 32 * 4) ∧ fieldShift p c.bitWidth.toNat = p % 32 ∧
      maskWord c.pudWidth.toNat = 3 ∧ maskWord c.bitWidth.toNat = 1 := by
  obtain ⟨haddr, hshift, hbit, hpud⟩ := atDefaults_bit hd c.pudclkBase p
  exact ⟨haddr, hshift, hpud, hbit⟩

/-- Settles O45: the sequence runs whole, and its last two events are the two word writes. -/
theorem setPullRunsTheSixSteps : Obligations.SetPullRunsTheSixSteps := by
  unfold Obligations.SetPullRunsTheSixSteps
  rintro p m s hw hc hu hp hm ca sh pm bm rfl rfl rfl rfl
  refine ⟨?_, fun hd => atDefaults_pull hd _⟩
  obtain ⟨⟨d1, d2, d3, d4⟩, t, hexec, hans, hrmw⟩ :=
    setPull_completes hw hu hp hm fun d => by rw [pullEvents_length, hc]; decide
  obtain ⟨htrace, hstep, hres, hset⟩ := hans.facts
  obtain ⟨hfirst, -⟩ := hans.reads
  refine ⟨d1, d2, t, hexec, hres, ?_, ?_, hrmw, hset, hfirst _ _ _ rfl, fun x hx => hans.answer_at rfl hx⟩
  · rw [htrace, pullEvents_eq, latchEvents_words, clearEvents_wordWrite hc]; rfl
  · rw [hstep, pullEvents_length, hc]

/-- Settles O46: the sequence runs whole, and its last four events are the two read-modify-writes. -/
theorem setPullClearsByFields : Obligations.SetPullClearsByFields := by
  unfold Obligations.SetPullClearsByFields
  rintro p m s hw hc hu hp hm ca sh pm bm rfl rfl rfl rfl
  refine ⟨?_, fun hd => atDefaults_pull hd _⟩
  obtain ⟨⟨d1, d2, d3, d4⟩, t, hexec, hans, hrmw⟩ :=
    setPull_completes hw hu hp hm fun d => by rw [pullEvents_length, hc]; decide
  obtain ⟨htrace, hstep, hres, hset⟩ := hans.facts
  rw [pullEvents_length, hc] at hstep
  rw [pullEvents_eq, latchEvents_words, clearEvents_fieldRmw hc] at hans htrace
  obtain ⟨hfirst, -⟩ := hans.reads
  exact ⟨d1, d2, d3, d4, t, hexec, hres, htrace, hstep, hrmw, hset, hfirst _ _ _ rfl,
    fun x hx => hans.answer_at rfl hx, fun x hx => hans.answer_at rfl hx, fun x hx => hans.answer_at rfl hx⟩

/-! ### What steps 5 and 6 leave cleared (R83) -/

/-- Two lines of pseudocode have gone on exactly when each has. -/
theorem Flow.andThen_eq_go {α β : Type} {m : Flow α} {k : α → State → Flow β} {y : β} {t : State} :
    m.andThen k = .go y t ↔ ∃ x u, m = .go x u ∧ k x u = .go y t := by
  cases m <;> simp

/-- A read-modify-write that has gone on has had two turns, and its write was the last the target took. -/
theorem rmwSuccess_last {a : Word} {sh : Nat} {m v : Word} {s t : State} {r : Verdict}
    (h : rmwSuccess a sh m v s = .go r t) : t.cfg = s.cfg ∧ t.turns = s.turns.drop 2 ∧
      ∃ d n, t.target = Target.write s.cfg a (insertField d sh m v)
        (Target.foreignWrites s.cfg (turnAt s.turns 1).writes
          { s.target.foreignWrites s.cfg (turnAt s.turns 0).writes with draws := n }) := by
  have hpost := rmwSuccess_post a sh m v s
  rw [h] at hpost
  obtain ⟨-, -, d, hran⟩ := hpost
  obtain ⟨x, u, hrmw, hgo⟩ := Flow.andThen_eq_go.1 h
  cases hgo
  exact ⟨hran.cfg, hran.turns, readModifyWrite_last hrmw⟩

/-- The last two writes under `WORD_WRITE`; other masters' writes of the second turn come between them. -/
theorem clearPull_wordWrite_target {p : Word} {s t : State} (hc : s.cfg.pullClear = .wordWrite)
    (h : clearPull p s = .go () t) : ∃ tg : Target, t.target = Target.write s.cfg (pudclkAddr s.cfg p.toNat) 0
      (Target.foreignWrites s.cfg (turnAt s.turns 1).writes (tg.write s.cfg s.cfg.pudAddr 0)) := by
  simp only [clearPull, hc] at h
  obtain ⟨x, u, hpud, hclk⟩ := Flow.andThen_eq_go.1 h
  have hpost := memWrite_post s.cfg.pudAddr 0 s
  rw [hpud] at hpost
  obtain ⟨hran, -⟩ := hpost
  have hturn : turnAt u.turns 0 = turnAt s.turns 1 := by rw [hran.turns, turnAt_drop]; rfl
  have htarget := memWrite_last hclk
  rw [hran.cfg, hturn, memWrite_last hpud] at htarget
  exact ⟨_, htarget⟩

/-- The last two writes under `FIELD_RMW`; other masters' writes of the third and fourth turn come between them. -/
theorem clearPull_fieldRmw_target {p : Word} {s t : State} (hw : s.cfg.WellFormed) (hp : p.toNat ≤ s.cfg.maxPin.toNat)
    (hc : s.cfg.pullClear = .fieldRmw) (h : clearPull p s = .go () t) : ∃ (d3 d4 : Word) (n : Nat) (tg : Target),
      t.target = Target.write s.cfg (pudclkAddr s.cfg p.toNat) (insertField d4 (fieldShift p.toNat s.cfg.bitWidth.toNat)
          (maskWord s.cfg.bitWidth.toNat) 0)
        (Target.foreignWrites s.cfg (turnAt s.turns 3).writes
          { Target.foreignWrites s.cfg (turnAt s.turns 2).writes (tg.write s.cfg s.cfg.pudAddr
              (insertField d3 0 (maskWord s.cfg.pudWidth.toNat) 0)) with draws := n }) := by
  simp only [clearPull, hc] at h
  rw [pudWrite_inRange hw (Nat.zero_le _)] at h
  obtain ⟨r, u, hpud, h⟩ := Flow.andThen_eq_go.1 h
  obtain ⟨hcfg, hturns, d3, n3, htarget3⟩ := rmwSuccess_last hpud
  rw [pudClkWrite_inRange (by rwa [hcfg]) (by rwa [hcfg]) (by decide), hcfg] at h
  obtain ⟨r', u', hclk, h⟩ := Flow.andThen_eq_go.1 h
  cases h
  obtain ⟨-, -, d4, n4, htarget4⟩ := rmwSuccess_last hclk
  rw [hcfg, htarget3, hturns, turnAt_drop, turnAt_drop] at htarget4
  exact ⟨d3, d4, n4, _, htarget4⟩

/-- A field that has been written 0 is 0 in the word. -/
theorem insertField_zero_and_mask (d : Word) (sh : Nat) (m : Word) : insertField d sh m 0 &&& (m <<< sh) = 0 := by
  rw [insertField_zero, BitVec.and_assoc, BitVec.and_comm (~~~_), BitVec.and_not_self]
  exact BitVec.and_zero

theorem wellFormed_pudAddr_aligned {c : Config} (hw : c.WellFormed) : Aligned c.pudAddr := by
  obtain ⟨-, -, -, -, hpud, -⟩ := hw
  exact hpud

/-- Settles O47: the trace is that of the two steps; the clock-enable register holds the last word written there, and PUD
the word of step 5, which no write at another address moves. -/
theorem pullRegistersAreCleared : Obligations.PullRegistersAreCleared := by
  unfold Obligations.PullRegistersAreCleared
  refine ⟨rfl, ?_⟩
  rintro p s t hw hp h ca sh pm bm rfl rfl rfl rfl
  have hpost := clearPull_post hw hp
  rw [h] at hpost
  obtain ⟨-, d3, d4, hran⟩ := hpost
  have htrace := hran.trace
  have hpudAligned := wellFormed_pudAddr_aligned hw
  cases hc : s.cfg.pullClear with
  | wordWrite =>
    obtain ⟨tg, htarget⟩ := clearPull_wordWrite_target hc h
    rw [clearEvents_wordWrite hc] at htrace
    refine ⟨fun _ => htrace, nofun, ?_, fun _ hne => ?_, nofun, fun hd => atDefaults_pull hd _⟩
    · rw [htarget, ← pudclkAddr, Target.clk_write_clk hw hp]
      exact BitVec.zero_and
    · rw [htarget, Target.pud_write_clk hw hp, Target.wordAt_foreignWrites_other hpudAligned _ _ hne,
        Target.pud_write_pud hw]
      exact BitVec.zero_and
  | fieldRmw =>
    obtain ⟨e3, e4, n, tg, htarget⟩ := clearPull_fieldRmw_target hw hp hc h
    rw [clearEvents_fieldRmw hc] at htrace
    refine ⟨nofun, fun _ => ⟨d3, d4, htrace⟩, ?_, nofun, fun _ hne2 hne3 => ?_, fun hd => atDefaults_pull hd _⟩
    · rw [htarget, ← pudclkAddr, Target.clk_write_clk hw hp, insertField_zero_and_mask]
    · rw [htarget, Target.pud_write_clk hw hp, Target.wordAt_foreignWrites_other hpudAligned _ _ hne3, withDraws_wordAt,
        Target.wordAt_foreignWrites_other hpudAligned _ _ hne2, Target.pud_write_pud hw]
      have hclear := insertField_zero_and_mask e3 0 (maskWord s.cfg.pudWidth.toNat)
      rwa [BitVec.shiftLeft_zero] at hclear

/-! ### SET_PULL with no other master (R34, R80, R81) -/

/-- What every write of a trace keeps, the trace keeps. -/
theorem playEvents_keeps {c : Config} {P : Target → Prop} {es : List Event} {t : Target} (h : P t)
    (hstep : ∀ a v u, .wr a v ∈ es → P u → P (u.write c a v)) : P (playEvents c es t) := by
  induction es generalizing t with
  | nil => exact h
  | cons e es ih =>
    have hrest : ∀ a v u, .wr a v ∈ es → P u → P (u.write c a v) := fun a v u hm => hstep a v u (by simp [hm])
    cases e with
    | wr a v => exact ih (hstep a v t (by simp) h) hrest
    | rd a d => exact ih h hrest
    | wt n => exact ih h hrest

/-- What the writes of a SET_PULL of pin `p` keep of the latches: every level, and the pull of every pin of another bank. -/
structure KeepsOtherLatches (c : Config) (p : Nat) (t u : Target) : Prop where
  levels : u.levels = t.levels
  pulls : ∀ q, q / pinsPerBank c ≠ p / pinsPerBank c → pinPull c u q = pinPull c t q

/-- A write of PUD or of the pin's clock-enable register is such a write. -/
theorem KeepsOtherLatches.write {c : Config} (hw : c.WellFormed) {p : Nat} (hp : p ≤ c.maxPin.toNat) {a : Word}
    (ha : a = c.pudAddr ∨ a = pudclkAddr c p) (v : Word) {t u : Target} (h : KeepsOtherLatches c p t u) :
    KeepsOtherLatches c p t (u.write c a v) := by
  rcases ha with rfl | rfl
  · rw [Target.write_pud hw]
    exact ⟨h.levels, h.pulls⟩
  · refine ⟨?_, fun q hq => ?_⟩
    · rw [pudclkAddr, regAddr_eq, Target.write_clk hw u v (bank_lt c hp)]
      exact h.levels
    · have hpull := pinPull_write_member_clk hw (bank_lt c hp) u v q
      rw [if_neg fun ⟨_, hbank, _⟩ => hq hbank] at hpull
      exact hpull.trans (h.pulls q hq)

/-- Settles O49: a rejection leaves the target; a success writes PUD and the pin's clock-enable register alone. -/
theorem setPullLeavesTheRest : Obligations.SetPullLeavesTheRest := by
  unfold Obligations.SetPullLeavesTheRest
  rintro p m s t h hs bw rfl
  obtain ⟨hw, -⟩ := exec_next h
  rcases exec_next_noReset h (sole_noReset hs) (by omega)
    (fun es htr => Nat.lt_succ_of_le htr.length.2) with ⟨c, hrej⟩ | ⟨es, htr, hans⟩
  · obtain ⟨htarget, hset, -⟩ := hrej.sole (sole_mono hs (by omega))
    rw [htarget]
    exact ⟨hset, fun _ _ _ => rfl, rfl, fun _ _ => rfl, fun _ => rfl, atDefaults_pinsPerBank⟩
  · have hsole := hans.sole (sole_mono hs (Nat.succ_le_succ htr.length.2))
    obtain ⟨hp, -, d, rfl⟩ := htr
    have hkeeps : KeepsOtherLatches s.cfg p.toNat s.target (playEvents s.cfg (pullEvents s.cfg p m d) s.target) :=
      playEvents_keeps ⟨rfl, fun _ _ => rfl⟩ fun a v u ha hu => hu.write hw hp (pullEvents_writes ha) v
    refine ⟨hsole.setting, fun x hpud hclk => hsole.byteAt fun a v ha => ?_, hsole.levels.trans hkeeps.levels,
      fun q hq => ?_, fun hr => ?_, atDefaults_pinsPerBank⟩
    · rcases pullEvents_writes ha with rfl | rfl
      · exact hpud
      · exact hclk
    · rw [hsole.target]
      exact hkeeps.pulls q hq
    · rw [hsole.result] at hr; cases hr

end Sys2Proof.Machine

/-! PROOFS. The family of 30_encoding.md: the packed request and its fields, the opcode map, the fields a pin command
ignores, the answer to a reserved opcode, and the assembler. -/

namespace Sys2Proof

/-! ### The fields of a request (R53, R58) -/

/-- The fields stand at the bit positions of R53. -/
theorem decodeRequest_toNat (r : Req) :
    (decodeRequest r).op.toNat = r.toNat % 2 ^ 4 ∧
    (decodeRequest r).index.toNat = r.toNat / 2 ^ 4 % 2 ^ 32 ∧
    (decodeRequest r).value.toNat = r.toNat / 2 ^ 36 % 2 ^ 32 ∧
    (decodeRequest r).base.toNat = r.toNat / 2 ^ 68 % 2 ^ 32 ∧
    (decodeRequest r).width.toNat = r.toNat / 2 ^ 100 % 2 ^ 32 ∧
    (decodeRequest r).maxIdx.toNat = r.toNat / 2 ^ 132 % 2 ^ 32 := by
  have hop : (decodeRequest r).op.toNat = r.toNat / 2 ^ 0 % 2 ^ 4 := toNat_extract r 0 4
  rw [pow_zero, Nat.div_one] at hop
  exact ⟨hop, toNat_extract r 4 32, toNat_extract r 36 32, toNat_extract r 68 32, toNat_extract r 100 32,
    toNat_extract r 132 32⟩

/-- A request is its six fields as numbers. -/
theorem Request.eq_of_toNat_eq {q q' : Request} (hop : q.op.toNat = q'.op.toNat)
    (hindex : q.index.toNat = q'.index.toNat) (hvalue : q.value.toNat = q'.value.toNat)
    (hbase : q.base.toNat = q'.base.toNat) (hwidth : q.width.toNat = q'.width.toNat)
    (hmax : q.maxIdx.toNat = q'.maxIdx.toNat) : q = q' := by
  cases q
  cases q'
  rw [Request.mk.injEq]
  exact ⟨BitVec.eq_of_toNat_eq hop, BitVec.eq_of_toNat_eq hindex, BitVec.eq_of_toNat_eq hvalue,
    BitVec.eq_of_toNat_eq hbase, BitVec.eq_of_toNat_eq hwidth, BitVec.eq_of_toNat_eq hmax⟩

/-- The packed number has the fields as its digits, OP of 4 bits and the others of 32, and no digit is lost. -/
@[simp] theorem decodeRequest_encodeRequest (q : Request) : decodeRequest (encodeRequest q) = q := by
  obtain ⟨hop, hindex, hvalue, hbase, hwidth, hmax⟩ := decodeRequest_toNat (encodeRequest q)
  rw [encodeRequest_toNat] at hop hindex hvalue hbase hwidth hmax
  have := q.op.isLt
  have := q.index.isLt
  have := q.value.isLt
  have := q.base.isLt
  have := q.width.isLt
  have := q.maxIdx.isLt
  apply Request.eq_of_toNat_eq <;> omega

/-- The six digits of a number below `2^164` make up the number. -/
@[simp] theorem encodeRequest_decodeRequest (r : Req) : encodeRequest (decodeRequest r) = r := by
  obtain ⟨hop, hindex, hvalue, hbase, hwidth, hmax⟩ := decodeRequest_toNat r
  apply BitVec.eq_of_toNat_eq
  rw [encodeRequest_toNat, hop, hindex, hvalue, hbase, hwidth, hmax]
  have := r.isLt
  omega

/-! ### The opcode map (R55 to R57) -/

theorem Request.command_of_op_zero {q : Request} (h : q.op = 0) :
    q.command = .ok (.writeField q.index q.value q.base q.width q.maxIdx) := by rw [Request.command, h]; rfl

theorem Request.command_of_op_one {q : Request} (h : q.op = 1) : q.command = .ok (.setFunction q.index q.value) := by
  rw [Request.command, h]; rfl

theorem Request.command_of_op_two {q : Request} (h : q.op = 2) : q.command = .ok (.drive q.index q.value) := by
  rw [Request.command, h]; rfl

theorem Request.command_of_op_three {q : Request} (h : q.op = 3) : q.command = .ok (.setPull q.index q.value) := by
  rw [Request.command, h]; rfl

theorem Request.command_of_reserved {q : Request} (h : 4 ≤ q.op.toNat) :
    q.command = .error (.reservedOpcode q.op) := by
  unfold Request.command
  split
  case h_5 => rfl
  all_goals omega

/-- The opcodes of the four commands. -/
theorem op_of_lt_four {op : BitVec 4} (h : op.toNat < 4) : op = 0 ∨ op = 1 ∨ op = 2 ∨ op = 3 := by
  revert op
  decide

/-- The decoder checks no operand: OP alone makes a request a command (R57, R58). -/
theorem Request.command_ok {q : Request} (h : q.op.toNat < 4) : ∃ i, q.command = .ok i := by
  obtain h | h | h | h := op_of_lt_four h
  · exact ⟨_, command_of_op_zero h⟩
  · exact ⟨_, command_of_op_one h⟩
  · exact ⟨_, command_of_op_two h⟩
  · exact ⟨_, command_of_op_three h⟩

/-- The request of a command is of that command: its operands stand in the fields the opcode reads (R54). -/
theorem Instr.command_request (i : Instr) : i.request.command = .ok i := by
  cases i with
  | writeField i v b w m => exact Request.command_of_op_zero rfl
  | setFunction p f => exact Request.command_of_op_one rfl
  | drive p l => exact Request.command_of_op_two rfl
  | setPull p m => exact Request.command_of_op_three rfl

theorem decode_encodeRequest (q : Request) : decode (encodeRequest q) = q.command := by
  rw [decode, decodeRequest_encodeRequest]

theorem decode_encode (i : Instr) : decode (encode i) = .ok i := by
  rw [encode, decode_encodeRequest, i.command_request]

theorem decode_of_eq_encode {r : Req} {i : Instr} (h : r = encode i) : decode r = .ok i := h ▸ decode_encode i

theorem decode_of_reserved {r : Req} (h : 4 ≤ (decodeRequest r).op.toNat) :
    decode r = .error (.reservedOpcode (decodeRequest r).op) := Request.command_of_reserved h

/-- Settles O2: the fields come back from the packed request, and the command from its fields. -/
theorem decodeOfEncodeIsTheCommand : Obligations.DecodeOfEncodeIsTheCommand := by
  unfold Obligations.DecodeOfEncodeIsTheCommand
  exact decode_encode

/-- Settles O3: the digits of the packed number, and the opcode map for the last clause. -/
theorem requestFieldsStandInTheirPlaces : Obligations.RequestFieldsStandInTheirPlaces := by
  unfold Obligations.RequestFieldsStandInTheirPlaces
  refine ⟨decodeRequest_toNat, decodeRequest_encodeRequest, encodeRequest_decodeRequest, fun q h => ?_⟩
  rw [decode_encodeRequest]
  exact Request.command_ok h

/-- Settles O1: the first four words are the encodings of their commands; the opcode of the last is reserved. -/
theorem wordsOfTheSpecDecode : Obligations.WordsOfTheSpecDecode := by
  unfold Obligations.WordsOfTheSpecDecode
  exact ⟨decode_of_eq_encode (by decide), decode_of_eq_encode (by decide), decode_of_eq_encode (by decide),
    decode_of_eq_encode (by decide), decode_of_reserved (by decide)⟩

/-- Settles O4: the equations of the opcode map, at the fields of the request. -/
theorem opcodeSelectsTheCommand : Obligations.OpcodeSelectsTheCommand := by
  unfold Obligations.OpcodeSelectsTheCommand
  rintro r q rfl
  exact ⟨Request.command_of_op_zero, Request.command_of_op_one, Request.command_of_op_two,
    Request.command_of_op_three, fun h => Request.command_of_reserved h⟩

/-- A pin command reads OP, INDEX and VALUE alone (R54). -/
theorem Request.command_of_pinOp {q q' : Request} (hpin : q.op = 1 ∨ q.op = 2 ∨ q.op = 3) (hop : q'.op = q.op)
    (hindex : q'.index = q.index) (hvalue : q'.value = q.value) :
    ∃ i, q.command = .ok i ∧ q'.command = .ok i := by
  obtain h | h | h := hpin
  · exact ⟨_, command_of_op_one h, hindex ▸ hvalue ▸ command_of_op_one (hop.trans h)⟩
  · exact ⟨_, command_of_op_two h, hindex ▸ hvalue ▸ command_of_op_two (hop.trans h)⟩
  · exact ⟨_, command_of_op_three h, hindex ▸ hvalue ▸ command_of_op_three (hop.trans h)⟩

end Sys2Proof

namespace Sys2Proof.Machine

open Sys2Proof

/-! ### Requests that run (R54, R56) -/

/-- A packed request of a command runs as the command, its fields in the command registers (R17, R57). -/
theorem runRequest_encodeRequest {q : Request} {i : Instr} (h : q.command = .ok i) (s : State) :
    runRequest (encodeRequest q) s = exec i ((accept q s).withCmd q) := by
  rw [runRequest_of_decode ((decode_encodeRequest q).trans h), decodeRequest_encodeRequest]
  rfl

/-- Settles O5: both requests run the same command, which reads no command register, from states that differ in these
alone. -/
theorem ignoredFieldsDoNotMatter : Obligations.IgnoredFieldsDoNotMatter := by
  unfold Obligations.IgnoredFieldsDoNotMatter
  intro s q q' hpin hop hindex hvalue
  obtain ⟨i, hq, hq'⟩ := Request.command_of_pinOp hpin hop hindex hvalue
  have haccept : accept q' s = (accept q s).withCmd q' := rfl
  rw [runRequest_encodeRequest hq, runRequest_encodeRequest hq', exec_withCmd, exec_withCmd, haccept, exec_withCmd]

theorem runRequest_of_reserved {r : Req} (h : 4 ≤ (decodeRequest r).op.toNat) (s : State) :
    runRequest r s = rejectReserved (accept (decodeRequest r) s) := by
  rw [runRequest, decode_of_reserved h]

/-- The answer to a reserved opcode is the one line `respond(REJECTED)` (R56). -/
theorem rejectReserved_go {s : State} (hw : s.cfg.WellFormed) (hr : (turnAt s.turns 0).reset = none) :
    rejectReserved s = .next ((afterTurn s).answered (.rejected .opcode)) := by
  rw [rejectReserved, command, if_pos hw, respond_go hr, Flow.outcome_go]

/-- Settles O8: the request is taken and accepted, and the one turn before the response is the environment's. -/
theorem reservedOpcodesAreRejected : Obligations.ReservedOpcodesAreRejected := by
  unfold Obligations.ReservedOpcodesAreRejected
  intro s r rest hp hi hop hw hr
  rw [step_of_request hp hi, runRequest_of_reserved hop]
  exact ⟨_, rejectReserved_go hw (hr 0 Nat.one_pos), ⟨rfl, rfl, rfl⟩, rfl, rfl, rfl, rfl, rfl, rfl⟩

/-! ### The assembler (R59 to R61) -/

/-- An expansion is its own expansion. -/
theorem commandOf_expandLine (l : AsmLine) : commandOf (expandLine l) = commandOf l := by cases l <;> rfl

/-- The literals an expansion adds are all in range. -/
theorem wellFormed_expandLine_iff (l : AsmLine) : (expandLine l).WellFormed ↔ l.WellFormed := by
  cases l <;> simp [AsmLine.WellFormed, expandLine, AsmLine.literals]

/-- A line assembles to what its expansion assembles to (R60). -/
theorem assemble_expandLine (l : AsmLine) : assemble (expandLine l) = assemble l := by
  simp only [assemble, wellFormed_expandLine_iff, commandOf_expandLine]

/-- Settles O55: each right side is the expansion of its left side. -/
theorem pseudoCommandsExpand : Obligations.PseudoCommandsExpand := by
  unfold Obligations.PseudoCommandsExpand
  intro p i v b m
  have h : ∀ l, assemble l = assemble (expandLine l) := fun l => (assemble_expandLine l).symm
  exact ⟨h (.driveHigh p), h (.driveLow p), h (.pullNone p), h (.pullDown p), h (.pullUp p), h (.setInput p),
    h (.setOutput p), h (.writeBit i v b m)⟩

theorem commandOf_isSome (l : AsmLine) : (commandOf l).isSome = true := by cases l <;> rfl

theorem assemble_isSome_iff (l : AsmLine) : (assemble l).isSome = true ↔ l.WellFormed := by
  unfold assemble
  split
  · exact iff_of_true (commandOf_isSome l) ‹_›
  · exact iff_of_false nofun ‹_›

theorem assemble_eq_some_iff {l : AsmLine} {c : Instr} :
    assemble l = some c ↔ l.WellFormed ∧ commandOf l = some c := by
  simp [assemble]

/-- A line that assembles gives its command, and each of its literals is the number of its word: none is truncated
(R61). -/
theorem commandOf_of_assemble {l : AsmLine} {c : Instr} (h : assemble l = some c) :
    commandOf l = some c ∧ ∀ n ∈ l.literals, (BitVec.ofNat 32 n).toNat = n := by
  obtain ⟨hwf, hc⟩ := assemble_eq_some_iff.1 h
  refine ⟨hc, fun n hn => ?_⟩
  rw [BitVec.toNat_ofNat, Nat.mod_eq_of_lt (hwf n hn)]

/-- Settles O56: a line assembles when it is well formed, and the words of its command are then its literals. -/
theorem literalsOutOfRangeAreRefused : Obligations.LiteralsOutOfRangeAreRefused := by
  unfold Obligations.LiteralsOutOfRangeAreRefused
  refine ⟨assemble_isSome_iff, fun i v b w m c h => ?writeField, fun p f c h => ?setFunction, fun p l c h => ?drive,
    fun p m c h => ?setPull⟩
  all_goals
    obtain ⟨hc, hwords⟩ := commandOf_of_assemble h
    cases hc
    simp only [AsmLine.literals, List.forall_mem_cons] at hwords
  case writeField =>
    obtain ⟨hi, hv, hb, hw, hm, -⟩ := hwords
    exact ⟨_, _, _, _, _, rfl, hi, hv, hb, hw, hm⟩
  all_goals
    obtain ⟨hpin, hoperand, -⟩ := hwords
    exact ⟨_, _, rfl, hpin, hoperand⟩

end Sys2Proof.Machine

/-! PROOFS. The family of 40_field_accessor.md: the valid widths and the geometry of a field, the ranges the accessor
checks, what a field write keeps of the word read, the packing of the function-select registers, and the rejections of
WRITE_FIELD and SET_FUNCTION. -/

namespace Sys2Proof.Machine

open Sys2Proof

/-! ### Valid widths and field geometry (R62, R63) -/

theorem validWidth_iff (w : Nat) : ValidWidth w ↔ w = 1 ∨ w = 2 ∨ w = 4 ∨ w = 8 ∨ w = 16 ∨ w = 32 := by
  constructor
  · rintro ⟨hpos, hle, hdvd⟩
    have hsmall : ∀ w ≤ 32, 1 ≤ w → 32 % w = 0 → w = 1 ∨ w = 2 ∨ w = 4 ∨ w = 8 ∨ w = 16 ∨ w = 32 := by decide
    exact hsmall w hle hpos hdvd
  · rintro (rfl | rfl | rfl | rfl | rfl | rfl) <;> decide

/-- The mask of a width up to 32 is a word without truncation (R63). -/
theorem toNat_maskWord {w : Nat} (hw : w ≤ 32) : (maskWord w).toNat = fieldMask w := by
  have hpow : 2 ^ w ≤ 2 ^ 32 := Nat.pow_le_pow_right (by decide) hw
  have hpos := Nat.two_pow_pos w
  rw [maskWord, BitVec.toNat_ofNat, Nat.mod_eq_of_lt (by rw [fieldMask]; omega)]

/-- Settles O21: the formulas are the definitions; that the mask is exact and the field ends within its register are the
laws of valid widths. -/
theorem fieldGeometry : Obligations.FieldGeometry := by
  unfold Obligations.FieldGeometry
  refine ⟨rfl, fun b i w hw => ?_⟩
  have hend := fieldShift_add_le hw i
  obtain ⟨-, hle, -⟩ := hw
  exact ⟨rfl, toNat_maskWord hle, rfl, BitVec.toNat_ofNat _ _, rfl, by omega⟩

/-! ### The ranges of a field write (R62, R64, R66) -/

/-- The cause kept with a field write out of range: the first in the order of R89. -/
def fieldCause (i w max : Word) : RejectCause :=
  if ¬ ValidWidth w.toNat then .width else if max.toNat < i.toNat then .index else .value

theorem fieldCause_badWidth {w : Word} (i max : Word) (hw : ¬ ValidWidth w.toNat) : fieldCause i w max = .width :=
  if_pos hw

/-- A field write out of range ends at the check its cause names, with nothing done (R64, R66, R68). -/
theorem fieldWrite_outOfRange {i v w max : Word} (b : Word) (s : State)
    (h : ¬ (ValidWidth w.toNat ∧ i.toNat ≤ max.toNat ∧ v.toNat ≤ fieldMask w.toNat)) :
    fieldWrite i v b w max s = .go (.rejected (fieldCause i w max)) s := by
  unfold fieldWrite fieldCause
  by_cases hw : ValidWidth w.toNat
  · rw [if_neg (not_not_intro hw), if_neg (not_not_intro hw)]
    by_cases hi : max.toNat < i.toNat
    · rw [if_pos hi, if_pos hi]
    · have hv : fieldMask w.toNat < v.toNat := Nat.not_le.1 fun hv => h ⟨hw, Nat.not_lt.1 hi, hv⟩
      rw [if_neg hi, if_neg hi, if_pos hv]
  · rw [if_pos hw, if_pos hw]

/-- A field write in range is never rejected: its verdict, if it gets to one, is SUCCESS (R65, R66). -/
theorem fieldWrite_inRange_ne_rejected {i v w max : Word} (b : Word) (s : State) (hw : ValidWidth w.toNat)
    (hi : i.toNat ≤ max.toNat) (hv : v.toNat ≤ fieldMask w.toNat) (c : RejectCause) (t : State) :
    fieldWrite i v b w max s ≠ .go (.rejected c) t := by
  intro h
  have hpost := rmwSuccess_post (regAddr b i.toNat w.toNat) (fieldShift i.toNat w.toNat) (maskWord w.toNat) v s
  rw [rmwSuccess, ← fieldWrite_inRange s hw hi hv, h] at hpost
  obtain ⟨hverdict, -⟩ := hpost
  cases hverdict

/-- A field write that is rejected leaves the whole state as it was (R68). -/
theorem fieldWrite_rejected_state {i v b w max : Word} {s t : State} {c : RejectCause}
    (h : fieldWrite i v b w max s = .go (.rejected c) t) : t = s := by
  have hpost := fieldWrite_post i v b w max s
  rw [h] at hpost
  obtain ⟨-, -, hstate⟩ | ⟨hverdict, -⟩ := hpost
  · exact hstate
  · cases hverdict

/-- Settles O20: the widths are listed, and the check of the width is the first. -/
theorem widthsThatDivideThirtyTwo : Obligations.WidthsThatDivideThirtyTwo := by
  unfold Obligations.WidthsThatDivideThirtyTwo
  refine ⟨fun w => ⟨Iff.rfl, validWidth_iff w⟩, fun i v b w max s hw => ?_⟩
  rw [fieldWrite_outOfRange b s fun h => hw h.1, fieldCause_badWidth i max hw]

/-- Settles O22: in range the verdict is SUCCESS, out of range a check rejects, and a rejection does nothing. -/
theorem fieldWriteRejectsOutOfRange : Obligations.FieldWriteRejectsOutOfRange := by
  unfold Obligations.FieldWriteRejectsOutOfRange
  refine ⟨fun i v b w max s hw => ⟨fun ⟨hi, hv⟩ => fieldWrite_inRange_ne_rejected b s hw hi hv, fun hne => ?_⟩,
    fun i v b w max s t c h => fieldWrite_rejected_state h⟩
  by_contra hout
  exact hne _ _ (fieldWrite_outOfRange b s fun h => hout h.2)

/-! ### The word written (R65, R69) -/

/-- Settles O23: the field of a valid width lies within the word, where the value is read back and the rest is kept. -/
theorem fieldInsertLaw : Obligations.FieldInsertLaw := by
  unfold Obligations.FieldInsertLaw
  intro i w v d hw hv
  have hend := fieldShift_add_le hw i
  exact ⟨fieldValue_insertField hend d v hv, insertField_outside hend d hv⟩

/-- Every bit above the field is as read (R69). -/
theorem getLsbD_insertField_above {d v : Word} {sh w k : Nat} (hw : sh + w ≤ 32) (hv : v.toNat ≤ fieldMask w)
    (hk : sh + w ≤ k) {j : Nat} (hj : k ≤ j) : (insertField d sh (maskWord w) v).getLsbD j = d.getLsbD j := by
  rw [getLsbD_insertField hw (lt_two_pow_of_le_fieldMask hv), if_neg (by omega)]

/-- Words that agree from bit `k` up agree in every slice from bit `k` up. -/
theorem extractLsb'_congr_above {n d : Word} {k : Nat} (h : ∀ j, k ≤ j → n.getLsbD j = d.getLsbD j) (l : Nat) :
    n.extractLsb' k l = d.extractLsb' k l := by
  apply BitVec.eq_of_getLsbD_eq
  intro j hj
  rw [BitVec.getLsbD_extractLsb', BitVec.getLsbD_extractLsb', h _ (Nat.le_add_right k j)]

/-! ### The bit-field specialisations (R73) -/

/-- Settles O25: the descriptors are the definitions, and at the defaults the parameters have their numbers. -/
theorem specialisationsAreFieldWrites : Obligations.SpecialisationsAreFieldWrites := by
  unfold Obligations.SpecialisationsAreFieldWrites
  refine fun p v s => ⟨⟨rfl, rfl, rfl, rfl⟩, fun hd => ⟨?_, fun _ => rfl, Nat.mul_one _, regAddr_first _ _, rfl⟩⟩
  obtain ⟨hmax, -, -, hbit, hpud, -⟩ := hd
  refine ⟨?_, ?_, ?_, ?_⟩
  · rw [setWrite, hbit, hmax]
  · rw [clrWrite, hbit, hmax]
  · rw [pudWrite, hpud]
  · rw [pudClkWrite, hbit, hmax]

/-! ### The function-select packing (R70, R72, R74) -/

theorem member_one (b : Word) : member b 1 = b + 4 := by
  apply BitVec.eq_of_toNat_eq
  rw [member, BitVec.toNat_ofNat, BitVec.toNat_add]
  rfl

/-- The register of a pin, ten pins to a register at the defaults (R70). -/
theorem atDefaults_fselAddr {c : Config} (h : c.AtDefaults) (p : Nat) :
    fselAddr c p = member c.fselBase (p / 10) := by
  obtain ⟨-, -, hper, -⟩ := h
  rw [fselAddr_eq, hper]

theorem fieldsFit_fselWidth_le {c : Config} (h : c.FieldsFit) : c.fselWidth ≤ 32 := by
  obtain ⟨-, hper, hfit, -⟩ := h
  exact Nat.le_trans (Nat.le_mul_of_pos_left _ hper) hfit

/-- Under a well-formed configuration a pin's function field ends within the fields of its register (R72). -/
theorem wellFormed_fselShift_add_le {c : Config} (hw : c.WellFormed) (p : Nat) :
    fselShift c p + c.fselWidth ≤ c.fselPerReg * c.fselWidth := by
  obtain ⟨⟨-, hper, -⟩, -⟩ := hw
  exact fselShift_add_le c hper p

/-- Settles O26: at the defaults R70's formulas with its numbers; the two formulas of the shift are one, and a field ends
within the fields of its register. -/
theorem functionSelectPacking : Obligations.FunctionSelectPacking := by
  unfold Obligations.FunctionSelectPacking
  refine fun c => ⟨fun hd => ⟨atDefaults_fselMask hd, atDefaults_fselShift hd 11, atDefaults_fselShift hd 10, ?_, ?_,
    fun p => ?_⟩, fun hf => ⟨?_, fun p => ⟨BitVec.toNat_ofNat _ _, ?_, ?_⟩⟩⟩
  · rw [atDefaults_fselAddr hd, member_one]
  · rw [atDefaults_fselAddr hd, member_one]
  · rw [atDefaults_fselAddr hd, atDefaults_fselShift hd]
    exact ⟨BitVec.toNat_ofNat _ _, rfl, by omega, by omega⟩
  · exact toNat_maskWord (fieldsFit_fselWidth_le hf)
  · rw [fselShift_eq, Nat.mul_comm]
  · obtain ⟨-, hper, hfit, -⟩ := hf
    exact Nat.le_trans (fselShift_add_le c hper p) hfit

/-- In the last function-select register a valid pin's field ends at or below the end of the last pin's (R72). -/
theorem fselShift_add_le_last {c : Config} {p : Nat} (hp : p ≤ c.maxPin.toNat)
    (hlast : p / c.fselPerReg = c.maxPin.toNat / c.fselPerReg) :
    fselShift c p + c.fselWidth ≤ (c.maxPin.toNat % c.fselPerReg + 1) * c.fselWidth := by
  have hslot : p % c.fselPerReg ≤ c.maxPin.toNat % c.fselPerReg := by
    have hpin := Nat.div_add_mod p c.fselPerReg
    have hmax := Nat.div_add_mod c.maxPin.toNat c.fselPerReg
    rw [hlast] at hpin
    omega
  rw [fselShift_eq, ← Nat.succ_mul]
  exact Nat.mul_le_mul_right _ (Nat.succ_le_succ hslot)

/-- Where the fields end at the defaults: ten fields at bit 30, and those of FSEL5 at bit 12 (R72). -/
theorem atDefaults_fselEnds {c : Config} (h : c.AtDefaults) :
    c.fselPerReg * c.fselWidth = 30 ∧ (c.maxPin.toNat % c.fselPerReg + 1) * c.fselWidth = 12 ∧
      ∀ p, p / 10 = 5 → p / c.fselPerReg = c.maxPin.toNat / c.fselPerReg := by
  have hmax := atDefaults_maxPin h
  obtain ⟨-, hwidth, hper, -⟩ := h
  rw [hmax, hwidth, hper]
  exact ⟨rfl, rfl, fun _ hp => hp⟩

/-- A `FselWrite` that succeeds had operands in range, and is one read and one write of the pin's register (R71). -/
theorem fselWrite_success {p f : Word} {s t : State} (h : fselWrite p f s = .go .success t) :
    p.toNat ≤ s.cfg.maxPin.toNat ∧ f.toNat ≤ fieldMask s.cfg.fselWidth ∧ ∃ d, t.trace = s.trace ++
      rmwEvents (fselAddr s.cfg p.toNat) (fselShift s.cfg p.toNat) (fselMask s.cfg) f d := by
  have hpost := fselWrite_post p f s
  rw [h] at hpost
  obtain ⟨c, hverdict, -⟩ | ⟨-, hp, -, d, hran⟩ := hpost
  · cases hverdict
  · refine ⟨hp, ?_, d, hran.trace⟩
    by_contra hf
    rw [fselWrite_badCode s hp (Nat.not_le.1 hf)] at h
    cases h

/-- Settles O36: a bit at or above the end of the pin's field is written as read, and both bounds are such ends. -/
theorem unusedFselBitsAreWrittenBack : Obligations.UnusedFselBitsAreWrittenBack := by
  unfold Obligations.UnusedFselBitsAreWrittenBack
  refine ⟨fun c p hw hp => ?_, fun p f s t hw h => ?_⟩
  · have hend := wellFormed_fselShift_add_le hw p
    refine ⟨hend, fselShift_add_le_last hp, fun hd => ?_⟩
    obtain ⟨h30, h12, hfive⟩ := atDefaults_fselEnds hd
    obtain ⟨-, hwidth, -⟩ := hd
    rw [← hwidth, ← h30, ← h12]
    exact ⟨hend, fun h5 => fselShift_add_le_last hp (hfive p h5)⟩
  · obtain ⟨hp, hf, d, htrace⟩ := fselWrite_success h
    have habove : ∀ k, fselShift s.cfg p.toNat + s.cfg.fselWidth ≤ k → ∀ j, k ≤ j →
        (insertField d (fselShift s.cfg p.toNat) (fselMask s.cfg) f).getLsbD j = d.getLsbD j :=
      fun k hk j hj => getLsbD_insertField_above (fselShift_fits hw p.toNat) hf hk hj
    have htop := habove _ (wellFormed_fselShift_add_le hw p.toNat)
    have hlast := fun hreg => habove _ (fselShift_add_le_last hp hreg)
    refine ⟨d, _, htrace, htop, hlast, fun hd => ?_⟩
    obtain ⟨h30, h12, hfive⟩ := atDefaults_fselEnds hd
    rw [h30] at htop
    rw [h12] at hlast
    exact ⟨extractLsb'_congr_above htop 2, fun h5 => extractLsb'_congr_above (hlast (hfive _ h5)) 18⟩

/-! ### The rejections of WRITE_FIELD and SET_FUNCTION (R66 to R68, R71, R76) -/

/-- A command that rejects before any event: one turn of the environment, then the response (R68). -/
theorem exec_rejects {i : Instr} {s : State} {c : RejectCause} (hw : s.cfg.WellFormed) (hr : s.NoReset 1)
    (hb : body i s = respond (.rejected c) s) :
    ∃ t, exec i s = .next t ∧ Responded (.rejected c) t ∧ t.trace = s.trace ∧ t.stepNo = s.stepNo ∧ t.rmw = s.rmw ∧
      SameSetting s t ∧ t.target = s.target.foreignWrites s.cfg (turnAt s.turns 0).writes :=
  ⟨_, exec_rejected hw hr hb, ⟨rfl, rfl, rfl⟩, rfl, rfl, rfl, ⟨rfl, rfl, rfl, rfl, by simp⟩, rfl⟩

/-- WRITE_FIELD out of range goes straight to its response (R66, R67). -/
theorem body_writeField_outOfRange {i v w max : Word} (b : Word) (s : State)
    (h : ¬ (ValidWidth w.toNat ∧ i.toNat ≤ max.toNat ∧ v.toNat ≤ fieldMask w.toNat)) :
    body (.writeField i v b w max) s = respond (.rejected (fieldCause i w max)) s := by
  rw [body, fieldWrite_outOfRange b s h, Flow.andThen_go]

/-- SET_FUNCTION out of range goes straight to its response, a bad pin found before a bad code (R71, R76, R89). -/
theorem body_setFunction_outOfRange {p f : Word} (s : State)
    (h : s.cfg.maxPin.toNat < p.toNat ∨ fieldMask s.cfg.fselWidth < f.toNat) :
    body (.setFunction p f) s =
      respond (.rejected (if s.cfg.maxPin.toNat < p.toNat then .index else .value)) s := by
  by_cases hp : s.cfg.maxPin.toNat < p.toNat
  · rw [body, fselWrite_badPin f s hp, Flow.andThen_go, if_pos hp]
  · rw [body, fselWrite_badCode s (Nat.not_lt.1 hp) (h.resolve_left hp), Flow.andThen_go, if_neg hp]

/-- Settles O28: the checks of `FieldWrite` give the cause, and the response is all that is left. -/
theorem writeFieldRejects : Obligations.WriteFieldRejects := by
  unfold Obligations.WriteFieldRejects
  intro i v b w max s hc hr hout
  obtain ⟨t, hexec, hres, htrace, hstep, hrmw, hset, htarget⟩ :=
    exec_rejects hc hr (body_writeField_outOfRange b s hout)
  exact ⟨fieldCause i w max, t, hexec, hres, rfl, htrace, hstep, hrmw, hset, htarget⟩

/-- Settles O27: 3 is no valid width, and ten fields of 3 bits are what the regular formulas make of it. -/
theorem widthThreeIsRejected : Obligations.WidthThreeIsRejected := by
  unfold Obligations.WidthThreeIsRejected
  constructor
  · intro i v b max s hc hr
    have hw : ¬ ValidWidth (3 : Word).toNat := by decide
    have hb := body_writeField_outOfRange (i := i) (v := v) (max := max) b s fun h => hw h.1
    rw [fieldCause_badWidth i max hw] at hb
    obtain ⟨t, hexec, hres, htrace, -, -, -, htarget⟩ := exec_rejects hc hr hb
    exact ⟨t, hexec, hres, htrace, htarget⟩
  · rintro c p ⟨-, hwidth, hper, -⟩
    rw [fselAddr_eq, fselShift_eq, hwidth, hper]
    exact ⟨rfl, rfl, rfl⟩

/-- Settles O33: the checks of `FselWrite` give the cause, and the response is all that is left. -/
theorem setFunctionRejects : Obligations.SetFunctionRejects := by
  unfold Obligations.SetFunctionRejects
  refine ⟨fun p f s hc hr hout => exec_rejects hc hr (body_setFunction_outOfRange s hout),
    fun c hd => ⟨atDefaults_maxPin hd, ?_⟩⟩
  obtain ⟨-, hwidth, -⟩ := hd
  rw [hwidth]
  rfl

end Sys2Proof.Machine

/-! PROOFS. The family of 41_pin_mux.md: what DRIVE and SET_PULL check, what they do not look at, the events of every
command, and a SET_PULL that a reset cuts after its third step. -/

namespace Sys2Proof.Machine

open Sys2Proof

/-! ### A SET_PULL cut after step 3 (R81, R82, R99, R100) -/

/-- A read-modify-write at an aligned address runs in turns that disturb nothing. -/
theorem rmwSuccess_runs {a : Word} {s : State} (sh : Nat) (m v : Word) (ha : Aligned a) (hu : s.Undisturbed 2) :
    ∃ t d, rmwSuccess a sh m v s = .go .success t ∧ Ran s t (rmwEvents a sh m v d) := by
  have hgo : rmwSuccess a sh m v s = .go .success (rmwState s a sh m v) := by
    rw [rmwSuccess, readModifyWrite_go sh m v ha hu, Flow.andThen_go]
  have hpost := rmwSuccess_post a sh m v s
  rw [hgo] at hpost
  obtain ⟨-, -, d, hran⟩ := hpost
  exact ⟨_, d, hgo, hran⟩

/-- A wait runs in a turn that brings no reset. -/
theorem wait_runs (n : Nat) {s : State} (hr : (turnAt s.turns 0).reset = none) :
    ∃ t, wait n s = .go () t ∧ Ran s t [.wt n] := by
  have hpost := wait_post n s
  rw [wait_go hr] at hpost
  obtain ⟨hran, -⟩ := hpost
  exact ⟨_, wait_go hr, hran⟩

/-- A reset in the turn before a wait abandons the command there (R100). -/
theorem wait_abandoned (n : Nat) {s : State} {k : ResetKind} (hr : (turnAt s.turns 0).reset = some k) :
    wait n s = .abandoned (resetBlock k (afterTurn s)) := by
  rw [wait, interlude_abandoned hr, Flow.andThen_abandoned]

theorem body_setPull_inRange {p m : Word} {s : State} (hp : p.toNat ≤ s.cfg.maxPin.toNat)
    (hm : m.toNat ≤ fieldMask s.cfg.pudWidth.toNat) :
    body (.setPull p m) s = (pullSequence p m s).andThen fun _ s => respond .success s := by
  simp only [body]
  rw [if_neg (Nat.not_lt.2 hp), if_neg (Nat.not_lt.2 hm)]

/-- The events of the first three steps (R81), which assert the clock; `d1` and `d2` are what their reads answer. -/
def assertEvents (c : Config) (p m d1 d2 : Word) : List Event :=
  pudEvents c (pullStep1Value c m) d1 ++ ([.wt c.pullSettle] ++ clkEvents c p 1 d2)

theorem assertEvents_length (c : Config) (p m d1 d2 : Word) : (assertEvents c p m d1 d2).length = 5 := rfl

theorem pudclkAddr_aligned {c : Config} (hw : c.WellFormed) (p : Nat) : Aligned (pudclkAddr c p) := by
  obtain ⟨-, -, -, -, -, hclk, -⟩ := hw
  exact regAddr_aligned hclk _ _

/-- The first three steps run in turns that disturb nothing, and step 4 comes next. -/
theorem pullSequence_threeSteps {p m : Word} {s : State} (hw : s.cfg.WellFormed) (hu : s.Undisturbed 5)
    (hp : p.toNat ≤ s.cfg.maxPin.toNat) (hm : m.toNat ≤ fieldMask s.cfg.pudWidth.toNat) :
    ∃ t d1 d2, Ran s t (assertEvents s.cfg p m d1 d2) ∧
      pullSequence p m s = (wait t.cfg.pullSettle t).andThen fun _ s => clearPull p s := by
  obtain ⟨t1, d1, hgo1, hran1⟩ := rmwSuccess_runs 0 (maskWord s.cfg.pudWidth.toNat) (pullStep1Value s.cfg m)
    (wellFormed_pudAddr_aligned hw) fun k hk => hu k (by omega)
  have hu1 : t1.Undisturbed 3 := undisturbed_drop hran1.turns hu
  obtain ⟨t2, hgo2, hran2⟩ := wait_runs t1.cfg.pullSettle (hu1 0 (by omega)).1
  have hu2 : t2.Undisturbed 2 := undisturbed_drop hran2.turns hu1
  have hcfg : t2.cfg = s.cfg := hran2.cfg.trans hran1.cfg
  obtain ⟨t3, d2, hgo3, hran3⟩ := rmwSuccess_runs (fieldShift p.toNat t2.cfg.bitWidth.toNat)
    (maskWord t2.cfg.bitWidth.toNat) 1 (pudclkAddr_aligned (hcfg ▸ hw) p.toNat) hu2
  have hclk := pudClkWrite_inRange (p := p) (v := 1) (hcfg ▸ hw) (hcfg ▸ hp) (by decide)
  refine ⟨t3, d1, d2, ?_, ?_⟩
  · rw [hran1.cfg] at hran2
    rw [hcfg] at hran3
    exact hran1.trans (hran2.trans hran3)
  · rw [pullSequence, pudWrite_inRange hw (pullStep1Value_le hm), hgo1, Flow.andThen_go, hgo2, Flow.andThen_go, hclk,
      hgo3, Flow.andThen_go]

/-- What the first three steps leave at the target: the mode of step 1 in PUD, and the pin's clock-enable field 1. -/
theorem playEvents_assertEvents {c : Config} (hw : c.WellFormed) {p m : Word} (hp : p.toNat ≤ c.maxPin.toNat)
    (hm : m.toNat ≤ fieldMask c.pudWidth.toNat) (d1 d2 : Word) (t : Target) :
    (playEvents c (assertEvents c p m d1 d2) t).pudMode c = step1Mode c m ∧
      fieldValue ((playEvents c (assertEvents c p m d1 d2) t).wordAt (pudclkAddr c p.toNat))
        (fieldShift p.toNat c.bitWidth.toNat) c.bitWidth.toNat = 1 := by
  have hstep1 := pudStep_events hw t d1 (pullStep1Value_le hm)
  have hstep3 := clkStep_write hw hp (playEvents c (pudEvents c (pullStep1Value c m) d1) t)
    (insertField d2 (fieldShift p.toNat c.bitWidth.toNat) (maskWord c.bitWidth.toNat) 1)
  have hbit := wellFormed_bitWidth hw
  refine ⟨(hstep3.mode.trans hstep1.mode).trans (pullStep1Value_eq c m), ?_⟩
  exact (congrArg (fieldValue · _ _) hstep3.clk).trans
    (fieldValue_insertField (fieldShift_add_le hbit _) d2 1 (one_le_fieldMask hbit))

/-- Settles O14: three steps run, the wait of step 4 is where the reset abandons the command, and the target keeps the two
writes. -/
theorem resetAfterStepThreeLeavesThePullHalfDone : Obligations.ResetAfterStepThreeLeavesThePullHalfDone := by
  unfold Obligations.ResetAfterStepThreeLeavesThePullHalfDone
  intro s p m hw hp hm hu hs hreset hwrites
  constructor
  · obtain ⟨u, d1, d2, hran, hseq⟩ := pullSequence_threeSteps hw hu hp hm
    have hturn : turnAt u.turns 0 = turnAt s.turns 5 := by rw [hran.turns, turnAt_drop, assertEvents_length]
    rw [wait_abandoned _ (hturn ▸ hreset), Flow.andThen_abandoned] at hseq
    have hexec : exec (.setPull p m) s = .next (resetBlock .blockOnly (afterTurn u)) := by
      rw [exec_of_wellFormed hw, body_setPull_inRange hp hm, hseq, Flow.andThen_abandoned, Flow.outcome_abandoned]
    have htarget : (resetBlock .blockOnly (afterTurn u)).target = u.target := afterTurn_target_alone (hturn ▸ hwrites)
    have htrace : (resetBlock .blockOnly (afterTurn u)).trace = s.trace ++ assertEvents s.cfg p m d1 d2 := hran.trace
    obtain ⟨hmode, hfield⟩ := playEvents_assertEvents hw hp hm d1 d2 s.target
    refine ⟨_, hexec, resetBlock_result .., rfl, rfl, ?_, ?_⟩
    · rw [htrace, List.length_append, assertEvents_length]
    · rw [htarget, hran.writes hs]
      exact ⟨hmode, hfield⟩
  · intro hd
    obtain ⟨haddr, hshift, hpud, -⟩ := atDefaults_pull hd p.toNat
    exact ⟨fun t => by rw [pudMode_eq, hpud], haddr, hshift⟩

/-! ### What DRIVE and SET_PULL do not look at (R86, R109) -/

/-- A DRIVE does not look at memory: its accesses are of write-only registers, or there are none. -/
theorem body_drive_alike (p l : Word) {s : State} {u : Target} (hw : s.cfg.WellFormed) (h : LevelsAlike s.target u) :
    FlowAlike (body (.drive p l) s) (body (.drive p l) (s.withTarget u)) := by
  simp only [body]
  by_cases hp : p.toNat ≤ s.cfg.maxPin.toNat
  · rw [driveWrite_inRange l hw hp, driveWrite_inRange (s := s.withTarget u) l hw hp]
    have hrmw : FlowAlike (rmwSuccess (driveAddr s.cfg p l) (fieldShift p.toNat s.cfg.bitWidth.toNat)
        (maskWord s.cfg.bitWidth.toNat) 1 s) (rmwSuccess (driveAddr s.cfg p l) (fieldShift p.toNat s.cfg.bitWidth.toNat)
        (maskWord s.cfg.bitWidth.toNat) 1 (s.withTarget u)) :=
      (readModifyWrite_alike h (writeOnly_driveAddr hw hp l)).andThen fun _ _ u hu => ⟨rfl, u, rfl, hu⟩
    exact hrmw.andThen fun _ _ _ hu => respond_alike hu
  · have hp := Nat.not_le.1 hp
    rw [driveWrite_outOfRange l hw hp, driveWrite_outOfRange (s := s.withTarget u) l hw hp]
    exact respond_alike h

/-- Flows that differ so end in next states that differ so. -/
theorem FlowAlike.outcome_next {α : Type} {m n : Flow α} (h : FlowAlike m n) {t : State} (ht : m.outcome = .next t) :
    ∃ u, n.outcome = .next (t.withTarget u) ∧ LevelsAlike t.target u := by
  unfold FlowAlike at h
  split at h
  · obtain ⟨-, u, rfl, hu⟩ := h; cases ht; exact ⟨u, rfl, hu⟩
  · obtain ⟨u, rfl, hu⟩ := h; cases ht; exact ⟨u, rfl, hu⟩
  · cases ht
  · exact h.elim

/-- The set and clear registers are write-only and the function-select registers are not, so a DRIVE's is none of them. -/
theorem driveAddr_ne_fsel {c : Config} (hw : c.WellFormed) {p : Word} (hp : p.toNat ≤ c.maxPin.toNat) (l : Word) {n : Nat}
    (hn : n < fselCount c) : driveAddr c p l ≠ member c.fselBase n := by
  intro he
  have hdrive := writeOnly_driveAddr hw hp l
  rw [he, writeOnly_fsel hw hn] at hdrive
  cases hdrive

/-- No trace of a DRIVE or a SET_PULL is at a function-select register. -/
theorem CommandTrace.addr_ne_fsel {c : Config} {i : Instr} {tr : List Event} (hw : c.WellFormed) (h : CommandTrace c i tr)
    {p v : Word} (hi : i = .drive p v ∨ i = .setPull p v) {e : Event} (he : e ∈ tr) {n : Nat} (hn : n < fselCount c) :
    e.addr? ≠ some (member c.fselBase n) := by
  intro ha
  rcases hi with rfl | rfl
  · obtain ⟨hp, d, rfl⟩ := h
    exact driveAddr_ne_fsel hw hp v hn (addr_of_mem_rmwEvents he ha).symm
  · obtain ⟨hp, -, d, rfl⟩ := h
    have hgroups := groups_of_wellFormed hw
    rcases addr_of_mem_pullEvents he ha with hpud | hclk
    · exact hgroups.fselPud n hn hpud
    · exact hgroups.fselClk n _ hn (bank_lt c hp) hclk

/-- Settles O43: two runs of a DRIVE that start apart in memory stay alike but for memory and pull latches; and however a
DRIVE or a SET_PULL ends, its events begin one of its traces. -/
theorem driveAndPullDoNotReadTheFunction : Obligations.DriveAndPullDoNotReadTheFunction := by
  unfold Obligations.DriveAndPullDoNotReadTheFunction
  refine ⟨fun p l s t m h => ?_, fun p v i s t hi h => ?_⟩
  · obtain ⟨hw, -⟩ := exec_next h
    have halike := body_drive_alike (u := { s.target with mem := m }) p l hw ⟨rfl, rfl, rfl⟩
    rw [exec_of_wellFormed hw] at h
    obtain ⟨u, hu, hlevels⟩ := halike.outcome_next h
    exact ⟨_, (exec_of_wellFormed (s := s.withTarget { s.target with mem := m }) hw _).trans hu, rfl, rfl, hlevels.levels⟩
  · obtain ⟨hw, -⟩ := exec_next h
    obtain ⟨c, h⟩ | ⟨es, htr, h⟩ | ⟨es, hes, h⟩ := exec_next_cases h
    · exact ⟨[], h.trace, nofun⟩
    · exact ⟨es, h.trace, fun e he n hn => htr.addr_ne_fsel hw hi he hn⟩
    · refine ⟨es, h.trace, fun e he n hn => ?_⟩
      rcases hes with rfl | ⟨tr, htr, hpre⟩
      · cases he
      · exact htr.addr_ne_fsel hw hi (hpre.subset he) hn

/-! ### What SET_PULL and DRIVE check (R77, R78, R80) -/

/-- SET_PULL out of range goes straight to its response, a bad pin found before a bad mode (R80, R89). -/
theorem body_setPull_outOfRange {p m : Word} (s : State)
    (h : s.cfg.maxPin.toNat < p.toNat ∨ fieldMask s.cfg.pudWidth.toNat < m.toNat) :
    body (.setPull p m) s =
      respond (.rejected (if s.cfg.maxPin.toNat < p.toNat then .index else .value)) s := by
  simp only [body]
  by_cases hp : s.cfg.maxPin.toNat < p.toNat
  · rw [if_pos hp, if_pos hp]
  · rw [if_neg hp, if_neg hp, if_pos (h.resolve_left hp)]

/-- Settles O44: the two checks come before the sequence, whose ten events and response fit in eleven turns. -/
theorem setPullValidatesFirst : Obligations.SetPullValidatesFirst := by
  unfold Obligations.SetPullValidatesFirst
  refine ⟨fun p m s hw hr hout => exec_rejects hw hr (body_setPull_outOfRange s hout), fun p m s hw hu hp hm => ?_,
    fun c hd => ⟨atDefaults_maxPin hd, by rw [atDefaults_pudWidth hd]; rfl⟩⟩
  obtain ⟨d, t, hexec, hans, -⟩ :=
    setPull_completes hw hu hp hm fun d => by rw [pullEvents_length]; split <;> omega
  obtain ⟨-, -, hres, -⟩ := hans.facts
  exact ⟨t, hexec, hres⟩

/-- DRIVE of a bad pin goes straight to its response, at any level (R77). -/
theorem body_drive_outOfRange {p : Word} (l : Word) {s : State} (hw : s.cfg.WellFormed)
    (hp : s.cfg.maxPin.toNat < p.toNat) : body (.drive p l) s = respond (.rejected .index) s := by
  rw [body, driveWrite_outOfRange l hw hp, Flow.andThen_go]

/-- Settles O38: the response is all that is left of the command. -/
theorem driveRejects : Obligations.DriveRejects := by
  unfold Obligations.DriveRejects
  exact ⟨fun p l s hw hr hp => exec_rejects hw hr (body_drive_outOfRange l hw hp), fun c hd => atDefaults_maxPin hd⟩

theorem rmwSuccess_ne_rejected {a : Word} {sh : Nat} {m v : Word} {s t : State} {c : RejectCause} :
    rmwSuccess a sh m v s ≠ .go (.rejected c) t := by
  intro h
  have hpost := rmwSuccess_post a sh m v s
  rw [h] at hpost
  obtain ⟨hverdict, -⟩ := hpost
  cases hverdict

/-- Settles O40: the branch of DRIVE on its level; for a valid pin either write is a read-modify-write whose verdict is
SUCCESS. -/
theorem levelIsAssertedUnlessZero : Obligations.LevelIsAssertedUnlessZero := by
  unfold Obligations.LevelIsAssertedUnlessZero
  refine ⟨fun p l s hl => ?_, fun p s => rfl, fun p s t c hw hp => ⟨?_, ?_⟩⟩
  · simp only [exec, execDrive, if_pos hl]
  · rw [setWrite_inRange hw hp]
    exact rmwSuccess_ne_rejected
  · rw [clrWrite_inRange hw hp]
    exact rmwSuccess_ne_rejected

/-! ### The events of every command (R84) -/

theorem rmwEvents_waits (a : Word) (sh : Nat) (m v d : Word) :
    (rmwEvents a sh m v d).filter (fun e => e.kind = .wt) = [] := rfl

theorem clearEvents_waits (c : Config) (p d3 d4 : Word) :
    (clearEvents c p d3 d4).filter (fun e => e.kind = .wt) = [] := by
  unfold clearEvents
  split <;> rfl

/-- The waits of the pull sequence are those of steps 2 and 4 (R81). -/
theorem pullEvents_waits (c : Config) (p m : Word) (d : Word × Word × Word × Word) :
    (pullEvents c p m d).filter (fun e => e.kind = .wt) = [.wt c.pullSettle, .wt c.pullSettle] := by
  simp only [pullEvents, pudEvents, clkEvents, List.filter_append, rmwEvents_waits, clearEvents_waits]
  rfl

/-- A reserved opcode is rejected where its one turn brings no reset (R56). -/
theorem rejectReserved_next_noReset {s t : State} (h : rejectReserved s = .next t) (hr : s.NoReset 1) :
    Rejected s t .opcode :=
  (rejectReserved_next h).resolve_right fun hab => hab.firstReset.1 (hr 0 Nat.one_pos)

/-- Settles O50: with no reset a command has been rejected before any event or has run one of its traces. -/
theorem eventCounts : Obligations.EventCounts := by
  unfold Obligations.EventCounts
  refine ⟨fun i s t h hr => ?_, fun s t h hr => ?_⟩
  · rcases exec_next_noReset h hr (by omega) fun es htr => Nat.lt_succ_of_le htr.length.2 with
      ⟨c, hrej⟩ | ⟨es, htr, hans⟩
    · obtain ⟨htrace, hstep, ⟨hres, -⟩, -⟩ := hrej.answered.facts
      exact ⟨[], htrace, hstep, Nat.zero_le _, .inl ⟨hres, rfl⟩⟩
    · obtain ⟨htrace, hstep, ⟨hres, -⟩, -⟩ := hans.facts
      refine ⟨es, htrace, hstep, htr.length.2, .inr ⟨hres, htr.kinds, ?_⟩⟩
      rintro p m rfl
      obtain ⟨-, -, d, rfl⟩ := htr
      exact pullEvents_waits s.cfg p m d
  · obtain ⟨htrace, hstep, ⟨hres, -⟩, -⟩ := (rejectReserved_next_noReset h hr).answered.facts
    exact ⟨by rw [htrace, List.append_nil], hstep, hres⟩

end Sys2Proof.Machine

/-! PROOFS. The family of 60_exceptions.md: accesses that the bus port does not admit, and the block that waits. -/

namespace Sys2Proof.Machine

open Sys2Proof

/-! ### Stuck commands (R36, R85, R88) -/

/-- A command that faults is stuck at an access before its response: RESULT and PHASE are as at its start (R19, R88). -/
theorem exec_fault_unanswered {i : Instr} {s : State} {f : Fault} (h : exec i s = .fault f) :
    ∃ a m, f = .busAccessStuck a m ∧ m.resultReg = s.resultReg ∧ m.responded = s.responded ∧ m.phase = s.phase := by
  obtain ⟨tr, -, es, e, rest, -, m, a, -, hm, -, -, rfl⟩ := exec_fault h
  exact ⟨a, afterTurn m, rfl, hm.resultReg, hm.responded, hm.phase⟩

/-- A block that is BUSY between steps stays stuck in a turn that brings no reset (log entry 14). -/
theorem step_busy_noReset {s : State} (hb : s.phase = .busy) (hr : (turnAt s.turns 0).reset = none) :
    step s = .fault .blockStuck := by
  rw [step, hb]
  simp only [stuckTurn, interlude_go hr]

/-- Settles O32: both primitives are stuck in the state after their turn, a command faults only at such an access, and a
BUSY block takes no step but a reset. -/
theorem notAdmittedAccessIsStuck : Obligations.NotAdmittedAccessIsStuck := by
  unfold Obligations.NotAdmittedAccessIsStuck
  refine ⟨fun a v s hr hn => ?_, fun i s f h => exec_fault_unanswered h,
    fun s hb hr => step_busy_noReset hb (hr 0 Nat.one_pos)⟩
  have h0 : (turnAt s.turns 0).reset = none := hr 0 Nat.one_pos
  exact ⟨afterTurn s, memRead_stuck h0 hn, memWrite_stuck h0 hn, afterTurn_resultReg s, afterTurn_responded s,
    afterTurn_phase s, afterTurn_trace s⟩

/-! ### The block that waits (R97, R101) -/

/-- Settles O9: of the cases of `step`, the one of an IDLE block with empty ports. -/
theorem idleBlockWaits : Obligations.IdleBlockWaits := by
  unfold Obligations.IdleBlockWaits
  intro s hp hi
  rw [step, hp, hi]

end Sys2Proof.Machine

/-! PROOFS. The family of 70_reset_and_hazards.md: a reset before the first event of a command or at a BUSY block, and
what the read of a write-only register does to a DRIVE. -/

namespace Sys2Proof.Machine

open Sys2Proof

/-! ### A reset in the next turn (R99, R100) -/

/-- What `resetBlock` makes of the state after a turn, with the block's registers at the values of reset (log entries 4,
22). -/
theorem resetBlock_afterTurn (k : ResetKind) (s : State) : resetBlock k (afterTurn s) = { s with
    cmd := Request.atReset, resultReg := Result.atReset, responded := false, phase := .idle, stepNo := 0, rmw := none,
    cause := none, turns := s.turns.tail,
    target := (s.target.foreignWrites s.cfg (turnAt s.turns 0).writes).reset k } := rfl

/-- A run has no event when the next turn brings a reset: one turn stands before each event (log entry 1). -/
theorem Ran.events_eq_nil {s m : State} {es : List Event} {k : ResetKind} (h : Ran s m es)
    (hk : (turnAt s.turns 0).reset = some k) : es = [] := by
  by_contra hne
  have hnone := h.noReset 0 (List.length_pos_of_ne_nil hne)
  rw [hk] at hnone
  cases hnone

/-- A run of no event has moved the latches alone, and a reset empties them (R20, R31). -/
theorem Ran.resetBlock_afterTurn_eq {s m : State} (h : Ran s m []) (k : ResetKind) :
    resetBlock k (afterTurn m) = resetBlock k (afterTurn s) := by
  have htrace : m.trace = s.trace := h.trace.trans (List.append_nil _)
  have hturns : m.turns = s.turns := h.turns
  rw [resetBlock_afterTurn, resetBlock_afterTurn, h.cfg, h.inputs, h.received, htrace, hturns, h.still rfl]

/-- No reset came in the turn before the first primitive, if none comes in the turn after the events. -/
theorem Ran.firstTurn_noReset {s m : State} {es : List Event} (h : Ran s m es)
    (hnone : (turnAt m.turns 0).reset = none) : (turnAt s.turns 0).reset = none := by
  cases es with
  | nil => rwa [h.turns] at hnone
  | cons e es => exact h.noReset 0 (Nat.succ_pos _)

theorem Answered.firstTurn_noReset {s t : State} {v : Verdict} {es : List Event} (h : Answered s t v es) :
    (turnAt s.turns 0).reset = none := by
  obtain ⟨m, hm, -, hnone, -⟩ := h
  exact hm.firstTurn_noReset hnone

theorem StuckAt.firstTurn_noReset {s : State} {f : Fault} {es : List Event} {e : Event} (h : StuckAt s f es e) :
    (turnAt s.turns 0).reset = none := by
  obtain ⟨m, -, -, hm, hnone, -⟩ := h
  exact hm.firstTurn_noReset hnone

/-- A command that is abandoned and whose first turn brings a reset is abandoned in that turn, by that reset. -/
theorem Abandoned.eq_of_firstTurn {s t : State} {es : List Event} {k : ResetKind} (h : Abandoned s t es)
    (hk : (turnAt s.turns 0).reset = some k) : t = resetBlock k (afterTurn s) := by
  obtain ⟨m, j, hm, hj, rfl⟩ := h
  obtain rfl := hm.events_eq_nil hk
  rw [hm.turns, List.length_nil, List.drop_zero, hk] at hj
  cases hj
  exact hm.resetBlock_afterTurn_eq k

/-- Of the ways a command ends, a reset in its first turn leaves one (R85, R100). -/
theorem body_abandoned (i : Instr) {s : State} {k : ResetKind} (hw : s.cfg.WellFormed)
    (hk : (turnAt s.turns 0).reset = some k) : body i s = .abandoned (resetBlock k (afterTurn s)) := by
  have hpost := body_post i hw
  cases hb : body i s with
  | go x t =>
    rw [hb] at hpost
    obtain ⟨c, h⟩ | ⟨es, -, h⟩ := hpost
    · cases h.answered.firstTurn_noReset.symm.trans hk
    · cases h.firstTurn_noReset.symm.trans hk
  | abandoned t =>
    rw [hb] at hpost
    obtain h | ⟨tr, es, -, -, h⟩ := hpost
    · rw [h.eq_of_firstTurn hk]
    · rw [h.eq_of_firstTurn hk]
  | stuck f =>
    rw [hb] at hpost
    obtain ⟨tr, -, es, e, rest, -, h⟩ := hpost
    cases h.firstTurn_noReset.symm.trans hk

/-- The one step of a BUSY block (R85, R88; log entry 14). -/
theorem step_busy_reset {s : State} {k : ResetKind} (hb : s.phase = .busy)
    (hk : (turnAt s.turns 0).reset = some k) : step s = .next (resetBlock k (afterTurn s)) := by
  rw [step, hb]
  simp only [stuckTurn, interlude_abandoned hk]

/-- Settles O13: a command whose first turn brings a reset is abandoned there, and a BUSY block's step is that reset. -/
theorem resetAbandonsTheCommand : Obligations.ResetAbandonsTheCommand := by
  unfold Obligations.ResetAbandonsTheCommand
  refine ⟨fun i s k hw hk => ?_, fun s k hb hk => ?_⟩
  · rw [exec_of_wellFormed hw, body_abandoned i hw hk, Flow.outcome_abandoned, resetBlock_afterTurn]
  · rw [step_busy_reset hb hk, resetBlock_afterTurn]

/-! ### What the write-only read does to a DRIVE (R77, R105) -/

/-- A DRIVE with no other master whose trace is a read and a write has run its read-modify-write on the word read. -/
theorem drive_soleAnswered {p l a d n : Word} {s t : State} (h : exec (.drive p l) s = .next t) (hs : s.Sole 3)
    (htrace : t.trace = s.trace ++ [.rd a d, .wr a n]) :
    SoleAnswered s t .success (driveEvents s.cfg p l d) := by
  obtain ⟨c, hrej⟩ | ⟨es, ⟨-, e, rfl⟩, hans⟩ := exec_next_noReset h (sole_noReset hs) (by decide)
    (by rintro es ⟨-, e, rfl⟩; exact (by decide : 2 < 3))
  · have hnil := List.append_cancel_left (hrej.answered.trace.symm.trans htrace)
    cases hnil
  · have hevents := List.append_cancel_left (hans.trace.symm.trans htrace)
    cases hevents
    exact hans.sole hs

/-- A word that is 0 outside a pin's field has a 0 for every other pin of its bank. -/
theorem bank_lowBit_of_zeroOutside {c : Config} (hw : c.WellFormed) {d : Word} {p q : Nat}
    (hd : d &&& ~~~(maskWord c.bitWidth.toNat <<< fieldShift p c.bitWidth.toNat) = 0) (hq : q ≠ p) :
    ¬ (q / pinsPerBank c = p / pinsPerBank c ∧ d.getLsbD (fieldShift q c.bitWidth.toNat) = true) := by
  intro hbit
  have hcleared := (bank_lowBit_insertField hw d (v := 0) (by decide) p q).2 (by rwa [if_neg hq])
  rw [insertField_zero, hd] at hcleared
  simp at hcleared

/-- The levels after the write of a DRIVE whose read gave such a word (R105). -/
theorem pinLevel_write_driveAddr_onlyPin {c : Config} (hw : c.WellFormed) {p : Word} (hp : p.toNat ≤ c.maxPin.toNat)
    (l : Word) {d : Word}
    (hd : d &&& ~~~(maskWord c.bitWidth.toNat <<< fieldShift p.toNat c.bitWidth.toNat) = 0) (t : Target) {q : Nat}
    (hq : q ≤ c.maxPin.toNat) :
    pinLevel (t.write c (driveAddr c p l) (insertField d (fieldShift p.toNat c.bitWidth.toNat)
      (maskWord c.bitWidth.toNat) 1)) q = if q = p.toNat then decide (l ≠ 0) else pinLevel t q := by
  rw [pinLevel_write_driveAddr hw hp l _ t hq]
  simp only [bank_lowBit_insertField hw d (v := 1) (by decide) p.toNat q]
  by_cases he : q = p.toNat
  · simp [he]
  · simp only [if_neg he]
    rw [if_neg (bank_lowBit_of_zeroOutside hw hd he)]

/-- Settles O42: the one write drives the pins whose bits are 1 in the word written, which the pin alone has. -/
theorem driveAffectsOnlyItsPin : Obligations.DriveAffectsOnlyItsPin := by
  unfold Obligations.DriveAffectsOnlyItsPin
  intro p l a d n s t h hs hp htrace hd
  obtain ⟨hw, -⟩ := exec_next h
  have hlevels := (drive_soleAnswered h hs htrace).target
  simp only [driveEvents, rmwEvents, playEvents] at hlevels
  refine ⟨fun q hq => ?_, fun hdef => ?_⟩
  · rw [hlevels]
    exact pinLevel_write_driveAddr_onlyPin hw hp l hd s.target hq
  · obtain ⟨-, hshift, hmask, -⟩ := atDefaults_bit hdef s.cfg.setBase p.toNat
    rw [hshift, hmask]

end Sys2Proof.Machine
